-- ==== Sys2Proof/Word.lean ====
section
/-! DEFINITION. The word types of the interface (20_memory R62): a command or operand word is 32 bits
(30_encoding R80), a register value one byte (R64), a PCM value one int16. -/

namespace Sys2Proof

/-- A 32-bit word of the transaction stream, or one int32 of the host's accumulation buffer. -/
abbrev Word := BitVec 32

/-- A register value. -/
abbrev Byte := BitVec 8

/-- A 16-bit signed PCM value. -/
abbrev Pcm := BitVec 16

end Sys2Proof
end

