-- ==== Sys2Proof/Machine/Bits.lean ====
section
/-! DEFINITION. The notation and primitives of 00_scope R10 and R11: bit fields, sign extension, saturation, wrapping,
and the little-endian serialised form of a word (92_eei_decisions D36). -/

namespace Sys2Proof

/-- `v[hi:lo]`: bits `hi` down to `lo` of `v`, zero-extended (R10). -/
def bitsOf (v hi lo : Nat) : Nat := v / 2 ^ lo % 2 ^ (hi + 1 - lo)

/-- `v[i]`: bit `i` of a byte, as a truth value (R10). -/
def bitOf (v : Byte) (i : Nat) : Bool := v.toNat / 2 ^ i % 2 == 1

/-- `sext_n`: the signed value of an `n`-bit number (R11). -/
def sextOf (n v : Nat) : Int := if v < 2 ^ (n - 1) then v else (v : Int) - 2 ^ n

/-- `x >> k` of a signed `x`: the arithmetic shift, which rounds down (R11). -/
def asr (x : Int) (k : Nat) : Int := x / 2 ^ k

/-- `clamp16` (R11). -/
def clamp16 (x : Int) : Int := min 32767 (max (-32768) x)

/-- The int16 that holds an integer of the int16 range. -/
def toPcm (x : Int) : Pcm := BitVec.ofInt 16 x

/-- `wrap32s` (R11): the int32 congruent to `x` mod 2^32. -/
def wrap32s (x : Int) : Word := BitVec.ofInt 32 x

/-- The four bytes of a word, least significant first: the serialised form of 92_eei_decisions D36. -/
def wordBytes (w : Word) : List Byte :=
  [BitVec.ofNat 8 w.toNat, BitVec.ofNat 8 (w.toNat / 2 ^ 8), BitVec.ofNat 8 (w.toNat / 2 ^ 16),
    BitVec.ofNat 8 (w.toNat / 2 ^ 24)]

/-- The two bytes of a PCM value, least significant first (20_memory R62). -/
def pcmBytes (x : Pcm) : List Byte := [BitVec.ofNat 8 x.toNat, BitVec.ofNat 8 (x.toNat / 2 ^ 8)]

/-- The words that a byte string in the serialised form spells; bytes short of a whole word spell none. -/
def bytesWords : List Byte → List Word
  | b0 :: b1 :: b2 :: b3 :: rest =>
    BitVec.ofNat 32 (b0.toNat + b1.toNat * 2 ^ 8 + b2.toNat * 2 ^ 16 + b3.toNat * 2 ^ 24) :: bytesWords rest
  | _ => []

/-- The vector whose entry at `i` is `f i`. -/
def tabulate {α : Type} (n : Nat) (f : Fin n → α) : Vector α n :=
  ⟨⟨(List.finRange n).map f⟩, by simp⟩

end Sys2Proof
end

