-- ==== Sys2Proof/Machine/AddressMap.lean ====
section
/-! DEFINITION. The register address map (30_encoding R85 to R92): which class a register address has, and the address of
an operator's or a channel's register. -/

namespace Sys2Proof

/-- The first operator of a channel, operator `2*ch` (00_scope R12). -/
def firstOp (ch : Fin 18) : Fin 36 := ⟨2 * ch.val, by omega⟩

/-- The second operator of a channel, operator `2*ch + 1` (00_scope R12). -/
def secondOp (ch : Fin 18) : Fin 36 := ⟨2 * ch.val + 1, by omega⟩

/-- The channel of an operator (00_scope R12). -/
def chanOf (o : Fin 36) : Fin 18 := ⟨o.val / 2, by omega⟩

/-- `opoff(ch, s)` of operator `o` of channel `ch`, slot `s` (30_encoding R89). -/
def opOffset (o : Fin 36) : Nat :=
  let l := o.val / 2 % 9
  8 * (l / 3) + l % 3 + 3 * (o.val % 2)

/-- The address of operator `o`'s register of the range with base `base` (30_encoding R92). -/
def opAddr (base : Nat) (o : Fin 36) : Nat := 0x100 * (o.val / 18) + base + opOffset o

/-- The address of channel `ch`'s register of the range with base `base` (30_encoding R92). -/
def chAddr (base : Nat) (ch : Fin 18) : Nat := 0x100 * (ch.val / 9) + base + ch.val % 9

/-- The operator that slot offset `off` of bank `b` names, if it names one (30_encoding R88). -/
def operatorAt (b : Bool) (off : Nat) : Option (Fin 36) :=
  if h : off / 8 ≤ 2 ∧ off % 8 ≤ 5 then
    some ⟨2 * (9 * b.toNat + (3 * (off / 8) + off % 8 % 3)) + off % 8 / 3, by
      have := Bool.toNat_le b
      omega⟩
  else none

/-- The channel that offset `l` of bank `b` names, if it names one (30_encoding R90). -/
def channelAt (b : Bool) (l : Nat) : Option (Fin 18) :=
  if h : l ≤ 8 then
    some ⟨9 * b.toNat + l, by
      have := Bool.toNat_le b
      omega⟩
  else none

/-- The classes of a register address (30_encoding R87). -/
inductive RegClass where
  | op20 (o : Fin 36)
  | op40 (o : Fin 36)
  | op60 (o : Fin 36)
  | op80 (o : Fin 36)
  | opE0 (o : Fin 36)
  | chA0 (ch : Fin 18)
  | chB0 (ch : Fin 18)
  | chC0 (ch : Fin 18)
  | wse
  | timer1
  | timer2
  | timerControl
  | csmNts
  | rhythm
  | connection
  | newMode
  | unassigned
  deriving DecidableEq, Repr

/-- An operator class, where the offset names an operator. -/
def opClass (mk : Fin 36 → RegClass) (b : Bool) (off : Nat) : RegClass :=
  match operatorAt b off with
  | some o => mk o
  | none => .unassigned

/-- A channel class, where the offset names a channel. -/
def chClass (mk : Fin 18 → RegClass) (b : Bool) (l : Nat) : RegClass :=
  match channelAt b l with
  | some ch => mk ch
  | none => .unassigned

/-- The class of a register address: bank `a[8]`, index `a[7:0]` (30_encoding R87). The five operator ranges are the
32-address blocks 1, 2, 3, 4 and 7 of a bank, the three channel ranges the 16-address blocks 10, 11 and 12. -/
def classOf (a : BitVec 9) : RegClass :=
  let b := a.toNat / 256 == 1
  let x := a.toNat % 256
  match x / 32 with
  | 1 => opClass .op20 b (x % 32)
  | 2 => opClass .op40 b (x % 32)
  | 3 => opClass .op60 b (x % 32)
  | 4 => opClass .op80 b (x % 32)
  | 7 => opClass .opE0 b (x % 32)
  | _ =>
    if a.toNat = 0x001 then .wse
    else if a.toNat = 0x002 then .timer1
    else if a.toNat = 0x003 then .timer2
    else if a.toNat = 0x004 then .timerControl
    else if a.toNat = 0x008 then .csmNts
    else if a.toNat = 0x0BD then .rhythm
    else if a.toNat = 0x104 then .connection
    else if a.toNat = 0x105 then .newMode
    else
      match x / 16 with
      | 10 => chClass .chA0 b (x % 16)
      | 11 => chClass .chB0 b (x % 16)
      | 12 => chClass .chC0 b (x % 16)
      | _ => .unassigned

end Sys2Proof
end

