-- ==== Sys2Proof/Config.lean ====
section
/-! DEFINITION. The implementation parameters of 00_scope R7: the constants the spec fixes, and the four it leaves
open as a record whose defaults are the values shown there. -/

namespace Sys2Proof

/-- The parameters that 92_eei_decisions marks OPEN (D8, D25, D27, D35), with the defaults of 00_scope R7.
DESIGN CHOICE (log entry 2, safe): the record is constant data in `State`, so a statement about every state is a
statement about every choice of them. -/
structure Params where
  /-- MIX_CAP, the frames one mixer channel holds (D27). -/
  mixCap : Nat := 65536
  /-- OUT_GAIN_PCT, the output gain in percent (D25). -/
  outGainPct : Nat := 100
  /-- NORMALIZE_RESET, the mixer's normalisation flag after reset (D35). -/
  normalizeReset : Bool := false
  /-- PERC_NO_PHASE_RESET, whether a rhythm key-on keeps the phase (D8). -/
  percNoPhaseReset : Bool := false
  deriving DecidableEq, Repr

namespace Config

/-- FS, the output sample rate in Hz. -/
def sampleRate : Nat := 44100

/-- NATIVE_RATE in Hz, used only to scale phase increments (92_eei_decisions D11). -/
def nativeRate : Nat := 49716

/-- ENV_MAX, the attenuation of silence (43_operator_engine R181). -/
def envMax : Nat := 511

/-- Volume 1.0, and pan full right, in Q15 (10_state R37). -/
def q15One : Nat := 32768

end Config

end Sys2Proof
end

