-- ==== Sys2Proof/Syntax.lean ====
section
/-! DEFINITION. The transactions a host issues (30_encoding), one constructor per row of `opcode_table.json`.
Register numbers are decoded: an operator register write names its operator and a channel register write its channel
(30_encoding R88, R90). The fields a format marks "ignored" (R82) are no part of an instruction. -/

namespace Sys2Proof

/-- One stereo frame of two int16, left and right (30_encoding R81, 20_memory R60). -/
structure Frame where
  l : Pcm
  r : Pcm
  deriving DecidableEq, Repr

/-- One transaction. -/
inductive Instr where
  /-- `WR_OP20`: AM, VIB, EGT, KSR, MULT of an operator (R110). -/
  | wrOp20 (o : Fin 36) (val : Byte)
  /-- `WR_OP40`: KSL, TL of an operator (R112). -/
  | wrOp40 (o : Fin 36) (val : Byte)
  /-- `WR_OP60`: AR, DR of an operator (R114). -/
  | wrOp60 (o : Fin 36) (val : Byte)
  /-- `WR_OP80`: SL, RR of an operator (R116). -/
  | wrOp80 (o : Fin 36) (val : Byte)
  /-- `WR_OPE0`: WS of an operator (R118). -/
  | wrOpE0 (o : Fin 36) (val : Byte)
  /-- `WR_CHA0`: F-number low of a channel (R130). -/
  | wrChA0 (ch : Fin 18) (val : Byte)
  /-- `WR_CHB0`: KON, BLOCK, F-number high of a channel (R132). -/
  | wrChB0 (ch : Fin 18) (val : Byte)
  /-- `WR_CHC0`: output enables, FB, CNT of a channel (R134). -/
  | wrChC0 (ch : Fin 18) (val : Byte)
  /-- `WR_01`: waveform select enable (R150). -/
  | wr01 (val : Byte)
  /-- `WR_02`: timer 1 count, stored only (R152). -/
  | wr02 (val : Byte)
  /-- `WR_03`: timer 2 count, stored only (R152). -/
  | wr03 (val : Byte)
  /-- `WR_04`: timer control, stored only (R152). -/
  | wr04 (val : Byte)
  /-- `WR_08`: CSM, NTS (R154). -/
  | wr08 (val : Byte)
  /-- `WR_BD`: depths and rhythm (R156). -/
  | wrBD (val : Byte)
  /-- `WR_104`: 4-operator enables (R160). -/
  | wr104 (val : Byte)
  /-- `WR_105`: OPL3 mode (R162). -/
  | wr105 (val : Byte)
  /-- `WR_UNASSIGNED`: any other register address, stored only (R166). -/
  | wrUnassigned (a : BitVec 9) (val : Byte)
  /-- `GEN`: generate `n` frames into the host's buffer (R280). -/
  | gen (n : Nat)
  /-- `RESET` (R370). -/
  | reset
  /-- `CVT`: convert the host's buffer to 16-bit PCM (R284). -/
  | cvt
  /-- `MIX_ALLOC` (R288). -/
  | mixAlloc
  /-- `MIX_RELEASE` (R289). -/
  | mixRelease (i : Fin 64)
  /-- `MIX_WRITE`: frames for a mixer channel (R290). -/
  | mixWrite (i : Fin 64) (frames : List Frame)
  /-- `MIX_VOL`: a 17-bit signed volume (R292). -/
  | mixVol (i : Fin 64) (v : Int)
  /-- `MIX_PAN`: a 17-bit signed pan (R293). -/
  | mixPan (i : Fin 64) (p : Int)
  /-- `MIX_NORM` (R294). -/
  | mixNorm (b : Bool)
  /-- `MIX` (R295). -/
  | mix
  deriving DecidableEq, Repr

end Sys2Proof
end

