-- ==== Sys2Proof/Machine/State.lean ====
section
/-! DEFINITION. Every piece of state the spec gives the machine (10_state R20 to R40), as plain data, and its reset
values. The block is `chip` and `mixer`; `params` are the spec's OPEN parameters; `host` is the host's side of the
interface. -/

namespace Sys2Proof.Machine

/-- The register space: (address, byte) cells with addresses rising, an unlisted address reading 0x00, its reset value
(10_state R21, R24, R40; log entry 11). -/
abbrev RegFile := List Host.Cell

/-- The five envelope states (10_state R30). -/
inductive Env where
  | off
  | release
  | sustain
  | decay
  | attack
  deriving DecidableEq, Repr

/-- The dynamic state of an operator (10_state R30, R31, R32). -/
structure OpState where
  /-- The envelope state. -/
  env : Env
  /-- The attenuation, 0 (full volume) to 511 (silence). -/
  att : Nat
  /-- The phase accumulator, mod 2^32. -/
  acc : BitVec 32
  deriving DecidableEq, Repr

/-- The feedback history of a channel: the last and the second-last output of its first operator (10_state R33). -/
structure Feedback where
  fb1 : Int
  fb2 : Int
  deriving DecidableEq, Repr

/-- The chip: registers, operators, channels, LFO and noise (10_state R21 to R36). -/
structure Chip where
  regs : RegFile
  ops : Vector OpState 36
  fb : Vector Feedback 18
  sampleCounter : BitVec 32
  tremPos : Nat
  vibPos : Nat
  noise : BitVec 23
  deriving DecidableEq, Repr

/-- A mixer channel (10_state R37). `buf` is the FIFO's storage from slot 0 up; a slot beyond its end is one that was
never written (log entry 8). -/
structure MixChan where
  allocated : Bool
  vol : Nat
  pan : Int
  buf : List Frame
  wr : Nat
  rd : Nat
  deriving DecidableEq, Repr

/-- The Virtual Mixer (10_state R37, R38). -/
structure Mixer where
  chans : Vector MixChan 64
  normalize : Bool
  deriving DecidableEq, Repr

/-- One stereo frame of the host's int32 accumulation buffer: words `hb[2i]` and `hb[2i+1]` (46_generate R281). -/
structure AccFrame where
  l : Word
  r : Word
  deriving DecidableEq, Repr

/-- What the host has yet to do: issue a word of its transaction stream, or hand over an accumulation buffer, which is
"the host's memory, passed with the transaction" (30_encoding R81). -/
inductive HostItem where
  | word (w : Word)
  | buffer (frames : List AccFrame)
  deriving DecidableEq, Repr

/-- What a transaction gives back to the host (00_scope R9). -/
inductive Answer where
  /-- `malloc`: an index, or NONE (R288). -/
  | index (i : Option (Fin 64))
  /-- `cvt` and `mix`: frames of 16-bit PCM (R284, R295). -/
  | pcm (frames : List Frame)
  /-- `gen`: the frames of the host's buffer it added to, as it left them (R280). -/
  | accumulated (frames : List AccFrame)
  deriving DecidableEq, Repr

/-- The host's side of the interface (10_state R20, 20_memory R60): no block state. -/
structure HostSide where
  /-- The transaction stream still to come (log entry 1). -/
  pending : List HostItem
  /-- The accumulation buffer (log entry 6). -/
  buf : List AccFrame
  /-- The answers so far, oldest first (log entry 10). -/
  out : List Answer
  deriving DecidableEq, Repr

/-- The whole machine. -/
structure State where
  params : Params
  chip : Chip
  mixer : Mixer
  host : HostSide
  deriving DecidableEq, Repr

/-- No step faults: the block raises no exception and has no trap mechanism (60_exceptions R340; log entry 12). -/
inductive Fault where
  deriving DecidableEq, Repr

/-- Why a step gives no next state. -/
inductive Refusal where
  /-- Raised by `exec` for an instruction without a meaning in this model. Safe. -/
  | notModelled (mnemonic : String)
  /-- Raised by `step` for a command word with a code 1011 to 1111, which spells no transaction (30_encoding R82,
  60_exceptions R342). Safe: it errs toward unprovable, as R342 says. -/
  | unassignedCommand (cmd : Nat)
  /-- Raised by `step` for a `MIX_WRITE` whose count or frame words the stream does not hold (log entry 4). Safe. -/
  | truncatedTransaction
  deriving DecidableEq, Repr

/-- An operator at reset (10_state R40). -/
def OpState.reset : OpState := ⟨.off, Config.envMax, 0⟩

/-- The chip at reset (10_state R40). -/
def Chip.reset : Chip where
  regs := []
  ops := Vector.replicate 36 OpState.reset
  fb := Vector.replicate 18 ⟨0, 0⟩
  sampleCounter := 0
  tremPos := 0
  vibPos := 0
  noise := 1

/-- A mixer channel at reset (10_state R40). DESIGN CHOICE (log entry 8, safe): R37, R40 and R370 give the cursors and say
"empty", and nothing of the storage `buf`; here it holds no frame, so the `reset` transaction drops the stored frames. -/
def MixChan.reset : MixChan where
  allocated := false
  vol := Config.q15One
  pan := 0
  buf := []
  wr := 0
  rd := 0

/-- The mixer at reset (10_state R40): `normalize` is NORMALIZE_RESET. -/
def Mixer.reset (p : Params) : Mixer where
  chans := Vector.replicate 64 MixChan.reset
  normalize := p.normalizeReset

/-- The machine right after reset (10_state R40, 70_reset R370, R371), with the default parameters and a host that has
issued nothing yet (log entries 1, 2, 6, 10). -/
def State.reset : State where
  params := {}
  chip := Chip.reset
  mixer := Mixer.reset {}
  host := ⟨[], [], []⟩

/-- The state with another chip. -/
def State.withChip (s : State) (c : Chip) : State := { s with chip := c }

/-- The state with another mixer. -/
def State.withMixer (s : State) (m : Mixer) : State := { s with mixer := m }

/-- The state with one mixer channel replaced. -/
def State.withMixChan (s : State) (i : Fin 64) (ch : MixChan) : State :=
  { s with mixer := { s.mixer with chans := s.mixer.chans.set i ch } }

/-- The state after an answer to the host. -/
def State.answer (s : State) (a : Answer) : State := { s with host := { s.host with out := s.host.out ++ [a] } }

end Sys2Proof.Machine
end

