-- ==== Sys2Proof/Machine/RegFile.lean ====
section
/-! DEFINITION. The register space as memory (10_state R21, R24): reading one byte, writing one byte, and the canonical
form that makes equal contents equal data. -/

namespace Sys2Proof.Machine

/-- What an unlisted address reads as: the reset value of every register byte (10_state R40). -/
def RegFile.blank : Byte := 0

/-- `regs[a]` (00_scope R11). -/
def RegFile.read : RegFile → Nat → Byte
  | [], _ => RegFile.blank
  | (b, v) :: rest, a => if a < b then RegFile.blank else if a = b then v else RegFile.read rest a

/-- The cell of a written byte, or none where the byte is what an unlisted address reads as. -/
def RegFile.cell (a : Nat) (v : Byte) : RegFile := if v = RegFile.blank then [] else [(a, v)]

/-- `regs[a] <- v` (00_scope R11), keeping the addresses rising and listing no blank byte. -/
def RegFile.write : RegFile → Nat → Byte → RegFile
  | [], a, v => RegFile.cell a v
  | (b, x) :: rest, a, v =>
    if a < b then RegFile.cell a v ++ (b, x) :: rest
    else if a = b then RegFile.cell a v ++ rest.dropWhile (fun c => c.1 ≤ a)
    else (b, x) :: RegFile.write rest a v

/-- The canonical form from address `lo` on: addresses rising, below 512, no blank byte listed. -/
def RegFile.wfFrom : Nat → RegFile → Bool
  | _, [] => true
  | lo, (a, v) :: rest => decide (lo ≤ a) && decide (a < 512) && v != RegFile.blank && RegFile.wfFrom (a + 1) rest

/-- The canonical form of the register space. -/
def RegFile.wf (m : RegFile) : Bool := RegFile.wfFrom 0 m

end Sys2Proof.Machine
end

