-- ==== Sys2Proof/Machine/Flags.lean ====
section
/-! DEFINITION. The mode and flag bits of the global registers (10_state R27, 42_global_regs R150 to R163) and the
4-operator pairs they enable (44_channel_synthesis R232). The block has no condition flags (10_state R23). -/

namespace Sys2Proof.Machine

/-- WSE, waveform select enable (R150). -/
def wse (m : RegFile) : Bool := bitOf (m.read 0x001) 5

/-- NTS, note select (R154). -/
def nts (m : RegFile) : Bool := bitOf (m.read 0x008) 6

/-- DAM, tremolo depth (R157). -/
def dam (m : RegFile) : Bool := bitOf (m.read 0x0BD) 7

/-- DVB, vibrato depth (R157). -/
def dvb (m : RegFile) : Bool := bitOf (m.read 0x0BD) 6

/-- RHY, rhythm mode (R158). -/
def rhy (m : RegFile) : Bool := bitOf (m.read 0x0BD) 5

/-- NEW, OPL3 mode (R162). -/
def newMode (m : RegFile) : Bool := bitOf (m.read 0x105) 0

/-- The first channel, A, of 4-operator pair `k` (R232). -/
def pairFirst (k : Fin 6) : Fin 18 := ⟨k.val % 3 + 9 * (k.val / 3), by omega⟩

/-- The second channel, B, of 4-operator pair `k` (R232). -/
def pairSecond (k : Fin 6) : Fin 18 := ⟨k.val % 3 + 9 * (k.val / 3) + 3, by omega⟩

/-- Pair `k` is active: NEW = 1 and bit `k` of CONN is 1 (R160, R232). -/
def pairActive (m : RegFile) (k : Fin 6) : Bool := newMode m && bitOf (m.read 0x104) k.val

/-- The active pair whose first channel is `ch`. -/
def activeFirst (m : RegFile) (ch : Fin 18) : Option (Fin 6) :=
  (List.finRange 6).find? (fun k => pairFirst k == ch && pairActive m k)

/-- The active pair whose second channel is `ch`. -/
def activeSecond (m : RegFile) (ch : Fin 18) : Option (Fin 6) :=
  (List.finRange 6).find? (fun k => pairSecond k == ch && pairActive m k)

/-- The channel is synthesised: all 18 with NEW = 1, channels 0 to 8 with NEW = 0 (R163). -/
def synthesised (m : RegFile) (ch : Fin 18) : Bool := newMode m || decide (ch.val < 9)

end Sys2Proof.Machine
end

