-- ==== Sys2Proof/Machine/Operands.lean ====
section
/-! DEFINITION. The views of the register file that operators and channels use (10_state R22, R25, R26;
30_encoding R92; 40_operator_regs; 41_channel_regs), each evaluated when it is used. -/

namespace Sys2Proof.Machine

/-- `opreg(o, base)` (R92). -/
def opreg (m : RegFile) (o : Fin 36) (base : Nat) : Byte := m.read (opAddr base o)

/-- `chreg(ch, base)` (R92). -/
def chreg (m : RegFile) (ch : Fin 18) (base : Nat) : Byte := m.read (chAddr base ch)

/-- AM, tremolo enable (R110). -/
def am (m : RegFile) (o : Fin 36) : Bool := bitOf (opreg m o 0x20) 7

/-- VIB, vibrato enable (R110). -/
def vib (m : RegFile) (o : Fin 36) : Bool := bitOf (opreg m o 0x20) 6

/-- EGT, sustain enable (R110). -/
def egt (m : RegFile) (o : Fin 36) : Bool := bitOf (opreg m o 0x20) 5

/-- KSR, key scale rate (R110). -/
def ksr (m : RegFile) (o : Fin 36) : Bool := bitOf (opreg m o 0x20) 4

/-- MULT, the frequency multiple (R110). -/
def mult (m : RegFile) (o : Fin 36) : Nat := bitsOf (opreg m o 0x20).toNat 3 0

/-- KSL, the key-scale level (R112). -/
def ksl (m : RegFile) (o : Fin 36) : Nat := bitsOf (opreg m o 0x40).toNat 7 6

/-- TL, the total level (R112). -/
def tl (m : RegFile) (o : Fin 36) : Nat := bitsOf (opreg m o 0x40).toNat 5 0

/-- AR, the attack rate (R114). -/
def ar (m : RegFile) (o : Fin 36) : Nat := bitsOf (opreg m o 0x60).toNat 7 4

/-- DR, the decay rate (R114). -/
def dr (m : RegFile) (o : Fin 36) : Nat := bitsOf (opreg m o 0x60).toNat 3 0

/-- SL, the sustain level (R116). -/
def sl (m : RegFile) (o : Fin 36) : Nat := bitsOf (opreg m o 0x80).toNat 7 4

/-- RR, the release rate (R116). -/
def rr (m : RegFile) (o : Fin 36) : Nat := bitsOf (opreg m o 0x80).toNat 3 0

/-- `slAtt(SL)` (R117). -/
def slAtt (level : Nat) : Nat := if level = 15 then 496 else 16 * level

/-- `wsel(o)`, the masked waveform (R118). -/
def wsel (m : RegFile) (o : Fin 36) : Nat :=
  if newMode m then bitsOf (opreg m o 0xE0).toNat 2 0
  else if wse m then bitsOf (opreg m o 0xE0).toNat 1 0
  else 0

/-- `fch(ch)`, the channel whose frequency and key fields `ch` uses (R129). -/
def freqChan (m : RegFile) (ch : Fin 18) : Fin 18 :=
  match activeSecond m ch with
  | some k => pairFirst k
  | none => ch

/-- `fnum(ch)` (R129). -/
def fnum (m : RegFile) (ch : Fin 18) : Nat :=
  (chreg m (freqChan m ch) 0xA0).toNat + bitsOf (chreg m (freqChan m ch) 0xB0).toNat 1 0 * 2 ^ 8

/-- `block(ch)` (R129). -/
def block (m : RegFile) (ch : Fin 18) : Nat := bitsOf (chreg m (freqChan m ch) 0xB0).toNat 4 2

/-- `kon(ch)` (R129). -/
def kon (m : RegFile) (ch : Fin 18) : Bool := bitOf (chreg m (freqChan m ch) 0xB0) 5

/-- FB, the feedback amount (R134, R135). -/
def fbAmount (m : RegFile) (ch : Fin 18) : Nat := bitsOf (chreg m ch 0xC0).toNat 3 1

/-- CNT, the connection (R134, R136). -/
def cnt (m : RegFile) (ch : Fin 18) : Bool := bitOf (chreg m ch 0xC0) 0

/-- The channel is routed to the left output: CHA with NEW = 1, always with NEW = 0 (R246). -/
def routesLeft (m : RegFile) (ch : Fin 18) : Bool := !newMode m || bitOf (chreg m ch 0xC0) 4

/-- The channel is routed to the right output: CHB with NEW = 1, always with NEW = 0 (R246). -/
def routesRight (m : RegFile) (ch : Fin 18) : Bool := !newMode m || bitOf (chreg m ch 0xC0) 5

/-- `rkey(o)`, the rhythm key bit of an operator (44_channel_synthesis R236). -/
def rhythmKey (m : RegFile) (o : Fin 36) : Bool :=
  rhy m &&
    match o.val with
    | 12 | 13 => bitOf (m.read 0x0BD) 4
    | 14 => bitOf (m.read 0x0BD) 0
    | 15 => bitOf (m.read 0x0BD) 3
    | 16 => bitOf (m.read 0x0BD) 2
    | 17 => bitOf (m.read 0x0BD) 1
    | _ => false

/-- `keyLevel(o)` (R236). -/
def keyLevel (m : RegFile) (o : Fin 36) : Bool := kon m (chanOf o) || rhythmKey m o

end Sys2Proof.Machine
end

