-- ==== Sys2Proof/Machine/Ops.lean ====
section
/-! DEFINITION. The shared operations of the transactions: a register write with its key events
(30_encoding R86, 44_channel_synthesis R237 to R239), a mixer channel's FIFO and levels (46_generate_and_mixer), and the
conversion to PCM. No operation takes an exception: the block raises none and has no trap entry and no return
(60_exceptions R340). -/

namespace Sys2Proof.Machine

/-- keyOn(o) (R238), `m` the registers as they stand when the event is applied, after the write that raised it (R22,
R237). -/
def keyOn (p : Params) (m : RegFile) (o : Fin 36) (op : OpState) : OpState :=
  { op with
    env := .attack
    acc := if p.percNoPhaseReset && rhy m && decide (12 ≤ o.val ∧ o.val ≤ 17) then op.acc else 0 }

/-- keyOff(o) (R239). -/
def keyOff (op : OpState) : OpState := { op with env := .release }

/-- The key-event check of one operator, from the registers `m` before a write and `m'` after it (R237). -/
def keyEvent (p : Params) (m m' : RegFile) (o : Fin 36) (op : OpState) : OpState :=
  match keyLevel m o, keyLevel m' o with
  | false, true => keyOn p m' o op
  | true, false => keyOff op
  | _, _ => op

/-- A register write: store the byte, then the key-event check of every operator (R86, R237). -/
def Chip.writeReg (p : Params) (c : Chip) (a : Nat) (v : Byte) : Chip :=
  let m' := c.regs.write a v
  { c with regs := m', ops := tabulate 36 (fun o => keyEvent p c.regs m' o c.ops[o]) }

/-- The register write transaction's effect on the machine. -/
def writeRegister (a : Nat) (v : Byte) (s : State) : Host.Outcome State Fault Refusal :=
  .next (s.withChip (s.chip.writeReg s.params a v))

/-- A FIFO slot (R295); one that was never written holds the zero frame (log entry 8). -/
def fifoAt (buf : List Frame) (j : Nat) : Frame := buf.getD j ⟨0, 0⟩

/-- `buf[at + j] <- frames[j]` for every j (R290). -/
def fifoStore : List Frame → Nat → List Frame → List Frame
  | buf, 0, frames => frames ++ buf.drop frames.length
  | [], at' + 1, frames => ⟨0, 0⟩ :: fifoStore [] at' frames
  | b :: buf, at' + 1, frames => b :: fifoStore buf at' frames

/-- An empty FIFO: both cursors 0 (R288, R289, R298); the storage is not written (R288, R289, R295; log entry 8). -/
def MixChan.emptied (ch : MixChan) : MixChan := { ch with wr := 0, rd := 0 }

/-- The unread frames of a channel (R295). -/
def MixChan.unread (ch : MixChan) : Nat := ch.wr - ch.rd

/-- `panL(p)`, Q15 (R296). -/
def panL (p : Int) : Int := min (Config.q15One : Int) (Config.q15One - p)

/-- `panR(p)`, Q15 (R296). -/
def panR (p : Int) : Int := min (Config.q15One : Int) (Config.q15One + p)

/-- A channel's contribution to the left sum of frame `k` of a pass (R295). -/
def mixLeft (k : Nat) (ch : MixChan) : Int :=
  if ch.rd + k < ch.wr then (fifoAt ch.buf (ch.rd + k)).l.toInt * ch.vol * panL ch.pan else 0

/-- A channel's contribution to the right sum of frame `k` of a pass (R295). -/
def mixRight (k : Nat) (ch : MixChan) : Int :=
  if ch.rd + k < ch.wr then (fifoAt ch.buf (ch.rd + k)).r.toInt * ch.vol * panR ch.pan else 0

/-- The allocated channels, `A` (R295). -/
def Mixer.active (m : Mixer) : List MixChan := m.chans.toList.filter (fun ch => ch.allocated)

/-- `n`, the frames a pass returns: the largest unread count, none without an allocated channel (R295). -/
def Mixer.passLength (m : Mixer) : Nat := (m.active.map MixChan.unread).foldr max 0

/-- `d`, the divisor of a pass (R295). -/
def Mixer.divisor (m : Mixer) : Nat := if m.normalize then m.active.length else 1

/-- `out[k]` of a pass: the sums divided once, rounding down, then saturated (R295). -/
def Mixer.mixedFrame (m : Mixer) (k : Nat) : Frame :=
  ⟨toPcm (clamp16 ((m.active.map (mixLeft k)).sum / ((m.divisor : Int) * 2 ^ 30))),
    toPcm (clamp16 ((m.active.map (mixRight k)).sum / ((m.divisor : Int) * 2 ^ 30)))⟩

/-- The frames a pass returns (R295). -/
def Mixer.mixed (m : Mixer) : List Frame := (List.range m.passLength).map m.mixedFrame

/-- The mixer after a pass: every allocated channel empty (R295, R298). -/
def Mixer.drained (m : Mixer) : Mixer :=
  { m with chans := tabulate 64 (fun i => if m.chans[i].allocated then m.chans[i].emptied else m.chans[i]) }

/-- The lowest free index of the pool (R288). -/
def Mixer.firstFree (m : Mixer) : Option (Fin 64) := (List.finRange 64).find? (fun i => !m.chans[i].allocated)

/-- The output stage's conversion of one int32 (R284). -/
def convert (gain : Nat) (x : Word) : Pcm := toPcm (clamp16 (x.toInt * gain / 100))

end Sys2Proof.Machine
end

