-- ==== Sys2Proof/Machine/ChannelRegs.lean ====
section
/-! DEFINITION. The channel register writes (41_channel_regs R129 to R136). -/

namespace Sys2Proof.Machine

/-- `WR_CHA0` (R130). -/
def execWrChA0 (ch : Fin 18) (val : Byte) (s : State) : Host.Outcome State Fault Refusal :=
  writeRegister (chAddr 0xA0 ch) val s

/-- `WR_CHB0` (R132). -/
def execWrChB0 (ch : Fin 18) (val : Byte) (s : State) : Host.Outcome State Fault Refusal :=
  writeRegister (chAddr 0xB0 ch) val s

/-- `WR_CHC0` (R134). -/
def execWrChC0 (ch : Fin 18) (val : Byte) (s : State) : Host.Outcome State Fault Refusal :=
  writeRegister (chAddr 0xC0 ch) val s

end Sys2Proof.Machine
end

