-- ==== Sys2Proof/Machine/Lfo.lean ====
section
/-! DEFINITION. The global LFO and the noise generator (45_lfo_noise R260 to R267). -/

namespace Sys2Proof.Machine

/-- `trem`, the tremolo value at position `pos` (R262). -/
def tremolo (m : RegFile) (pos : Nat) : Nat :=
  let tri := if pos < 105 then pos else 210 - pos
  if dam m then tri / 4 else tri / 16

/-- `vibOffset(fnum, vibPos, DVB)` (R264). -/
def vibOffset (f pos : Nat) (deep : Bool) : Int :=
  let d := bitsOf f 9 7
  let d := if pos % 4 = 0 then 0 else if pos % 2 = 1 then d / 2 else d
  let d := if deep then d else d / 2
  if pos / 4 % 2 = 1 then -(d : Int) else d

/-- The next value of the noise register (R266). -/
def nextNoise (n : BitVec 23) : BitVec 23 :=
  let nbit := n.getLsbD 14 ^^ n.getLsbD 0
  (n >>> 1) ||| (if nbit then 0x400000 else 0)

/-- The last sub-step of a sample: counter, tremolo position, vibrato position, noise (R260, R261, R263, R266). -/
def Chip.advance (c : Chip) : Chip :=
  let n := c.sampleCounter + 1
  { c with
    sampleCounter := n
    tremPos := if n.toNat % 64 = 0 then (c.tremPos + 1) % 210 else c.tremPos
    vibPos := if n.toNat % 1024 = 0 then (c.vibPos + 1) % 8 else c.vibPos
    noise := nextNoise c.noise }

end Sys2Proof.Machine
end

