-- ==== Sys2Proof/Machine/Phase.lean ====
section
/-! DEFINITION. The phase generator (43_operator_engine R195 to R199) and the rhythm phases that replace the phase index
of three operators (44_channel_synthesis R245). -/

namespace Sys2Proof.Machine

/-- `pidx(o)`, the phase index of an operator (R195). -/
def phaseIndex (op : OpState) : Nat := bitsOf op.acc.toNat 31 22

/-- `vibDelta(o)` at vibrato position `pos` (R197). -/
def vibDelta (m : RegFile) (pos : Nat) (o : Fin 36) : Int :=
  if vib m o then vibOffset (fnum m (chanOf o)) pos (dvb m) else 0

/-- `native`, the increment in 19-bit phase units per native-rate sample, of frequency number `f` (R196). -/
def nativeInc (f : Int) (blk mlt : Nat) : Int := asr (asr (f * 2 ^ blk) 1 * (entry multTable mlt : Int)) 1

/-- The increment per output sample, before reduction mod 2^32 (R196). -/
def scaledInc (native : Int) : Int := native * 2 ^ 13 * (Config.nativeRate : Int) / (Config.sampleRate : Int)

/-- `inc(o)` at vibrato position `pos` (R196). -/
def phaseInc (m : RegFile) (pos : Nat) (o : Fin 36) : BitVec 32 :=
  BitVec.ofInt 32
    (scaledInc (nativeInc ((fnum m (chanOf o) : Int) + vibDelta m pos o) (block m (chanOf o)) (mult m o)))

/-- Phase step (R198). -/
def stepPhase (m : RegFile) (pos : Nat) (o : Fin 36) (op : OpState) : OpState :=
  { op with acc := op.acc + phaseInc m pos o }

/-- `x` of the rhythm phases, from the phase indices `h` of operator 14 and `t` of operator 17 (R245). -/
def rhythmX (h t : Nat) : Bool :=
  (h.testBit 2 ^^ h.testBit 7) || (h.testBit 3 ^^ t.testBit 5) || (t.testBit 3 ^^ t.testBit 5)

/-- `p0_HH` (R245). -/
def hatPhase (h t : Nat) (nb : Bool) : Nat := (rhythmX h t).toNat * 2 ^ 9 + if rhythmX h t ^^ nb then 0xD0 else 0x34

/-- `p0_SD` (R245). -/
def snarePhase (h : Nat) (nb : Bool) : Nat := (h.testBit 8).toNat * 2 ^ 9 + (h.testBit 8 ^^ nb).toNat * 2 ^ 8

/-- `p0_TC` (R245). -/
def cymbalPhase (h t : Nat) : Nat := (rhythmX h t).toNat * 2 ^ 9 + 0x80

/-- The phase index operator `o` is looked up at in this sample: `pidx(o)`, but for operators 14, 15 and 17 in rhythm
mode the replacement of R245. -/
def lookupPhase (c : Chip) (o : Fin 36) : Nat :=
  if rhy c.regs then
    match o.val with
    | 14 => hatPhase (phaseIndex c.ops[14]) (phaseIndex c.ops[17]) (c.noise.getLsbD 0)
    | 15 => snarePhase (phaseIndex c.ops[14]) (c.noise.getLsbD 0)
    | 17 => cymbalPhase (phaseIndex c.ops[14]) (phaseIndex c.ops[17])
    | _ => phaseIndex c.ops[o]
  else phaseIndex c.ops[o]

end Sys2Proof.Machine
end

