-- ==== Sys2Proof/Machine/Waveform.lean ====
section
/-! DEFINITION. Attenuation and waveform lookup (43_operator_engine R203 to R212). -/

namespace Sys2Proof.Machine

/-- `kslBase(ch)`; the difference is cut at 0 (R203). -/
def kslBase (m : RegFile) (ch : Fin 18) : Nat := entry kslRom (fnum m ch / 2 ^ 6) * 4 - (8 - block m ch) * 32

/-- `kslAtt(o)` (R113, R203). -/
def kslAtt (m : RegFile) (o : Fin 36) : Nat := kslBase m (chanOf o) / 2 ^ entry kslShift (ksl m o)

/-- `totAtt(o)` for an operator at attenuation `att` with the tremolo at `pos` (R204). -/
def totalAtt (m : RegFile) (pos : Nat) (o : Fin 36) (att : Nat) : Nat :=
  min Config.envMax (att + 4 * tl m o + kslAtt m o + if am m o then tremolo m pos else 0)

/-- `expv(L)` (R205). -/
def expValue (level : Nat) : Nat :=
  let l := min level 0x1FFF
  expEntry (l % 2 ^ 8) * 2 / 2 ^ (l / 2 ^ 8)

/-- `Z`, a level that gives 0 (R211). -/
def silentLevel : Nat := 0x1000

/-- `sq(p)`, the quarter-wave fold (R211). -/
def quarterFold (p : Nat) : Nat := if p.testBit 8 then logsin (255 - p % 256) else logsin (p % 256)

/-- `dq(p)`, the double-speed fold (R211). -/
def doubleFold (p : Nat) : Nat :=
  if p.testBit 7 then logsin ((255 - p % 256) * 2 % 256) else logsin (p * 2 % 256)

/-- The log-domain level of waveform `ws` at phase `p` (R211). -/
def waveLevel (ws p : Nat) : Nat :=
  match ws with
  | 0 => quarterFold p
  | 1 => if p.testBit 9 then silentLevel else quarterFold p
  | 2 => quarterFold p
  | 3 => if p.testBit 8 then silentLevel else logsin (p % 256)
  | 4 => if p.testBit 9 then silentLevel else doubleFold p
  | 5 => if p.testBit 9 then silentLevel else doubleFold p
  | 6 => 0
  | _ => (if p.testBit 9 then 1023 - p else p) * 8

/-- Whether waveform `ws` is negative at phase `p` (R211). -/
def waveNegative (ws p : Nat) : Bool :=
  match ws with
  | 0 | 6 | 7 => p.testBit 9
  | 4 => !p.testBit 9 && p.testBit 8
  | _ => false

/-- `wave(ws, p, A)` (R211). -/
def wave (ws p att : Nat) : Int :=
  let v : Int := expValue (waveLevel ws p + att * 8)
  if waveNegative ws p then -v else v

/-- `out(o)` with modulation `mod`, from the state at the start of the sample (R210). -/
def opOut (c : Chip) (o : Fin 36) (mod : Int) : Int :=
  wave (wsel c.regs o) (((lookupPhase c o : Int) + mod) % 1024).toNat (totalAtt c.regs c.tremPos o c.ops[o].att)

end Sys2Proof.Machine
end

