-- ==== Sys2Proof/Machine/Channel.lean ====
section
/-! DEFINITION. The synthesis units and what each outputs in one sample (44_channel_synthesis R230 to R248). -/

namespace Sys2Proof.Machine

/-- A synthesis unit (R230). -/
inductive SynthUnit where
  /-- A 2-operator channel (R240). -/
  | twoOp (ch : Fin 18)
  /-- An active 4-operator pair (R243). -/
  | fourOp (k : Fin 6)
  /-- The bass drum, channel 6 (R244). -/
  | bassDrum
  /-- Hi-hat and snare, channel 7 (R245). -/
  | hatSnare
  /-- Tom-tom and top cymbal, channel 8 (R245). -/
  | tomCymbal
  deriving DecidableEq, Repr

/-- The unit that a synthesised channel leads, if it leads one: the second channel of an active pair leads none
(R231). -/
def unitOf (m : RegFile) (ch : Fin 18) : Option SynthUnit :=
  match activeFirst m ch, activeSecond m ch with
  | some k, _ => some (.fourOp k)
  | none, some _ => none
  | none, none =>
    if rhy m then
      match ch.val with
      | 6 => some .bassDrum
      | 7 => some .hatSnare
      | 8 => some .tomCymbal
      | _ => some (.twoOp ch)
    else some (.twoOp ch)

/-- The units of a sample (R230). -/
def unitsOf (m : RegFile) : List SynthUnit :=
  ((List.finRange 18).filter (fun ch => synthesised m ch)).filterMap (unitOf m)

/-- The channel whose output enables route a unit (R240, R243, R244, R245). -/
def panChan : SynthUnit → Fin 18
  | .twoOp ch => ch
  | .fourOp k => pairFirst k
  | .bassDrum => 6
  | .hatSnare => 7
  | .tomCymbal => 8

/-- `fbmod(ch)` (R241). -/
def fbMod (c : Chip) (ch : Fin 18) : Int :=
  if fbAmount c.regs ch = 0 then 0 else asr (c.fb[ch].fb1 + c.fb[ch].fb2) (9 - fbAmount c.regs ch)

/-- The four operator outputs of a pair and the pair's output (R243). -/
structure PairOut where
  v1 : Int
  v2 : Int
  v3 : Int
  v4 : Int
  chOut : Int
  deriving DecidableEq, Repr

/-- The 4-operator unit of pair `k` (R243). -/
def fourOpOut (c : Chip) (k : Fin 6) : PairOut :=
  let a := pairFirst k
  let b := pairSecond k
  let v1 := opOut c (firstOp a) (fbMod c a)
  match cnt c.regs a, cnt c.regs b with
  | false, false =>
    let v2 := opOut c (secondOp a) v1
    let v3 := opOut c (firstOp b) v2
    let v4 := opOut c (secondOp b) v3
    ⟨v1, v2, v3, v4, v4⟩
  | true, false =>
    let v2 := opOut c (secondOp a) 0
    let v3 := opOut c (firstOp b) v2
    let v4 := opOut c (secondOp b) v3
    ⟨v1, v2, v3, v4, v1 + v4⟩
  | false, true =>
    let v2 := opOut c (secondOp a) v1
    let v3 := opOut c (firstOp b) 0
    let v4 := opOut c (secondOp b) v3
    ⟨v1, v2, v3, v4, v2 + v4⟩
  | true, true =>
    let v2 := opOut c (secondOp a) 0
    let v3 := opOut c (firstOp b) v2
    let v4 := opOut c (secondOp b) 0
    ⟨v1, v2, v3, v4, v1 + v3 + v4⟩

/-- `chOut` of a 2-operator channel (R240). -/
def twoOpOut (c : Chip) (ch : Fin 18) : Int :=
  let v1 := opOut c (firstOp ch) (fbMod c ch)
  if cnt c.regs ch then v1 + opOut c (secondOp ch) 0 else opOut c (secondOp ch) v1

/-- `chOut` of the bass drum (R244). -/
def bassDrumOut (c : Chip) : Int :=
  let v1 := opOut c 12 (fbMod c 6)
  2 * (if cnt c.regs 6 then opOut c 13 0 else opOut c 13 v1)

/-- `chOut` of a unit (R240, R243, R244, R245). -/
def unitOut (c : Chip) : SynthUnit → Int
  | .twoOp ch => twoOpOut c ch
  | .fourOp k => (fourOpOut c k).chOut
  | .bassDrum => bassDrumOut c
  | .hatSnare => 2 * (opOut c 14 0 + opOut c 15 0)
  | .tomCymbal => 2 * (opOut c 16 0 + opOut c 17 0)

/-- The output of operator `2*ch` in this sample, which enters the feedback history (R242). -/
def firstOut (c : Chip) (ch : Fin 18) : Int :=
  match activeSecond c.regs ch with
  | some k => (fourOpOut c k).v3
  | none =>
    if rhy c.regs && (ch == 7 || ch == 8) then opOut c (firstOp ch) 0 else opOut c (firstOp ch) (fbMod c ch)

/-- The left sum of a sample (R246, R248). -/
def leftSum (c : Chip) : Int :=
  ((unitsOf c.regs).map (fun u => if routesLeft c.regs (panChan u) then unitOut c u else 0)).sum

/-- The right sum of a sample (R246, R248). -/
def rightSum (c : Chip) : Int :=
  ((unitsOf c.regs).map (fun u => if routesRight c.regs (panChan u) then unitOut c u else 0)).sum

end Sys2Proof.Machine
end

