-- ==== Sys2Proof/Machine/Envelope.lean ====
section
/-! DEFINITION. The envelope generator (43_operator_engine R180 to R192): effective rates, the increment schedule and the
step of each state. -/

namespace Sys2Proof.Machine

/-- `keycode(ch)` (R183). -/
def keycode (m : RegFile) (ch : Fin 18) : Nat :=
  block m ch * 2 + if nts m then bitsOf (fnum m ch) 8 8 else bitsOf (fnum m ch) 9 9

/-- `ks(o)`, the key-scale-rate offset (R183). -/
def ksOffset (m : RegFile) (o : Fin 36) : Nat :=
  if ksr m o then keycode m (chanOf o) else keycode m (chanOf o) / 4

/-- `effRate(o, R)` for a 4-bit rate field `R` (R115, R183). -/
def effRate (m : RegFile) (o : Fin 36) (field : Nat) : Nat :=
  if field = 0 then 0 else min 63 (4 * field + ksOffset m o)

/-- `egInc(r, c)`, the envelope increment of effective rate `r` at counter value `c` (R184). -/
def egInc (r c : Nat) : Nat :=
  let rh := r / 4
  let lo := r % 4
  if rh = 0 then 0
  else if rh ≤ 12 then
    if c % 2 ^ (13 - rh) = 0 then egRow lo (c / 2 ^ (13 - rh) % 8) else 0
  else if rh = 13 then egRow (4 + lo) (c % 8)
  else if rh = 14 then egRow (8 + lo) (c % 8)
  else egRow 12 (c % 8)

/-- The attenuation after an ATTACK step at effective rate `r` with increment `inc` (R186). -/
def attackLevel (r inc att : Nat) : Nat :=
  if att = 0 then 0
  else if 60 ≤ r then 0
  else (max (0 : Int) ((att : Int) + asr ((-(att : Int) - 1) * (inc : Int)) 3)).toNat

/-- ATTACK step (R186). -/
def stepAttack (r c : Nat) (op : OpState) : OpState :=
  let att := attackLevel r (egInc r c) op.att
  { op with att := att, env := if att = 0 then .decay else .attack }

/-- DECAY step towards the sustain attenuation `s` (R187). -/
def stepDecay (r c s : Nat) (op : OpState) : OpState :=
  let att := if op.att < s then min Config.envMax (op.att + egInc r c) else op.att
  { op with att := att, env := if s ≤ att then .sustain else .decay }

/-- The step that raises the attenuation at effective rate `r` and ends in OFF at silence: SUSTAIN without EGT (R189)
and RELEASE (R190). -/
def stepFall (r c : Nat) (op : OpState) : OpState :=
  let att := min Config.envMax (op.att + egInc r c)
  { op with att := att, env := if att = Config.envMax then .off else op.env }

/-- The envelope step of operator `o` at counter value `c` (R186 to R191). -/
def stepEnvelope (m : RegFile) (c : Nat) (o : Fin 36) (op : OpState) : OpState :=
  match op.env with
  | .attack => stepAttack (effRate m o (ar m o)) c op
  | .decay => stepDecay (effRate m o (dr m o)) c (slAtt (sl m o)) op
  | .sustain => if egt m o then op else stepFall (effRate m o (rr m o)) c op
  | .release => stepFall (effRate m o (rr m o)) c op
  | .off => { op with att := Config.envMax }

end Sys2Proof.Machine
end

