-- ==== Sys2Proof/Machine/Sample.lean ====
section
/-! DEFINITION. One sample step, and a run of them into a buffer (46_generate_and_mixer R280 to R282). -/

namespace Sys2Proof.Machine

/-- Sub-step 5: the feedback history of channel `ch` after the sample (R242, R282). -/
def nextFeedback (c : Chip) (ch : Fin 18) : Feedback :=
  if synthesised c.regs ch then ⟨firstOut c ch, c.fb[ch].fb1⟩ else c.fb[ch]

/-- Sub-steps 6 and 7: operator `o` after its envelope and phase steps (R185, R198, R282). -/
def nextOp (c : Chip) (o : Fin 36) : OpState :=
  if synthesised c.regs (chanOf o) then
    stepPhase c.regs c.vibPos o (stepEnvelope c.regs c.sampleCounter.toNat o c.ops[o])
  else c.ops[o]

/-- The chip after one sample step: every new value is computed from the chip before the step (R282). -/
def Chip.nextSample (c : Chip) : Chip :=
  Chip.advance { c with fb := tabulate 18 (nextFeedback c), ops := tabulate 36 (nextOp c) }

/-- One frame of the host's buffer with a sample added (R280). -/
def addSample (c : Chip) (f : AccFrame) : AccFrame :=
  ⟨wrap32s (f.l.toInt + leftSum c), wrap32s (f.r.toInt + rightSum c)⟩

/-- A frame of zeros: what the host's buffer holds where the host supplied no frame (log entry 6). -/
def AccFrame.zero : AccFrame := ⟨0, 0⟩

/-- `n` sample steps, each added to the next frame of the buffer (R280): the chip after them and the whole buffer. -/
def generate : Nat → Chip → List AccFrame → Chip × List AccFrame
  | 0, c, buf => (c, buf)
  | n + 1, c, buf =>
    let rest := generate n c.nextSample buf.tail
    (rest.1, addSample c (buf.headD AccFrame.zero) :: rest.2)

end Sys2Proof.Machine
end

