-- ==== Sys2Proof/Machine/Generate.lean ====
section
/-! DEFINITION. The chip transactions: `gen`, `cvt` and `reset` (46_generate_and_mixer R280, R284; 70_reset R370). -/

namespace Sys2Proof.Machine

/-- `GEN` (R280). -/
def execGen (n : Nat) (s : State) : Host.Outcome State Fault Refusal :=
  let r := generate n s.chip s.host.buf
  .next (({ s with chip := r.1, host := { s.host with buf := r.2 } } : State).answer (.accumulated (r.2.take n)))

/-- `RESET` (R370): every piece of block state takes its reset value, no key event is raised, and the host's side is
untouched. That the FIFOs' storage is emptied too, and not only their cursors, is the model's choice of log entry 8. -/
def execReset (s : State) : Host.Outcome State Fault Refusal :=
  .next { s with chip := Chip.reset, mixer := Mixer.reset s.params }

/-- `CVT` (R284): the host's buffer, converted. -/
def execCvt (s : State) : Host.Outcome State Fault Refusal :=
  .next (s.answer (.pcm (s.host.buf.map (fun f =>
    ⟨convert s.params.outGainPct f.l, convert s.params.outGainPct f.r⟩))))

end Sys2Proof.Machine
end

