-- ==== Sys2Proof/Machine/GlobalRegs.lean ====
section
/-! DEFINITION. The global register writes and the unassigned addresses (42_global_regs R150 to R166). -/

namespace Sys2Proof.Machine

/-- `WR_01` (R150). -/
def execWr01 (val : Byte) (s : State) : Host.Outcome State Fault Refusal := writeRegister 0x001 val s

/-- `WR_02` (R152): stored only. -/
def execWr02 (val : Byte) (s : State) : Host.Outcome State Fault Refusal := writeRegister 0x002 val s

/-- `WR_03` (R152): stored only. -/
def execWr03 (val : Byte) (s : State) : Host.Outcome State Fault Refusal := writeRegister 0x003 val s

/-- `WR_04` (R152): stored only. -/
def execWr04 (val : Byte) (s : State) : Host.Outcome State Fault Refusal := writeRegister 0x004 val s

/-- `WR_08` (R154). -/
def execWr08 (val : Byte) (s : State) : Host.Outcome State Fault Refusal := writeRegister 0x008 val s

/-- `WR_BD` (R156). -/
def execWrBD (val : Byte) (s : State) : Host.Outcome State Fault Refusal := writeRegister 0x0BD val s

/-- `WR_104` (R160). -/
def execWr104 (val : Byte) (s : State) : Host.Outcome State Fault Refusal := writeRegister 0x104 val s

/-- `WR_105` (R162). -/
def execWr105 (val : Byte) (s : State) : Host.Outcome State Fault Refusal := writeRegister 0x105 val s

/-- `WR_UNASSIGNED` (R166): stored only. -/
def execWrUnassigned (a : BitVec 9) (val : Byte) (s : State) : Host.Outcome State Fault Refusal :=
  writeRegister a.toNat val s

end Sys2Proof.Machine
end

