-- ==== Sys2Proof/Machine/OperatorRegs.lean ====
section
/-! DEFINITION. The operator register writes (40_operator_regs R110 to R118). -/

namespace Sys2Proof.Machine

/-- `WR_OP20` (R110). -/
def execWrOp20 (o : Fin 36) (val : Byte) (s : State) : Host.Outcome State Fault Refusal :=
  writeRegister (opAddr 0x20 o) val s

/-- `WR_OP40` (R112). -/
def execWrOp40 (o : Fin 36) (val : Byte) (s : State) : Host.Outcome State Fault Refusal :=
  writeRegister (opAddr 0x40 o) val s

/-- `WR_OP60` (R114). -/
def execWrOp60 (o : Fin 36) (val : Byte) (s : State) : Host.Outcome State Fault Refusal :=
  writeRegister (opAddr 0x60 o) val s

/-- `WR_OP80` (R116). -/
def execWrOp80 (o : Fin 36) (val : Byte) (s : State) : Host.Outcome State Fault Refusal :=
  writeRegister (opAddr 0x80 o) val s

/-- `WR_OPE0` (R118). -/
def execWrOpE0 (o : Fin 36) (val : Byte) (s : State) : Host.Outcome State Fault Refusal :=
  writeRegister (opAddr 0xE0 o) val s

end Sys2Proof.Machine
end

