-- ==== Sys2Proof/Machine/VirtualMixer.lean ====
section
/-! DEFINITION. The Virtual Mixer's transactions (46_generate_and_mixer R288 to R299). -/

namespace Sys2Proof.Machine

/-- `MIX_ALLOC` (R288). -/
def execMixAlloc (s : State) : Host.Outcome State Fault Refusal :=
  match s.mixer.firstFree with
  | some i =>
    .next ((s.withMixChan i
      { s.mixer.chans[i].emptied with allocated := true, vol := Config.q15One, pan := 0 }).answer (.index (some i)))
  | none => .next (s.answer (.index none))

/-- `MIX_RELEASE` (R289). -/
def execMixRelease (i : Fin 64) (s : State) : Host.Outcome State Fault Refusal :=
  .next (s.withMixChan i { s.mixer.chans[i].emptied with allocated := false })

/-- `MIX_WRITE` (R290, R291): dropped whole where the channel is free or the frames do not fit. -/
def execMixWrite (i : Fin 64) (frames : List Frame) (s : State) : Host.Outcome State Fault Refusal :=
  let ch := s.mixer.chans[i]
  if ch.allocated && decide (ch.wr + frames.length ≤ s.params.mixCap) then
    .next (s.withMixChan i { ch with buf := fifoStore ch.buf ch.wr frames, wr := ch.wr + frames.length })
  else .next s

/-- `MIX_VOL` (R292). -/
def execMixVol (i : Fin 64) (v : Int) (s : State) : Host.Outcome State Fault Refusal :=
  .next (s.withMixChan i { s.mixer.chans[i] with vol := (min (Config.q15One : Int) (max 0 v)).toNat })

/-- `MIX_PAN` (R293). -/
def execMixPan (i : Fin 64) (p : Int) (s : State) : Host.Outcome State Fault Refusal :=
  .next (s.withMixChan i
    { s.mixer.chans[i] with pan := min (Config.q15One : Int) (max (-(Config.q15One : Int)) p) })

/-- `MIX_NORM` (R294). -/
def execMixNorm (b : Bool) (s : State) : Host.Outcome State Fault Refusal :=
  .next (s.withMixer { s.mixer with normalize := b })

/-- `MIX` (R295). -/
def execMix (s : State) : Host.Outcome State Fault Refusal :=
  .next ((s.withMixer s.mixer.drained).answer (.pcm s.mixer.mixed))

end Sys2Proof.Machine
end

