-- ==== Sys2Proof/Machine/Dispatch.lean ====
section
/-! DEFINITION. The meaning of every transaction, one arm per row of the opcode table. -/

namespace Sys2Proof.Machine

/-- The effect of one whole transaction on the machine (00_scope R8, 20_memory R64). -/
def exec (i : Instr) (s : State) : Host.Outcome State Fault Refusal :=
  match i with
  | .wrOp20 o val => Sys2Proof.Machine.execWrOp20 o val s
  | .wrOp40 o val => Sys2Proof.Machine.execWrOp40 o val s
  | .wrOp60 o val => Sys2Proof.Machine.execWrOp60 o val s
  | .wrOp80 o val => Sys2Proof.Machine.execWrOp80 o val s
  | .wrOpE0 o val => Sys2Proof.Machine.execWrOpE0 o val s
  | .wrChA0 ch val => Sys2Proof.Machine.execWrChA0 ch val s
  | .wrChB0 ch val => Sys2Proof.Machine.execWrChB0 ch val s
  | .wrChC0 ch val => Sys2Proof.Machine.execWrChC0 ch val s
  | .wr01 val => Sys2Proof.Machine.execWr01 val s
  | .wr02 val => Sys2Proof.Machine.execWr02 val s
  | .wr03 val => Sys2Proof.Machine.execWr03 val s
  | .wr04 val => Sys2Proof.Machine.execWr04 val s
  | .wr08 val => Sys2Proof.Machine.execWr08 val s
  | .wrBD val => Sys2Proof.Machine.execWrBD val s
  | .wr104 val => Sys2Proof.Machine.execWr104 val s
  | .wr105 val => Sys2Proof.Machine.execWr105 val s
  | .wrUnassigned a val => Sys2Proof.Machine.execWrUnassigned a val s
  | .gen n => Sys2Proof.Machine.execGen n s
  | .reset => Sys2Proof.Machine.execReset s
  | .cvt => Sys2Proof.Machine.execCvt s
  | .mixAlloc => Sys2Proof.Machine.execMixAlloc s
  | .mixRelease j => Sys2Proof.Machine.execMixRelease j s
  | .mixWrite j frames => Sys2Proof.Machine.execMixWrite j frames s
  | .mixVol j v => Sys2Proof.Machine.execMixVol j v s
  | .mixPan j p => Sys2Proof.Machine.execMixPan j p s
  | .mixNorm b => Sys2Proof.Machine.execMixNorm b s
  | .mix => Sys2Proof.Machine.execMix s

end Sys2Proof.Machine
end

