-- ==== Sys2Proof/WellFormed.lean ====
section
/-! DEFINITION. What 30_encoding can encode: the checks an instruction's operands meet. Operator, channel and mixer
indices are bounded by their types. -/

namespace Sys2Proof

/-- The operands fit the fields of the instruction's format (30_encoding R81), and a write of the unassigned class
names an address of that class (R87). -/
def WellFormed : Instr → Bool
  | .wrOp20 _ _ | .wrOp40 _ _ | .wrOp60 _ _ | .wrOp80 _ _ | .wrOpE0 _ _ => true
  | .wrChA0 _ _ | .wrChB0 _ _ | .wrChC0 _ _ => true
  | .wr01 _ | .wr02 _ | .wr03 _ | .wr04 _ | .wr08 _ | .wrBD _ | .wr104 _ | .wr105 _ => true
  | .wrUnassigned a _ => classOf a == .unassigned
  | .gen n => decide (n < 2 ^ 28)
  | .reset | .cvt | .mixAlloc | .mixRelease _ | .mixNorm _ | .mix => true
  | .mixWrite _ frames => decide (frames.length < 2 ^ 32)
  | .mixVol _ v | .mixPan _ v => decide (-65536 ≤ v ∧ v < 65536)

end Sys2Proof
end

