-- ==== Sys2Proof/Decode.lean ====
section
/-! DEFINITION. Decoding the transaction stream and encoding it (30_encoding R80 to R92), both from the same field
tables. The decoder is total on any list of words and rejects by name. -/

namespace Sys2Proof

/-- Why a stream of words spells no transaction. -/
inductive DecodeError where
  /-- The stream is empty. -/
  | noWord
  /-- Command codes 1011 to 1111 (30_encoding R82). -/
  | unassignedCommand (cmd : Nat)
  /-- A `MIX_WRITE` whose count or frame words are not all there (log entry 4). -/
  | truncated
  deriving DecidableEq, Repr

/-- The write transaction of a register address (30_encoding R87). -/
def writeInstr (a : BitVec 9) (val : Byte) : Instr :=
  match classOf a with
  | .op20 o => .wrOp20 o val
  | .op40 o => .wrOp40 o val
  | .op60 o => .wrOp60 o val
  | .op80 o => .wrOp80 o val
  | .opE0 o => .wrOpE0 o val
  | .chA0 ch => .wrChA0 ch val
  | .chB0 ch => .wrChB0 ch val
  | .chC0 ch => .wrChC0 ch val
  | .wse => .wr01 val
  | .timer1 => .wr02 val
  | .timer2 => .wr03 val
  | .timerControl => .wr04 val
  | .csmNts => .wr08 val
  | .rhythm => .wrBD val
  | .connection => .wr104 val
  | .newMode => .wr105 val
  | .unassigned => .wrUnassigned a val

/-- Format W: `addr = word[23:8]` of which bits 8:0 are used, `val = word[7:0]` (R81, R85). -/
def decodeW (w : Nat) : Instr := writeInstr (BitVec.ofNat 9 (bitsOf w 23 8)) (BitVec.ofNat 8 (bitsOf w 7 0))

/-- Format MI's index `word[5:0]` (R81). -/
def indexMI (w : Nat) : Fin 64 := ⟨bitsOf w 5 0, by unfold bitsOf; omega⟩

/-- Format MV's index `word[27:22]` (R81). -/
def indexMV (w : Nat) : Fin 64 := ⟨bitsOf w 27 22, by unfold bitsOf; omega⟩

/-- Format MV's value `sext_17(word[16:0])` (R81). -/
def valueMV (w : Nat) : Int := sextOf 17 (bitsOf w 16 0)

/-- A frame word of `MIX_WRITE`: left in bits 15:0, right in bits 31:16 (R81). -/
def frameOfWord (w : Word) : Frame :=
  ⟨BitVec.ofNat 16 (bitsOf w.toNat 15 0), BitVec.ofNat 16 (bitsOf w.toNat 31 16)⟩

/-- `MIX_WRITE`'s operand words: a count `k`, then `k` frame words (R81). -/
def decodeFrames : List Word → Except DecodeError (List Frame × List Word)
  | [] => .error .truncated
  | k :: ws => if k.toNat ≤ ws.length then .ok ((ws.take k.toNat).map frameOfWord, ws.drop k.toNat) else .error .truncated

/-- The transaction at the head of a stream of words, and the words after it (R80, R81). -/
def decode : List Word → Except DecodeError (Instr × List Word)
  | [] => .error .noWord
  | w :: ws =>
    match bitsOf w.toNat 31 28 with
    | 0 => .ok (decodeW w.toNat, ws)
    | 1 => .ok (.gen (bitsOf w.toNat 27 0), ws)
    | 2 => .ok (.reset, ws)
    | 3 => .ok (.cvt, ws)
    | 4 => .ok (.mixAlloc, ws)
    | 5 => .ok (.mixRelease (indexMI w.toNat), ws)
    | 6 =>
      match decodeFrames ws with
      | .ok (frames, rest) => .ok (.mixWrite (indexMI w.toNat) frames, rest)
      | .error e => .error e
    | 7 => .ok (.mixVol (indexMV w.toNat) (valueMV w.toNat), ws)
    | 8 => .ok (.mixPan (indexMV w.toNat) (valueMV w.toNat), ws)
    | 9 => .ok (.mixNorm (bitsOf w.toNat 0 0 == 1), ws)
    | 10 => .ok (.mix, ws)
    | cmd => .error (.unassignedCommand cmd)

/-- How many words a transaction takes (R80, R81). -/
def wordCount : Instr → Nat
  | .mixWrite _ frames => 2 + frames.length
  | _ => 1

/-- The word of format W (R81). -/
def wordW (a : Nat) (val : Byte) : Word := BitVec.ofNat 32 (a * 2 ^ 8 + val.toNat)

/-- A command word with code `cmd` and `fields` in bits 27:0 (R80). -/
def wordCmd (cmd fields : Nat) : Word := BitVec.ofNat 32 (cmd * 2 ^ 28 + fields)

/-- Format MV's fields (R81). -/
def fieldsMV (i : Fin 64) (v : Int) : Nat := i.val * 2 ^ 22 + (v % 2 ^ 17).toNat

/-- The frame word of a frame (R81). -/
def wordOfFrame (f : Frame) : Word := BitVec.ofNat 32 (f.r.toNat * 2 ^ 16 + f.l.toNat)

/-- The words of a transaction, ignored fields zero (R80, R81). -/
def encode : Instr → List Word
  | .wrOp20 o v => [wordW (opAddr 0x20 o) v]
  | .wrOp40 o v => [wordW (opAddr 0x40 o) v]
  | .wrOp60 o v => [wordW (opAddr 0x60 o) v]
  | .wrOp80 o v => [wordW (opAddr 0x80 o) v]
  | .wrOpE0 o v => [wordW (opAddr 0xE0 o) v]
  | .wrChA0 ch v => [wordW (chAddr 0xA0 ch) v]
  | .wrChB0 ch v => [wordW (chAddr 0xB0 ch) v]
  | .wrChC0 ch v => [wordW (chAddr 0xC0 ch) v]
  | .wr01 v => [wordW 0x001 v]
  | .wr02 v => [wordW 0x002 v]
  | .wr03 v => [wordW 0x003 v]
  | .wr04 v => [wordW 0x004 v]
  | .wr08 v => [wordW 0x008 v]
  | .wrBD v => [wordW 0x0BD v]
  | .wr104 v => [wordW 0x104 v]
  | .wr105 v => [wordW 0x105 v]
  | .wrUnassigned a v => [wordW a.toNat v]
  | .gen n => [wordCmd 1 n]
  | .reset => [wordCmd 2 0]
  | .cvt => [wordCmd 3 0]
  | .mixAlloc => [wordCmd 4 0]
  | .mixRelease i => [wordCmd 5 i.val]
  | .mixWrite i frames => wordCmd 6 i.val :: BitVec.ofNat 32 frames.length :: frames.map wordOfFrame
  | .mixVol i v => [wordCmd 7 (fieldsMV i v)]
  | .mixPan i p => [wordCmd 8 (fieldsMV i p)]
  | .mixNorm b => [wordCmd 9 b.toNat]
  | .mix => [wordCmd 10 0]

/-- The words of an instruction whose bits, numbered from the first word's bit 0 up, are `w`: one word, and for
`MIX_WRITE` its count word too. Bits at and above `nbits` are zero. -/
def tableWords (nbits w : Nat) : List Word :=
  let v := w % 2 ^ nbits
  if bitsOf v 31 28 = 6 then [BitVec.ofNat 32 v, BitVec.ofNat 32 (v / 2 ^ 32)] else [BitVec.ofNat 32 v]

/-- The instruction the decoder reads from such bits. -/
def decodeTableWord (nbits w : Nat) : Option Instr :=
  match decode (tableWords nbits w) with
  | .ok (i, _) => some i
  | .error _ => none

end Sys2Proof
end

