-- ==== Sys2Proof/Machine/Fetch.lean ====
section
/-! DEFINITION. Taking the next transaction off the host's stream (30_encoding R80, 10_state R23; log entry 1). -/

namespace Sys2Proof.Machine

/-- The words at the head of the host's stream, up to the next buffer it hands over. -/
def leadingWords : List HostItem → List Word
  | .word w :: rest => w :: leadingWords rest
  | _ => []

/-- The stream as the host's items. -/
def issueWords (ws : List Word) : List HostItem := ws.map .word

/-- The state with the words of a transaction taken off the host's stream. -/
def State.consume (s : State) (n : Nat) : State := { s with host := { s.host with pending := s.host.pending.drop n } }

/-- The host hands over a buffer: the next `gen` or `cvt` works on it (30_encoding R81). -/
def State.handOver (s : State) (frames : List AccFrame) : State := { s with host := { s.host with buf := frames } }

/-- Why a stream that spells no transaction is refused (30_encoding R82; log entry 4). -/
def refusalOf : DecodeError → Refusal
  | .unassignedCommand cmd => .unassignedCommand cmd
  | .truncated => .truncatedTransaction
  | .noWord => .truncatedTransaction

/-- The host's stream of exactly one transaction, whose bits are `w` (see `tableWords`). -/
def fetchItems (nbits w : Nat) : List HostItem := issueWords (tableWords nbits w)

end Sys2Proof.Machine
end

