-- ==== Sys2Proof/Machine/Step.lean ====
section
/-! DEFINITION. One step of the machine: the host's next action. -/

namespace Sys2Proof.Machine

/-- One step. With nothing pending the block does nothing and keeps all state (60_exceptions R351; log entry 3); a buffer
handed over becomes the host's buffer; a transaction is taken off the stream and executed whole (00_scope R8). -/
def step (s : State) : Host.Outcome State Fault Refusal :=
  match s.host.pending with
  | [] => .next s
  | .buffer frames :: _ => .next ((s.consume 1).handOver frames)
  | .word w :: rest =>
    match decode (w :: leadingWords rest) with
    | .ok (i, _) => exec i (s.consume (wordCount i))
    | .error e => .refused (refusalOf e)

/-- The state whose next step runs exactly the instruction with bits `w` (log entry 1). -/
def State.withFetchWord (s : State) (nbits w : Nat) : State :=
  { s with host := { s.host with pending := fetchItems nbits w } }

end Sys2Proof.Machine
end

