-- ==== Sys2Proof/Machine/Assembler.lean ====
section
/-! DEFINITION. The assembler syntax (30_encoding R95), as a printer of transactions, and the pseudo-transactions with
their expansions (R96), as the items a host issues. -/

namespace Sys2Proof.Machine

/-- One line of the assembler syntax of a register write (R95). -/
def asmWrite (a : Nat) (val : Byte) : String := "wr " ++ toString a ++ ", " ++ toString val.toNat

/-- A frame in the assembler syntax (R95). -/
def asmFrame (f : Frame) : String := "(" ++ toString f.l.toInt ++ "," ++ toString f.r.toInt ++ ")"

/-- A transaction in the assembler syntax, numbers in decimal (R95). -/
def asm : Instr → String
  | .wrOp20 o v => asmWrite (opAddr 0x20 o) v
  | .wrOp40 o v => asmWrite (opAddr 0x40 o) v
  | .wrOp60 o v => asmWrite (opAddr 0x60 o) v
  | .wrOp80 o v => asmWrite (opAddr 0x80 o) v
  | .wrOpE0 o v => asmWrite (opAddr 0xE0 o) v
  | .wrChA0 ch v => asmWrite (chAddr 0xA0 ch) v
  | .wrChB0 ch v => asmWrite (chAddr 0xB0 ch) v
  | .wrChC0 ch v => asmWrite (chAddr 0xC0 ch) v
  | .wr01 v => asmWrite 0x001 v
  | .wr02 v => asmWrite 0x002 v
  | .wr03 v => asmWrite 0x003 v
  | .wr04 v => asmWrite 0x004 v
  | .wr08 v => asmWrite 0x008 v
  | .wrBD v => asmWrite 0x0BD v
  | .wr104 v => asmWrite 0x104 v
  | .wr105 v => asmWrite 0x105 v
  | .wrUnassigned a v => asmWrite a.toNat v
  | .gen n => "gen " ++ toString n
  | .reset => "reset"
  | .cvt => "cvt"
  | .mixAlloc => "malloc"
  | .mixRelease i => "mrel " ++ toString i.val
  | .mixWrite i frames => ", ".intercalate (("mwr " ++ toString i.val) :: frames.map asmFrame)
  | .mixVol i v => "mvol " ++ toString i.val ++ ", " ++ toString v
  | .mixPan i p => "mpan " ++ toString i.val ++ ", " ++ toString p
  | .mixNorm b => "mnorm " ++ toString b.toNat
  | .mix => "mix"

/-- The items of a host that issues these transactions (R80). -/
def issue (is : List Instr) : List HostItem := issueWords (is.flatMap encode)

/-- `wr ADDR, VAL` (R95): the write transaction of a 16-bit address, of which bits 8:0 are used (R85). -/
def asmWr (addr : Nat) (val : Byte) : Instr := writeInstr (BitVec.ofNat 9 addr) val

/-- `keyon CH, FNUM, BLOCK` (R96). -/
def keyonPseudo (ch : Fin 18) (f : BitVec 10) (blk : Fin 8) : List Instr :=
  [asmWr (0x100 * (ch.val / 9) + 0xA0 + ch.val % 9) (BitVec.ofNat 8 (f.toNat % 2 ^ 8)),
    asmWr (0x100 * (ch.val / 9) + 0xB0 + ch.val % 9) (BitVec.ofNat 8 (0x20 + blk.val * 2 ^ 2 + f.toNat / 2 ^ 8))]

/-- `keyoff CH, FNUM, BLOCK` (R96). -/
def keyoffPseudo (ch : Fin 18) (f : BitVec 10) (blk : Fin 8) : List Instr :=
  [asmWr (0x100 * (ch.val / 9) + 0xB0 + ch.val % 9) (BitVec.ofNat 8 (blk.val * 2 ^ 2 + f.toNat / 2 ^ 8))]

/-- `opwr B, CH, S, VAL` (R96). -/
def opwrPseudo (base : Nat) (ch : Fin 18) (slot : Fin 2) (val : Byte) : List Instr :=
  [asmWr (0x100 * (ch.val / 9) + base +
    opOffset (if slot = 0 then firstOp ch else secondOp ch)) val]

/-- `gen16 N` (R96): the host zeroes a buffer of `N` frames, then `gen N` and `cvt`. -/
def gen16Pseudo (n : Nat) : List HostItem := .buffer (List.replicate n ⟨0, 0⟩) :: issue [.gen n, .cvt]

/-- `opl3on` (R96). -/
def opl3onPseudo : List Instr := [asmWr 0x105 0x01]

end Sys2Proof.Machine
end

