-- ==== Sys2Proof/Safety.lean ====
section
/-! DEFINITION. What a state that a run can reach looks like, and what it means that a transaction completes: the terms
the claims use. -/

namespace Sys2Proof.Machine

/-- The ranges that 10_state gives the machine's state, and the canonical form of the register space. -/
structure Inv (s : State) : Prop where
  /-- The register space is in canonical form. -/
  regs : s.chip.regs.wf = true
  /-- Attenuations are 0..511 (R31, R181). -/
  att : ∀ o : Fin 36, s.chip.ops[o].att ≤ 511
  /-- An operator in OFF is at silence (R191, R212). -/
  off : ∀ o : Fin 36, s.chip.ops[o].env = .off → s.chip.ops[o].att = 511
  /-- The last outputs are -4084..4084 (R33). -/
  fb1 : ∀ ch : Fin 18, -4084 ≤ s.chip.fb[ch].fb1 ∧ s.chip.fb[ch].fb1 ≤ 4084
  /-- The second-last outputs are -4084..4084 (R33). -/
  fb2 : ∀ ch : Fin 18, -4084 ≤ s.chip.fb[ch].fb2 ∧ s.chip.fb[ch].fb2 ≤ 4084
  /-- The tremolo position is 0..209 (R35). -/
  tremPos : s.chip.tremPos < 210
  /-- The vibrato position is 0..7 (R35). -/
  vibPos : s.chip.vibPos < 8
  /-- The noise register is never 0 (R266). -/
  noise : s.chip.noise ≠ 0
  /-- Volumes are 0..32768 (R37). -/
  vol : ∀ i : Fin 64, s.mixer.chans[i].vol ≤ 32768
  /-- Pans are -32768..32768 (R37). -/
  pan : ∀ i : Fin 64, -32768 ≤ s.mixer.chans[i].pan ∧ s.mixer.chans[i].pan ≤ 32768
  /-- The cursors keep their order within the capacity (R37). -/
  cursors : ∀ i : Fin 64, s.mixer.chans[i].rd ≤ s.mixer.chans[i].wr ∧ s.mixer.chans[i].wr ≤ s.params.mixCap
  /-- A FIFO stores at most MIX_CAP frames, and every frame before the write cursor (R37). -/
  stored : ∀ i : Fin 64,
    s.mixer.chans[i].wr ≤ s.mixer.chans[i].buf.length ∧ s.mixer.chans[i].buf.length ≤ s.params.mixCap

/-- A transaction completes: it gives a next state. -/
def Completes (i : Instr) (s : State) : Prop := ∃ t, exec i s = .next t

/-- A step is safe: it gives a next state that meets the invariant. -/
def SafeStep (s : State) : Prop := ∃ t, step s = .next t ∧ Inv t

/-- The register address and value of a register write (30_encoding R86, R92); no other transaction has one. -/
def regWrite : Instr → Option (Nat × Byte)
  | .wrOp20 o v => some (opAddr 0x20 o, v)
  | .wrOp40 o v => some (opAddr 0x40 o, v)
  | .wrOp60 o v => some (opAddr 0x60 o, v)
  | .wrOp80 o v => some (opAddr 0x80 o, v)
  | .wrOpE0 o v => some (opAddr 0xE0 o, v)
  | .wrChA0 ch v => some (chAddr 0xA0 ch, v)
  | .wrChB0 ch v => some (chAddr 0xB0 ch, v)
  | .wrChC0 ch v => some (chAddr 0xC0 ch, v)
  | .wr01 v => some (0x001, v)
  | .wr02 v => some (0x002, v)
  | .wr03 v => some (0x003, v)
  | .wr04 v => some (0x004, v)
  | .wr08 v => some (0x008, v)
  | .wrBD v => some (0x0BD, v)
  | .wr104 v => some (0x104, v)
  | .wr105 v => some (0x105, v)
  | .wrUnassigned a v => some (a.toNat, v)
  | .gen _ | .reset | .cvt | .mixAlloc | .mixRelease _ | .mixWrite _ _ | .mixVol _ _ | .mixPan _ _ | .mixNorm _ | .mix =>
    none

/-- The register writes that can change a key level (44_channel_synthesis R236): 0xB0 of a channel, 0x0BD, 0x104,
0x105. -/
def touchesKeys : Instr → Bool
  | .wrChB0 _ _ | .wrBD _ | .wr104 _ | .wr105 _ => true
  | _ => false

/-- The transactions of the Virtual Mixer. -/
def isMixerInstr : Instr → Bool
  | .mixAlloc | .mixRelease _ | .mixWrite _ _ | .mixVol _ _ | .mixPan _ _ | .mixNorm _ | .mix => true
  | _ => false

/-- A register byte that no rule reads: the timer registers (R152), every address of the unassigned class (R166), and
whatever lies outside the register space. -/
def readByNoRule (a : Nat) : Prop := 512 ≤ a ∨ a = 0x002 ∨ a = 0x003 ∨ a = 0x004 ∨ classOf (BitVec.ofNat 9 a) = .unassigned

/-- Two states that differ at most in register bytes no rule reads. -/
structure SameButUnread (s s' : State) : Prop where
  params : s.params = s'.params
  ops : s.chip.ops = s'.chip.ops
  fb : s.chip.fb = s'.chip.fb
  sampleCounter : s.chip.sampleCounter = s'.chip.sampleCounter
  tremPos : s.chip.tremPos = s'.chip.tremPos
  vibPos : s.chip.vibPos = s'.chip.vibPos
  noise : s.chip.noise = s'.chip.noise
  mixer : s.mixer = s'.mixer
  host : s.host = s'.host
  regs : ∀ a, ¬ readByNoRule a → s.chip.regs.read a = s'.chip.regs.read a

/-- The channels a synthesis unit computes (44_channel_synthesis R230). -/
def unitChannels : SynthUnit → List (Fin 18)
  | .twoOp ch => [ch]
  | .fourOp k => [pairFirst k, pairSecond k]
  | .bassDrum => [6]
  | .hatSnare => [7]
  | .tomCymbal => [8]

/-- The bits of a command word that its format reads, by command code (30_encoding R81, R85): the others are ignored. -/
def usedBits : Nat → Word
  | 0 => 0xF001FFFF
  | 1 => 0xFFFFFFFF
  | 5 | 6 => 0xF000003F
  | 7 | 8 => 0xFFC1FFFF
  | 9 => 0xF0000001
  | _ => 0xF0000000

/-- The envelope states that one sample step may lead to (43_operator_engine R186 to R191). -/
def envNext : Env → List Env
  | .attack => [.attack, .decay]
  | .decay => [.decay, .sustain]
  | .sustain => [.sustain, .off]
  | .release => [.release, .off]
  | .off => [.off]

end Sys2Proof.Machine
end

