-- ==== Sys2Proof/Certificates/Slice0/Obligations.lean ====
section
/-! DEFINITION. The statements for the provers. Each docstring names the rules of spec/ it rests on. Statements are about
every state unless a hypothesis says otherwise. -/

open Sys2Proof Sys2Proof.Machine

/-! ## Encoding -/

/-- Words written out from the formats of 30_encoding R81 (95_test_vectors V-CW, V-AD), at least one of each format,
decode to their transactions. -/
def Obligations.SpecWordsDecode : Prop :=
  decode [0x00002021] = .ok (.wrOp20 0 0x21, []) ∧
  decode [0x0001B432] = .ok (.wrChB0 13 0x32, []) ∧
  decode [0x000173F0] = .ok (.wrOp60 31 0xF0, []) ∧
  decode [0x00010501] = .ok (.wr105 0x01, []) ∧
  decode [0x0001BDFF] = .ok (.wrUnassigned 0x1BD 0xFF, []) ∧
  decode [0x1FFFFFFF] = .ok (.gen 268435455, []) ∧
  decode [0x2ABCDEF0] = .ok (.reset, []) ∧
  decode [0x30000000] = .ok (.cvt, []) ∧
  decode [0x40000000] = .ok (.mixAlloc, []) ∧
  decode [0x50000001] = .ok (.mixRelease 1, []) ∧
  decode [0x60000000, 0x00000002, 0x03E803E8, 0xF83007D0] =
    .ok (.mixWrite 0 [⟨BitVec.ofInt 16 1000, BitVec.ofInt 16 1000⟩, ⟨BitVec.ofInt 16 2000, BitVec.ofInt 16 (-2000)⟩], []) ∧
  decode [0x80018000] = .ok (.mixPan 0 (-32768), []) ∧
  decode [0x8FC08000] = .ok (.mixPan 63 32768, []) ∧
  decode [0x7000FFFF] = .ok (.mixVol 0 65535, []) ∧
  decode [0x90000001] = .ok (.mixNorm true, []) ∧
  decode [0xA0000000] = .ok (.mix, []) ∧
  decode [0xB0000000] = .error (.unassignedCommand 11)

/-- Decoding an encoded transaction gives it back, with whatever follows it in the stream (30_encoding R80 to R90). -/
def Obligations.DecodeOfEncodeIsIdentity : Prop :=
  ∀ (i : Instr) (rest : List Word), WellFormed i = true → decode (encode i ++ rest) = .ok (i, rest)

/-- What the decoder reads is well formed, and it takes exactly the words of the transaction (30_encoding R80, R81). -/
def Obligations.DecodedTransactionIsWellFormed : Prop :=
  ∀ (ws : List Word) (i : Instr) (rest : List Word), decode ws = .ok (i, rest) →
    WellFormed i = true ∧ ∃ taken, ws = taken ++ rest ∧ taken.length = wordCount i

/-- R82: a word with a code 1011 to 1111 is refused, and the bits a format ignores may hold anything. -/
def Obligations.UnassignedCodesRefusedIgnoredBitsFree : Prop :=
  (∀ (s : State) (w : Word) (rest : List HostItem), s.host.pending = .word w :: rest → 11 ≤ w.toNat / 2 ^ 28 →
    step s = .refused (.unassignedCommand (w.toNat / 2 ^ 28))) ∧
  (∀ (w w' : Word) (ws : List Word), w &&& usedBits (w.toNat / 2 ^ 28) = w' &&& usedBits (w.toNat / 2 ^ 28) →
    decode (w :: ws) = decode (w' :: ws))

/-- R85: a write word with 16-bit address `addr` names the byte `addr[8:0]`, whatever bits 15:9 and the ignored bits
27:24 are: its transaction stores there and nowhere else. -/
def Obligations.WriteAddressUsesNineBits : Prop :=
  ∀ (ignored : BitVec 4) (addr : BitVec 16) (val : Byte) (ws : List Word), ∃ i : Instr,
    decode (BitVec.ofNat 32 (ignored.toNat * 2 ^ 24 + addr.toNat * 2 ^ 8 + val.toNat) :: ws) = .ok (i, ws) ∧
    ∀ s : State, ∃ t, exec i s = .next t ∧
      t.chip.regs.read (addr.toNat % 512) = val ∧
      (∀ b, b ≠ addr.toNat % 512 → t.chip.regs.read b = s.chip.regs.read b) ∧
      t.mixer = s.mixer ∧ t.params = s.params ∧ t.host = s.host

/-- R88: the slot offset of an operator range names operator `2*(9*b + l) + s` with `l = 3*(off>>3) + (off&7) mod 3` and
`s = (off&7) div 3` where `off>>3 <= 2` and `off&7 <= 5`, and no operator otherwise. -/
def Obligations.SlotOffsetNamesOperator : Prop :=
  ∀ (b : Bool) (off : Nat) (v : Byte), off < 32 →
    (off / 8 ≤ 2 ∧ off % 8 ≤ 5 →
      ∃ o : Fin 36, o.val = 2 * (9 * b.toNat + (3 * (off / 8) + off % 8 % 3)) + off % 8 / 3 ∧
        decode [wordW (0x100 * b.toNat + 0x20 + off) v] = .ok (.wrOp20 o v, []) ∧
        decode [wordW (0x100 * b.toNat + 0x40 + off) v] = .ok (.wrOp40 o v, []) ∧
        decode [wordW (0x100 * b.toNat + 0x60 + off) v] = .ok (.wrOp60 o v, []) ∧
        decode [wordW (0x100 * b.toNat + 0x80 + off) v] = .ok (.wrOp80 o v, []) ∧
        decode [wordW (0x100 * b.toNat + 0xE0 + off) v] = .ok (.wrOpE0 o v, [])) ∧
    (¬ (off / 8 ≤ 2 ∧ off % 8 ≤ 5) → ∀ base ∈ [0x20, 0x40, 0x60, 0x80, 0xE0],
      decode [wordW (0x100 * b.toNat + base + off) v] =
        .ok (.wrUnassigned (BitVec.ofNat 9 (0x100 * b.toNat + base + off)) v, []))

/-- R90: offset `l` of a channel range names channel `9*b + l` for `l <= 8`; beyond, it names no channel and its byte is
stored only, but for 0xBD of bank 0, the rhythm register. -/
def Obligations.ChannelOffsetNamesChannel : Prop :=
  ∀ (b : Bool) (l : Nat) (v : Byte), l < 16 →
    (l ≤ 8 → ∃ ch : Fin 18, ch.val = 9 * b.toNat + l ∧
      decode [wordW (0x100 * b.toNat + 0xA0 + l) v] = .ok (.wrChA0 ch v, []) ∧
      decode [wordW (0x100 * b.toNat + 0xB0 + l) v] = .ok (.wrChB0 ch v, []) ∧
      decode [wordW (0x100 * b.toNat + 0xC0 + l) v] = .ok (.wrChC0 ch v, [])) ∧
    (8 < l → ∀ base ∈ [0xA0, 0xB0, 0xC0],
      if b = false ∧ base + l = 0xBD then decode [wordW (0x100 * b.toNat + base + l) v] = .ok (.wrBD v, [])
      else
        let a : BitVec 9 := BitVec.ofNat 9 (0x100 * b.toNat + base + l)
        decode [wordW (0x100 * b.toNat + base + l) v] = .ok (.wrUnassigned a v, []) ∧
        ∀ s : State, exec (.wrUnassigned a v) s =
          .next { s with chip := { s.chip with regs := s.chip.regs.write a.toNat v } })

/-- 30_encoding R87's remaining rows: the small global registers, and the unassigned addresses outside the operator and
channel ranges. -/
def Obligations.GlobalAddressesDecode : Prop :=
  ∀ (a : BitVec 9) (v : Byte), a.toNat % 256 / 32 ∉ [1, 2, 3, 4, 7] → a.toNat % 256 / 16 ∉ [10, 11, 12] →
    decode [wordW a.toNat v] =
      .ok (if a.toNat = 0x001 then .wr01 v
        else if a.toNat = 0x002 then .wr02 v
        else if a.toNat = 0x003 then .wr03 v
        else if a.toNat = 0x004 then .wr04 v
        else if a.toNat = 0x008 then .wr08 v
        else if a.toNat = 0x104 then .wr104 v
        else if a.toNat = 0x105 then .wr105 v
        else .wrUnassigned a v, [])

/-- R96: the pseudo-transactions `keyon`, `keyoff`, `opwr` and `opl3on` issue the words of their expansions, and `gen16`
hands over a zeroed buffer and issues `gen` and `cvt`. -/
def Obligations.PseudoTransactionsExpand : Prop :=
  (∀ (ch : Fin 18) (f : BitVec 10) (blk : Fin 8),
    issue (keyonPseudo ch f blk) =
      [.word (wordW (0x100 * (ch.val / 9) + 0xA0 + ch.val % 9) (BitVec.ofNat 8 (f.toNat % 256))),
        .word (wordW (0x100 * (ch.val / 9) + 0xB0 + ch.val % 9)
          (BitVec.ofNat 8 (0x20 + blk.val * 4 + f.toNat / 256)))] ∧
    issue (keyoffPseudo ch f blk) =
      [.word (wordW (0x100 * (ch.val / 9) + 0xB0 + ch.val % 9) (BitVec.ofNat 8 (blk.val * 4 + f.toNat / 256)))]) ∧
  (∀ base ∈ [0x20, 0x40, 0x60, 0x80, 0xE0], ∀ (ch : Fin 18) (slot : Fin 2) (val : Byte),
    issue (opwrPseudo base ch slot val) =
      [.word (wordW (0x100 * (ch.val / 9) + base +
        (8 * (ch.val % 9 / 3) + ch.val % 9 % 3 + 3 * slot.val)) val)]) ∧
  issue opl3onPseudo = [.word 0x00010501] ∧
  (∀ n, n < 2 ^ 28 → gen16Pseudo n =
    [.buffer (List.replicate n ⟨0, 0⟩), .word (BitVec.ofNat 32 (0x10000000 + n)), .word 0x30000000])

/-! ## The step -/

/-- A step whose stream begins with a transaction runs that transaction, its words taken off the stream (00_scope R8).
The rest of the state is the state the transaction finds. -/
def Obligations.StepRunsDecodedTransaction : Prop :=
  ∀ (s : State) (w : Word) (rest : List HostItem) (i : Instr) (ws : List Word),
    s.host.pending = .word w :: rest → decode (w :: leadingWords rest) = .ok (i, ws) →
    step s = exec i { s with host := { s.host with pending := s.host.pending.drop (wordCount i) } }

/-- With nothing pending a step keeps all state (the inference from R260 and R280 that the spec marks as its own in
60_exceptions R351), and a buffer handed over becomes the host's buffer and changes nothing else (30_encoding R81). That
these two are steps of the machine is the model's choice of log entries 1 and 3. -/
def Obligations.StepBetweenTransactions : Prop :=
  ∀ s : State,
    (s.host.pending = [] → step s = .next s) ∧
    (∀ frames rest, s.host.pending = .buffer frames :: rest →
      step s = .next { s with host := { s.host with pending := rest, buf := frames } })

/-- Every transaction completes, and a step gives no next state only for an unassigned code (30_encoding R82) or a
`MIX_WRITE` whose words are not all there (the model's choice of log entry 4): no state faults (60_exceptions R340). -/
def Obligations.StepStopsOnlyOnBadStreams : Prop :=
  (∀ (i : Instr) (s : State), Completes i s) ∧
  ∀ s : State, (∃ t, step s = .next t) ∨
    ∃ w rest, s.host.pending = .word w :: rest ∧
      ((11 ≤ w.toNat / 2 ^ 28 ∧ step s = .refused (.unassignedCommand (w.toNat / 2 ^ 28))) ∨
        (w.toNat / 2 ^ 28 = 6 ∧ step s = .refused .truncatedTransaction ∧
          ∀ k ws, leadingWords rest = k :: ws → ws.length < k.toNat))

/-! ## Register writes -/

/-- Each of the seventeen register writes completes, stores its byte at its address and at no other, and leaves the
feedback histories, counters, noise, attenuations, mixer, parameters and host alone (30_encoding R86). -/
def Obligations.RegisterWriteStoresItsByte : Prop :=
  ∀ (i : Instr) (a : Nat) (v : Byte) (s : State), regWrite i = some (a, v) →
    ∃ t, exec i s = .next t ∧
      t.chip.regs.read a = v ∧ (∀ b, b ≠ a → t.chip.regs.read b = s.chip.regs.read b) ∧
      t.chip.fb = s.chip.fb ∧ t.chip.sampleCounter = s.chip.sampleCounter ∧ t.chip.tremPos = s.chip.tremPos ∧
      t.chip.vibPos = s.chip.vibPos ∧ t.chip.noise = s.chip.noise ∧
      (∀ o : Fin 36, t.chip.ops[o].att = s.chip.ops[o].att) ∧
      t.mixer = s.mixer ∧ t.params = s.params ∧ t.host = s.host

/-- R237, R238, R239: after a register write every operator whose key level rose is in ATTACK with its phase reset
(kept for operators 12 to 17 in rhythm mode under PERC_NO_PHASE_RESET), every operator whose key level fell is in
RELEASE with its phase kept, all keep their attenuation, and the others are as they were. -/
def Obligations.KeyEventsFollowKeyLevels : Prop :=
  ∀ (i : Instr) (a : Nat) (v : Byte) (s : State), regWrite i = some (a, v) →
    ∃ t, exec i s = .next t ∧ ∀ o : Fin 36,
      (keyLevel s.chip.regs o = false → keyLevel t.chip.regs o = true →
        t.chip.ops[o] = ⟨.attack, s.chip.ops[o].att,
          if s.params.percNoPhaseReset = true ∧ bitOf (t.chip.regs.read 0x0BD) 5 = true ∧ 12 ≤ o.val ∧ o.val ≤ 17
          then s.chip.ops[o].acc else 0⟩) ∧
      (keyLevel s.chip.regs o = true → keyLevel t.chip.regs o = false →
        t.chip.ops[o] = ⟨.release, s.chip.ops[o].att, s.chip.ops[o].acc⟩) ∧
      (keyLevel s.chip.regs o = keyLevel t.chip.regs o → t.chip.ops[o] = s.chip.ops[o])

/-- The register writes that touch no key register change nothing but their byte: the operator registers, 0xA0 and 0xC0
of a channel, 0x001, 0x002 to 0x004, 0x008 and the unassigned addresses (40_operator_regs, R130, R134, R150, R152, R154,
R166). -/
def Obligations.PlainRegisterWriteOnlyStores : Prop :=
  ∀ (i : Instr) (a : Nat) (v : Byte) (s : State), WellFormed i = true → touchesKeys i = false →
    regWrite i = some (a, v) →
    exec i s = .next { s with chip := { s.chip with regs := s.chip.regs.write a v } }

/-- The fields of an operator's five registers after they are written (40_operator_regs R110, R112, R114, R116). -/
def Obligations.OperatorFieldsAfterWrite : Prop :=
  ∀ (s : State) (o : Fin 36) (v : Byte),
    (∃ t, exec (.wrOp20 o v) s = .next t ∧ am t.chip.regs o = v.getLsbD 7 ∧ vib t.chip.regs o = v.getLsbD 6 ∧
      egt t.chip.regs o = v.getLsbD 5 ∧ ksr t.chip.regs o = v.getLsbD 4 ∧ mult t.chip.regs o = v.toNat % 16) ∧
    (∃ t, exec (.wrOp40 o v) s = .next t ∧ ksl t.chip.regs o = v.toNat / 64 ∧ tl t.chip.regs o = v.toNat % 64) ∧
    (∃ t, exec (.wrOp60 o v) s = .next t ∧ ar t.chip.regs o = v.toNat / 16 ∧ dr t.chip.regs o = v.toNat % 16) ∧
    (∃ t, exec (.wrOp80 o v) s = .next t ∧ sl t.chip.regs o = v.toNat / 16 ∧ rr t.chip.regs o = v.toNat % 16)

/-- R118: a write of an operator's 0xE0 only stores its byte, and the waveform an operator uses is that byte's low three
bits with NEW, its low two bits with WSE alone, else 0. -/
def Obligations.WaveformSelectIsMasked : Prop :=
  (∀ (s : State) (o : Fin 36) (v : Byte), ∃ t,
    exec (.wrOpE0 o v) s = .next t ∧
    t = { s with chip := { s.chip with regs := s.chip.regs.write (opAddr 0xE0 o) v } } ∧
    t.chip.regs.read (opAddr 0xE0 o) = v) ∧
  ∀ (m : RegFile) (o : Fin 36), wsel m o =
    if (m.read 0x105).getLsbD 0 then (m.read (opAddr 0xE0 o)).toNat % 8
    else if (m.read 0x001).getLsbD 5 then (m.read (opAddr 0xE0 o)).toNat % 4
    else 0

/-- R129: the frequency channel is the first channel of an active pair whose second channel this is, else the channel
itself; F-number, block and key-on are the fields of that channel's 0xA0 and 0xB0, and every operator of the channel uses
them. -/
def Obligations.FrequencyFieldsOfChannel : Prop :=
  ∀ (m : RegFile) (ch : Fin 18), ∃ f : Fin 18,
    ((∃ k : Fin 6, pairSecond k = ch ∧ (m.read 0x105).getLsbD 0 = true ∧ (m.read 0x104).getLsbD k.val = true ∧
        f = pairFirst k) ∨
      ((∀ k : Fin 6, pairSecond k = ch →
        ¬ ((m.read 0x105).getLsbD 0 = true ∧ (m.read 0x104).getLsbD k.val = true)) ∧ f = ch)) ∧
    fnum m ch = (m.read (chAddr 0xA0 f)).toNat + (m.read (chAddr 0xB0 f)).toNat % 4 * 256 ∧
    block m ch = (m.read (chAddr 0xB0 f)).toNat / 4 % 8 ∧
    kon m ch = (m.read (chAddr 0xB0 f)).getLsbD 5 ∧
    fnum m ch < 1024 ∧
    ∀ o : Fin 36, o.val / 2 = ch.val → ∀ pos, phaseInc m pos o = BitVec.ofInt 32 (scaledInc (nativeInc
      ((fnum m ch : Int) + if vib m o then vibOffset (fnum m ch) pos ((m.read 0x0BD).getLsbD 6) else 0)
      (block m ch) (mult m o)))

/-- R236: the key level of an operator is KON of its channel or, in rhythm mode, its rhythm bit of 0x0BD. -/
def Obligations.KeyLevelOfOperator : Prop :=
  ∀ (m : RegFile) (o : Fin 36), keyLevel m o = true ↔
    (kon m (chanOf o) = true ∨
      ((m.read 0x0BD).getLsbD 5 = true ∧
        ((o.val = 12 ∨ o.val = 13) ∧ (m.read 0x0BD).getLsbD 4 = true ∨
          o.val = 14 ∧ (m.read 0x0BD).getLsbD 0 = true ∨
          o.val = 15 ∧ (m.read 0x0BD).getLsbD 3 = true ∨
          o.val = 16 ∧ (m.read 0x0BD).getLsbD 2 = true ∨
          o.val = 17 ∧ (m.read 0x0BD).getLsbD 1 = true)))

/-- Writing the byte a register already holds changes no state, the register space being in canonical form (the inference
from R237 and R22 that the spec marks as its own in the last sentence of 20_memory R64). -/
def Obligations.RewriteOfHeldByteChangesNothing : Prop :=
  ∀ (i : Instr) (a : Nat) (s : State), s.chip.regs.wf = true → regWrite i = some (a, s.chip.regs.read a) →
    exec i s = .next s

/-- Forming a 4-operator pair while its first channel is keyed and its second is not keys on the second channel's
operators and leaves the first channel's as they are (42_global_regs R160, 41_channel_regs R129). -/
def Obligations.FormingPairKeysSecondChannel : Prop :=
  ∀ (s : State) (v : Byte) (k : Fin 6), newMode s.chip.regs = true → pairActive s.chip.regs k = false →
    v.getLsbD k.val = true → kon s.chip.regs (pairFirst k) = true → kon s.chip.regs (pairSecond k) = false →
    ∃ t, exec (.wr104 v) s = .next t ∧
      (∀ o : Fin 36, chanOf o = pairSecond k → t.chip.ops[o] = ⟨.attack, s.chip.ops[o].att, 0⟩) ∧
      (∀ o : Fin 36, chanOf o = pairFirst k → t.chip.ops[o] = s.chip.ops[o])

/-! ## Generate: the frame, the buffer, the mode -/

/-- `gen` completes and changes nothing but the chip's dynamic state, the first `n` frames of the host's buffer and the
record of answers (46_generate_and_mixer R280; that a frame the host did not supply counts as zeros, and the record, are
the model's choices of log entries 6 and 10). -/
def Obligations.GenerateFrame : Prop :=
  ∀ (n : Nat) (s : State), ∃ t, exec (.gen n) s = .next t ∧
    t.chip.regs = s.chip.regs ∧ t.mixer = s.mixer ∧ t.params = s.params ∧ t.host.pending = s.host.pending ∧
    t.host.buf.length = max n s.host.buf.length ∧ (∀ i, n ≤ i → t.host.buf[i]? = s.host.buf[i]?) ∧
    (∀ i, i < n → s.host.buf.length ≤ i → t.host.buf[i]? =
      some ⟨wrap32s (leftSum (Chip.nextSample^[i] s.chip)), wrap32s (rightSum (Chip.nextSample^[i] s.chip))⟩) ∧
    t.host.out = s.host.out ++ [.accumulated (t.host.buf.take n)]

/-- R280: `gen n` runs `n` sample steps on the chip and adds sample `i` to frame `i` of the host's buffer, each word
wrapping to int32, and with `n = 0` changes neither. -/
def Obligations.GenerateAddsEverySample : Prop :=
  ∀ (n : Nat) (s : State), n ≤ s.host.buf.length →
    ∃ t, exec (.gen n) s = .next t ∧ t.chip = Chip.nextSample^[n] s.chip ∧ t.mixer = s.mixer ∧
    t.host.buf.length = s.host.buf.length ∧
    (∀ (i : Nat) (x : AccFrame), s.host.buf[i]? = some x → ∃ f, t.host.buf[i]? = some f ∧
      (i < n →
        f.l.toInt = (x.l.toInt + leftSum (Chip.nextSample^[i] s.chip)).bmod (2 ^ 32) ∧
        f.r.toInt = (x.r.toInt + rightSum (Chip.nextSample^[i] s.chip)).bmod (2 ^ 32)) ∧
      (n ≤ i → f = x)) ∧
    (n = 0 → t.chip = s.chip ∧ t.host.buf = s.host.buf)

/-- Splitting a request changes nothing: `gen a` and then `gen b` into the rest of the buffer leave the chip and the
buffer as `gen (a + b)` does (from 46_generate_and_mixer R280 and R282; the inference that the spec marks as its own in
70_reset R381 and 20_memory R66). Where the buffer has fewer than `a + b` frames, what the frames not supplied become is
the model's choice of log entry 6 (they count as zeros); with `a + b` frames or more nothing rests on it. -/
def Obligations.GenerateSplits : Prop :=
  ∀ (a b : Nat) (s : State), ∃ t u w,
    exec (.gen a) s = .next t ∧
    exec (.gen b) { t with host := { t.host with buf := t.host.buf.drop a } } = .next u ∧
    exec (.gen (a + b)) s = .next w ∧
    w.chip = u.chip ∧ w.host.buf = t.host.buf.take a ++ u.host.buf ∧ w.mixer = u.mixer

/-- R163: with NEW = 0 the operators and feedback histories of channels 9 to 17 are frozen by `gen` and contribute
nothing to its output, which stays the same whatever they are, while register writes are still stored and still cause key
events there; with NEW = 1 every channel is synthesised. -/
def Obligations.Opl2ModeFreezesUpperChannels : Prop :=
  (∀ (n : Nat) (s : State), newMode s.chip.regs = false → ∃ t, exec (.gen n) s = .next t ∧
    (∀ o : Fin 36, 18 ≤ o.val → t.chip.ops[o] = s.chip.ops[o]) ∧
    (∀ ch : Fin 18, 9 ≤ ch.val → t.chip.fb[ch] = s.chip.fb[ch])) ∧
  (∀ (n : Nat) (s s' : State), newMode s.chip.regs = false → s'.chip.regs = s.chip.regs →
    (∀ o : Fin 36, o.val < 18 → s'.chip.ops[o] = s.chip.ops[o]) →
    (∀ ch : Fin 18, ch.val < 9 → s'.chip.fb[ch] = s.chip.fb[ch]) →
    s'.chip.sampleCounter = s.chip.sampleCounter → s'.chip.tremPos = s.chip.tremPos →
    s'.chip.vibPos = s.chip.vibPos → s'.chip.noise = s.chip.noise → s'.host = s.host →
    ∃ t t', exec (.gen n) s = .next t ∧ exec (.gen n) s' = .next t' ∧ t'.host = t.host) ∧
  (∀ (i : Instr) (a : Nat) (v : Byte) (s : State), newMode s.chip.regs = false → regWrite i = some (a, v) →
    ∃ t, exec i s = .next t ∧ t.chip.regs.read a = v ∧
      ∀ o : Fin 36, 18 ≤ o.val →
        (keyLevel s.chip.regs o = false → keyLevel t.chip.regs o = true → t.chip.ops[o].env = .attack) ∧
        (keyLevel s.chip.regs o = true → keyLevel t.chip.regs o = false → t.chip.ops[o].env = .release)) ∧
  (∀ (m : RegFile) (ch : Fin 18), newMode m = true → synthesised m ch = true)

/-- With NEW = 0 every unit goes to both outputs: a buffer whose left and right words agree stays so (44_channel_synthesis
R246). That the frames beyond the buffer agree too, where `n` exceeds its length, rests on the model's choice of log entry
6 (frames not supplied count as zeros). -/
def Obligations.Opl2ModeOutputsAgree : Prop :=
  ∀ (n : Nat) (s : State), newMode s.chip.regs = false → (∀ f ∈ s.host.buf, f.l = f.r) →
    ∃ t, exec (.gen n) s = .next t ∧ ∀ f ∈ t.host.buf, f.l = f.r

/-- While every operator is at silence and in OFF, `gen` adds nothing to the buffer and leaves every operator's envelope
as it is (43_operator_engine R191, R205, R210, R211; that an operator in OFF is silent is the inference from R205 and R211
that the spec marks as its own in R212). That a frame not supplied becomes a frame of zeros is the model's choice of log
entry 6. -/
def Obligations.AllOperatorsOffIsSilence : Prop :=
  ∀ (n : Nat) (s : State), (∀ o : Fin 36, s.chip.ops[o].env = .off ∧ s.chip.ops[o].att = 511) →
    ∃ t, exec (.gen n) s = .next t ∧
      t.host.buf = s.host.buf ++ List.replicate (n - s.host.buf.length) ⟨0, 0⟩ ∧
      ∀ o : Fin 36, t.chip.ops[o].env = .off ∧ t.chip.ops[o].att = 511

/-! ## Envelope -/

/-- R186 to R191: the envelope step that one sample gives each synthesised operator, by its state. -/
def Obligations.EnvelopeStepByState : Prop :=
  ∀ s : State, ∃ t, exec (.gen 1) s = .next t ∧
    ∀ o : Fin 36, newMode s.chip.regs = true ∨ o.val < 18 →
      let m := s.chip.regs
      let c := s.chip.sampleCounter.toNat
      let op := s.chip.ops[o]
      let op' := t.chip.ops[o]
      let sus := if sl m o = 15 then 496 else 16 * sl m o
      let incR := egInc (effRate m o (rr m o)) c
      match op.env with
      | .attack =>
        (op'.att : Int) =
          (if op.att = 0 then 0
          else if 60 ≤ effRate m o (ar m o) then 0
          else max 0 ((op.att : Int) + ((-(op.att : Int) - 1) * (egInc (effRate m o (ar m o)) c : Int)) / 8)) ∧
        op'.env = if op'.att = 0 then .decay else .attack
      | .decay =>
        op'.att = (if op.att < sus then min 511 (op.att + egInc (effRate m o (dr m o)) c) else op.att) ∧
        op'.env = if sus ≤ op'.att then .sustain else .decay
      | .sustain =>
        if egt m o then op'.att = op.att ∧ op'.env = .sustain
        else op'.att = min 511 (op.att + incR) ∧ op'.env = if op'.att = 511 then .off else .sustain
      | .release => op'.att = min 511 (op.att + incR) ∧ op'.env = if op'.att = 511 then .off else .release
      | .off => op'.att = 511 ∧ op'.env = .off

/-- In ATTACK the attenuation never rises from one sample to the next, in DECAY, SUSTAIN and RELEASE it never falls, and
it stays in 0..511 (the inference from R186 to R191 that the spec marks as its own in 43_operator_engine R192). -/
def Obligations.EnvelopeIsMonotone : Prop :=
  ∀ s : State, (∀ o : Fin 36, s.chip.ops[o].att ≤ 511) → ∃ t, exec (.gen 1) s = .next t ∧
    ∀ o : Fin 36, t.chip.ops[o].att ≤ 511 ∧
      (s.chip.ops[o].env = .attack → t.chip.ops[o].att ≤ s.chip.ops[o].att) ∧
      (s.chip.ops[o].env = .decay ∨ s.chip.ops[o].env = .sustain ∨ s.chip.ops[o].env = .release →
        s.chip.ops[o].att ≤ t.chip.ops[o].att)

/-- R183: the effective rate, from the rate field and the key code. -/
def Obligations.EffectiveRate : Prop :=
  ∀ (m : RegFile) (o : Fin 36) (field : Nat),
    let code := block m (chanOf o) * 2 +
      if (m.read 0x008).getLsbD 6 then fnum m (chanOf o) / 256 % 2 else fnum m (chanOf o) / 512 % 2
    let ks := if ksr m o then code else code / 4
    code ≤ 15 ∧ effRate m o field = (if field = 0 then 0 else min 63 (4 * field + ks))

/-- R184 (with the rows of R324): the envelope increment of an effective rate at a counter value, which is 0, 1, 2 or
4. -/
def Obligations.EnvelopeIncrementValues : Prop :=
  ∀ r c : Nat, r < 64 →
    let egrow : List (List Nat) :=
      [[0, 1, 0, 1, 0, 1, 0, 1], [0, 1, 0, 1, 1, 1, 0, 1], [0, 1, 1, 1, 0, 1, 1, 1], [0, 1, 1, 1, 1, 1, 1, 1],
        [1, 1, 1, 1, 1, 1, 1, 1], [1, 1, 1, 2, 1, 1, 1, 2], [1, 2, 1, 2, 1, 2, 1, 2], [1, 2, 2, 2, 1, 2, 2, 2],
        [2, 2, 2, 2, 2, 2, 2, 2], [2, 2, 2, 4, 2, 2, 2, 4], [2, 4, 2, 4, 2, 4, 2, 4], [2, 4, 4, 4, 2, 4, 4, 4],
        [4, 4, 4, 4, 4, 4, 4, 4]]
    egInc r c ∈ [0, 1, 2, 4] ∧
    (r / 4 = 0 → egInc r c = 0) ∧
    (1 ≤ r / 4 → r / 4 ≤ 12 → c % 2 ^ (13 - r / 4) ≠ 0 → egInc r c = 0) ∧
    (1 ≤ r / 4 → r / 4 ≤ 12 → c % 2 ^ (13 - r / 4) = 0 →
      some (egInc r c) = (egrow.getD (r % 4) [])[c / 2 ^ (13 - r / 4) % 8]?) ∧
    (r / 4 = 13 → some (egInc r c) = (egrow.getD (4 + r % 4) [])[c % 8]?) ∧
    (r / 4 = 14 → some (egInc r c) = (egrow.getD (8 + r % 4) [])[c % 8]?) ∧
    (r / 4 = 15 → egInc r c = 4)

/-- The envelope changes only as the state machine says (43_operator_engine R180): one sample leads only along
`envNext`, a run of samples never enters ATTACK or RELEASE and never leaves OFF, and of the other transactions only
`reset` and a register write that moves the operator's key level change it. -/
def Obligations.EnvelopeFollowsStateMachine : Prop :=
  (∀ (s t : State) (o : Fin 36), exec (.gen 1) s = .next t → t.chip.ops[o].env ∈ envNext s.chip.ops[o].env) ∧
  (∀ (n : Nat) (s t : State) (o : Fin 36), exec (.gen n) s = .next t →
    (t.chip.ops[o].env = .attack → s.chip.ops[o].env = .attack) ∧
    (t.chip.ops[o].env = .release → s.chip.ops[o].env = .release) ∧
    (s.chip.ops[o].env = .off → t.chip.ops[o].env = .off)) ∧
  (∀ (i : Instr) (s t : State) (o : Fin 36), (∀ n, i ≠ .gen n) → i ≠ .reset → exec i s = .next t →
    t.chip.ops[o].env = s.chip.ops[o].env ∨
    ((regWrite i).isSome = true ∧ keyLevel s.chip.regs o = false ∧ keyLevel t.chip.regs o = true ∧
      t.chip.ops[o].env = .attack) ∨
    ((regWrite i).isSome = true ∧ keyLevel s.chip.regs o = true ∧ keyLevel t.chip.regs o = false ∧
      t.chip.ops[o].env = .release))

/-! ## Phase, LFO and noise -/

/-- R196, R197, R198: one sample adds to each synthesised operator's accumulator its increment, mod 2^32, the vibrato's
depth being DVB, bit 6 of 0x0BD (42_global_regs R157). -/
def Obligations.PhaseStepAddsIncrement : Prop :=
  ∀ s : State, ∃ t, exec (.gen 1) s = .next t ∧
    ∀ o : Fin 36, newMode s.chip.regs = true ∨ o.val < 18 →
      let m := s.chip.regs
      let f : Int := (fnum m (chanOf o) : Int) +
        if vib m o then vibOffset (fnum m (chanOf o)) s.chip.vibPos ((m.read 0x0BD).getLsbD 6) else 0
      let mt : Nat := [1, 2, 4, 6, 8, 10, 12, 14, 16, 18, 20, 20, 24, 24, 30, 30].getD (mult m o) 0
      let native : Int := (f * 2 ^ block m (chanOf o) / 2) * (mt : Int) / 2
      (t.chip.ops[o].acc.toNat : Int) =
        ((s.chip.ops[o].acc.toNat : Int) + native * 2 ^ 13 * 49716 / 44100) % 2 ^ 32

/-- R199: apart from `gen` and `reset`, the only transaction that changes a phase accumulator is a register write that
raises the operator's key level, and it sets it to 0. -/
def Obligations.OnlyKeyOnResetsPhase : Prop :=
  ∀ (i : Instr) (s t : State) (o : Fin 36), (∀ n, i ≠ .gen n) → i ≠ .reset → exec i s = .next t →
    t.chip.ops[o].acc = s.chip.ops[o].acc ∨
    ((regWrite i).isSome = true ∧ keyLevel s.chip.regs o = false ∧ keyLevel t.chip.regs o = true ∧
      t.chip.ops[o].acc = 0)

/-- R260: `gen n` adds `n` to the sample counter mod 2^32, and no other transaction but `reset` changes it. -/
def Obligations.OnlyGenerateCountsSamples : Prop :=
  (∀ (n : Nat) (s : State), ∃ t, exec (.gen n) s = .next t ∧
    t.chip.sampleCounter.toNat = (s.chip.sampleCounter.toNat + n) % 2 ^ 32) ∧
  (∀ (i : Instr) (s t : State), (∀ n, i ≠ .gen n) → i ≠ .reset → exec i s = .next t →
    t.chip.sampleCounter = s.chip.sampleCounter)

/-- R261, R263: the tremolo position moves on one sample in 64 and the vibrato position on one in 1024, so from every
state their periods are 13440 and 8192 samples (the periods are inferences that the spec marks as its own in the two
rules). -/
def Obligations.LfoPositionsAdvance : Prop :=
  (∀ s : State, ∃ t, exec (.gen 1) s = .next t ∧
    t.chip.tremPos =
      (if (s.chip.sampleCounter.toNat + 1) % 2 ^ 32 % 64 = 0 then (s.chip.tremPos + 1) % 210 else s.chip.tremPos) ∧
    t.chip.vibPos =
      (if (s.chip.sampleCounter.toNat + 1) % 2 ^ 32 % 1024 = 0 then (s.chip.vibPos + 1) % 8 else s.chip.vibPos)) ∧
  (∀ s : State, s.chip.tremPos < 210 → ∃ t, exec (.gen 13440) s = .next t ∧ t.chip.tremPos = s.chip.tremPos) ∧
  (∀ s : State, s.chip.vibPos < 8 → ∃ t, exec (.gen 8192) s = .next t ∧ t.chip.vibPos = s.chip.vibPos)

/-- R262: the tremolo value is the triangle of the position, cut to 26 (deep) or 6 (shallow) units. -/
def Obligations.TremoloIsTriangle : Prop :=
  ∀ (m : RegFile) (pos : Nat), pos < 210 →
    tremolo m pos = (if pos < 105 then pos else 210 - pos) / (if (m.read 0x0BD).getLsbD 7 then 4 else 16) ∧
    tremolo m pos ≤ (if (m.read 0x0BD).getLsbD 7 then 26 else 6)

/-- R264: the vibrato offset runs 0, d/2, d, d/2, 0, -d/2, -d, -d/2 over the positions, with d the top three bits of the
F-number and everything halved once more without DVB, and the vibrated F-number stays in 0..1030. -/
def Obligations.VibratoSequence : Prop :=
  ∀ (f : Nat) (deep : Bool), f < 1024 →
    let k := if deep then 1 else 2
    let full : Int := ((f / 128 / k : Nat) : Int)
    let half : Int := ((f / 128 / 2 / k : Nat) : Int)
    (List.range 8).map (fun pos => vibOffset f pos deep) = [0, half, full, half, 0, -half, -full, -half] ∧
    ∀ pos, 0 ≤ (f : Int) + vibOffset f pos deep ∧ (f : Int) + vibOffset f pos deep ≤ 1030

/-- R266: one sample shifts the noise register right with bit 14 xor bit 0 entering at bit 22, and no transaction takes
it from its reset value 1, or from any other non-zero value, to zero (that it never dies is an inference that the spec
marks as its own in the rule). -/
def Obligations.NoiseShiftsAndNeverDies : Prop :=
  (∀ s : State, ∃ t, exec (.gen 1) s = .next t ∧
    ∀ j, j < 23 → t.chip.noise.getLsbD j =
      if j = 22 then s.chip.noise.getLsbD 14 ^^ s.chip.noise.getLsbD 0 else s.chip.noise.getLsbD (j + 1)) ∧
  State.reset.chip.noise = 1 ∧
  (∀ (i : Instr) (s t : State), s.chip.noise ≠ 0 → exec i s = .next t → t.chip.noise ≠ 0)

/-! ## Waveforms, units and the output of a sample -/

/-- A waveform's value is in -4084..4084, its peak is reached, and at attenuation 511 it is 0 everywhere, so an operator
at attenuation 511 outputs 0 whatever its modulation (the inference from R205 and R211 that the spec marks as its own in
43_operator_engine R212). -/
def Obligations.WaveRangeAndSilence : Prop :=
  (∀ ws p att : Nat, ws < 8 → p < 1024 → att ≤ 511 → -4084 ≤ wave ws p att ∧ wave ws p att ≤ 4084) ∧
  wave 0 0x100 0 = 4084 ∧
  (∀ ws p : Nat, ws < 8 → p < 1024 → wave ws p 511 = 0) ∧
  (∀ (c : Chip) (o : Fin 36) (mod : Int), c.ops[o].att = 511 → opOut c o mod = 0)

/-- The waveforms of 43_operator_engine R211, over R205 and the lists that 48_reference_tables R321 and R322 print, which
the model holds as constants by its choice of log entry 15: each waveform's value, and how they relate. The sine's second
half is its first half negated, the half-sine is its positive part, the abs-sine its magnitude, the pulse-sine the rising
quarters of that, the abs-alternating waveform the magnitude of the alternating one, the square takes two values, the
derived square's second half is its first half mirrored and negated, and no waveform grows with attenuation. -/
def Obligations.WaveformRelations : Prop :=
  ∀ p att : Nat, p < 1024 → att ≤ 511 →
    let logsinList : List Nat :=
      [2137, 1731, 1543, 1419, 1326, 1252, 1190, 1137, 1091, 1050, 1013, 979, 949, 920, 894, 869] ++
      [846, 825, 804, 785, 767, 749, 732, 717, 701, 687, 672, 659, 646, 633, 621, 609] ++
      [598, 587, 576, 566, 556, 546, 536, 527, 518, 509, 501, 492, 484, 476, 468, 461] ++
      [453, 446, 439, 432, 425, 418, 411, 405, 399, 392, 386, 380, 375, 369, 363, 358] ++
      [352, 347, 341, 336, 331, 326, 321, 316, 311, 307, 302, 297, 293, 289, 284, 280] ++
      [276, 271, 267, 263, 259, 255, 251, 248, 244, 240, 236, 233, 229, 226, 222, 219] ++
      [215, 212, 209, 205, 202, 199, 196, 193, 190, 187, 184, 181, 178, 175, 172, 169] ++
      [167, 164, 161, 159, 156, 153, 151, 148, 146, 143, 141, 138, 136, 134, 131, 129] ++
      [127, 125, 122, 120, 118, 116, 114, 112, 110, 108, 106, 104, 102, 100, 98, 96] ++
      [94, 92, 91, 89, 87, 85, 83, 82, 80, 78, 77, 75, 74, 72, 70, 69] ++
      [67, 66, 64, 63, 62, 60, 59, 57, 56, 55, 53, 52, 51, 49, 48, 47] ++
      [46, 45, 43, 42, 41, 40, 39, 38, 37, 36, 35, 34, 33, 32, 31, 30] ++
      [29, 28, 27, 26, 25, 24, 23, 23, 22, 21, 20, 20, 19, 18, 17, 17] ++
      [16, 15, 15, 14, 13, 13, 12, 12, 11, 10, 10, 9, 9, 8, 8, 7] ++
      [7, 7, 6, 6, 5, 5, 5, 4, 4, 4, 3, 3, 3, 2, 2, 2] ++
      [2, 1, 1, 1, 1, 1, 1, 1, 0, 0, 0, 0, 0, 0, 0, 0]
    let expList : List Nat :=
      [2042, 2037, 2031, 2026, 2020, 2015, 2010, 2004, 1999, 1993, 1988, 1983, 1977, 1972, 1966, 1961] ++
      [1956, 1951, 1945, 1940, 1935, 1930, 1924, 1919, 1914, 1909, 1904, 1898, 1893, 1888, 1883, 1878] ++
      [1873, 1868, 1863, 1858, 1853, 1848, 1843, 1838, 1833, 1828, 1823, 1818, 1813, 1808, 1803, 1798] ++
      [1794, 1789, 1784, 1779, 1774, 1769, 1765, 1760, 1755, 1750, 1746, 1741, 1736, 1732, 1727, 1722] ++
      [1717, 1713, 1708, 1704, 1699, 1694, 1690, 1685, 1681, 1676, 1672, 1667, 1663, 1658, 1654, 1649] ++
      [1645, 1640, 1636, 1631, 1627, 1623, 1618, 1614, 1609, 1605, 1601, 1596, 1592, 1588, 1584, 1579] ++
      [1575, 1571, 1566, 1562, 1558, 1554, 1550, 1545, 1541, 1537, 1533, 1529, 1525, 1520, 1516, 1512] ++
      [1508, 1504, 1500, 1496, 1492, 1488, 1484, 1480, 1476, 1472, 1468, 1464, 1460, 1456, 1452, 1448] ++
      [1444, 1440, 1436, 1433, 1429, 1425, 1421, 1417, 1413, 1409, 1406, 1402, 1398, 1394, 1391, 1387] ++
      [1383, 1379, 1376, 1372, 1368, 1364, 1361, 1357, 1353, 1350, 1346, 1342, 1339, 1335, 1332, 1328] ++
      [1324, 1321, 1317, 1314, 1310, 1307, 1303, 1300, 1296, 1292, 1289, 1286, 1282, 1279, 1275, 1272] ++
      [1268, 1265, 1261, 1258, 1255, 1251, 1248, 1244, 1241, 1238, 1234, 1231, 1228, 1224, 1221, 1218] ++
      [1214, 1211, 1208, 1205, 1201, 1198, 1195, 1192, 1188, 1185, 1182, 1179, 1176, 1172, 1169, 1166] ++
      [1163, 1160, 1157, 1154, 1150, 1147, 1144, 1141, 1138, 1135, 1132, 1129, 1126, 1123, 1120, 1117] ++
      [1114, 1111, 1108, 1105, 1102, 1099, 1096, 1093, 1090, 1087, 1084, 1081, 1078, 1075, 1072, 1069] ++
      [1066, 1064, 1061, 1058, 1055, 1052, 1049, 1046, 1044, 1041, 1038, 1035, 1032, 1030, 1027, 1024]
    let bit : Nat → Bool := fun k => p.testBit k
    let expv : Nat → Int := fun level =>
      ((expList.getD (min level 0x1FFF % 256) 0 * 2 / 2 ^ (min level 0x1FFF / 256) : Nat) : Int)
    let z : Nat := 0x1000
    let sq : Nat := if bit 8 then logsinList.getD (255 - p % 256) 0 else logsinList.getD (p % 256) 0
    let dq : Nat :=
      if bit 7 then logsinList.getD ((255 - p % 256) * 2 % 256) 0 else logsinList.getD (p * 2 % 256) 0
    let neg : Bool → Int → Int := fun b v => if b then -v else v
    wave 0 p att = neg (bit 9) (expv (sq + 8 * att)) ∧
    wave 1 p att = expv ((if bit 9 then z else sq) + 8 * att) ∧
    wave 2 p att = expv (sq + 8 * att) ∧
    wave 3 p att = expv ((if bit 8 then z else logsinList.getD (p % 256) 0) + 8 * att) ∧
    wave 4 p att = neg (!bit 9 && bit 8) (expv ((if bit 9 then z else dq) + 8 * att)) ∧
    wave 5 p att = expv ((if bit 9 then z else dq) + 8 * att) ∧
    wave 6 p att = neg (bit 9) (expv (8 * att)) ∧
    wave 7 p att = neg (bit 9) (expv (8 * (if bit 9 then 1023 - p else p) + 8 * att)) ∧
    (p < 512 → wave 0 (p + 512) att = -wave 0 p att ∧ 0 ≤ wave 0 p att ∧
      wave 6 p att = wave 6 0 att ∧ wave 6 (p + 512) att = -wave 6 0 att ∧
      wave 7 (1023 - p) att = -wave 7 p att ∧ 0 ≤ wave 7 p att) ∧
    wave 1 p att = max 0 (wave 0 p att) ∧ wave 2 p att = |wave 0 p att| ∧
    wave 3 p att = (if p % 512 < 256 then wave 2 p att else 0) ∧
    wave 5 p att = |wave 4 p att| ∧ (512 ≤ p → wave 4 p att = 0) ∧
    ∀ ws, ws < 8 → |wave ws p (att + 1)| ≤ |wave ws p att|

/-- R195, R210, R245: an operator's output is its waveform at its phase index plus the modulation, mod 1024; the phase
index is the accumulator's top ten bits, but for operators 14, 15 and 17 in rhythm mode the phases that R245 forms from
operators 14 and 17 and the noise bit; the rhythm units double their two operators' outputs, and every accumulator goes on
by its own increment. -/
def Obligations.OperatorOutputPhase : Prop :=
  ∀ c : Chip,
    let idx : Fin 36 → Nat := fun o => c.ops[o].acc.toNat / 2 ^ 22
    let h : Nat → Bool := fun k => c.ops[(14 : Fin 36)].acc.getLsbD (22 + k)
    let t : Nat → Bool := fun k => c.ops[(17 : Fin 36)].acc.getLsbD (22 + k)
    let nb : Bool := c.noise.getLsbD 0
    let x : Bool := (h 2 ^^ h 7) || (h 3 ^^ t 5) || (t 3 ^^ t 5)
    let value : Fin 36 → Nat → Int → Int := fun o p0 mod =>
      wave (wsel c.regs o) (((p0 : Int) + mod) % 1024).toNat (totalAtt c.regs c.tremPos o c.ops[o].att)
    (∀ o : Fin 36, idx o < 1024) ∧
    (∀ (o : Fin 36) (mod : Int), (c.regs.read 0x0BD).getLsbD 5 = false ∨ (o ≠ 14 ∧ o ≠ 15 ∧ o ≠ 17) →
      opOut c o mod = value o (idx o) mod) ∧
    ((c.regs.read 0x0BD).getLsbD 5 = true → ∀ mod : Int,
      opOut c 14 mod = value 14 ((if x then 512 else 0) + if (x ^^ nb) then 0xD0 else 0x34) mod ∧
      opOut c 15 mod = value 15 ((if h 8 then 512 else 0) + if (h 8 ^^ nb) then 256 else 0) mod ∧
      opOut c 17 mod = value 17 ((if x then 512 else 0) + 0x80) mod) ∧
    (panChan .hatSnare = 7 ∧ unitOut c .hatSnare = 2 * (opOut c 14 0 + opOut c 15 0)) ∧
    (panChan .tomCymbal = 8 ∧ unitOut c .tomCymbal = 2 * (opOut c 16 0 + opOut c 17 0)) ∧
    ∀ o : Fin 36, o.val < 18 → c.nextSample.ops[o].acc = c.ops[o].acc + phaseInc c.regs c.vibPos o

/-- R113, R203, R204: the combined attenuation, from the total level, the key-scale level and the tremolo. -/
def Obligations.CombinedAttenuation : Prop :=
  ∀ (m : RegFile) (pos : Nat) (o : Fin 36) (att : Nat),
    let rom : Nat := [0, 32, 40, 45, 48, 51, 53, 55, 56, 58, 59, 60, 61, 62, 63, 64].getD (fnum m (chanOf o) / 64) 0
    let base : Int := max 0 ((rom : Int) * 4 - (8 - (block m (chanOf o) : Int)) * 32)
    let shift : Nat := [8, 1, 2, 0].getD (ksl m o) 0
    base ≤ 224 ∧ (totalAtt m pos o att : Int) =
      min 511 ((att : Int) + 4 * (tl m o : Int) + base / 2 ^ shift + if am m o then (tremolo m pos : Int) else 0)

/-- R240, R243, R244: the output of a 2-operator unit, a 4-operator unit and the bass drum from their operators' outputs
by the connection bits, bit 0 of a channel's 0xC0, and the channel that routes each; the second channel of an active pair
uses the first one's frequency and key fields. -/
def Obligations.UnitOutputs : Prop :=
  (∀ (m : RegFile) (ch : Fin 18), cnt m ch = (m.read (chAddr 0xC0 ch)).getLsbD 0) ∧
  ∀ c : Chip,
    (∀ ch : Fin 18, panChan (.twoOp ch) = ch ∧ unitOut c (.twoOp ch) =
      if cnt c.regs ch then opOut c (firstOp ch) (fbMod c ch) + opOut c (secondOp ch) 0
      else opOut c (secondOp ch) (opOut c (firstOp ch) (fbMod c ch))) ∧
    (∀ k : Fin 6,
      let a := pairFirst k
      let b := pairSecond k
      let v1 := opOut c (firstOp a) (fbMod c a)
      panChan (.fourOp k) = a ∧
      (pairActive c.regs k = true →
        fnum c.regs b = fnum c.regs a ∧ block c.regs b = block c.regs a ∧ kon c.regs b = kon c.regs a) ∧
      (cnt c.regs a = false → cnt c.regs b = false → unitOut c (.fourOp k) =
        opOut c (secondOp b) (opOut c (firstOp b) (opOut c (secondOp a) v1))) ∧
      (cnt c.regs a = true → cnt c.regs b = false → unitOut c (.fourOp k) =
        v1 + opOut c (secondOp b) (opOut c (firstOp b) (opOut c (secondOp a) 0))) ∧
      (cnt c.regs a = false → cnt c.regs b = true → unitOut c (.fourOp k) =
        opOut c (secondOp a) v1 + opOut c (secondOp b) (opOut c (firstOp b) 0)) ∧
      (cnt c.regs a = true → cnt c.regs b = true → unitOut c (.fourOp k) =
        v1 + opOut c (firstOp b) (opOut c (secondOp a) 0) + opOut c (secondOp b) 0)) ∧
    (panChan .bassDrum = 6 ∧
      unitOut c .bassDrum = 2 * opOut c 13 (if cnt c.regs 6 then 0 else opOut c 12 (fbMod c 6)))

/-- R232, and the grouping of 44_channel_synthesis R230: the units of a sample. Pair `k` joins the channels of the table
and is a unit iff NEW and bit `k` of 0x104 are 1; the rhythm units are there iff RHY is 1; a 2-operator unit is every
other synthesised channel; each unit stands once, and together they compute each synthesised channel once and no
other. The mode views that other statements use are the bits named here (R158, R162, R163). -/
def Obligations.UnitsPartitionChannels : Prop :=
  (∀ ch : Fin 18, (firstOp ch).val = 2 * ch.val ∧ (secondOp ch).val = 2 * ch.val + 1) ∧
  (List.finRange 6).map pairFirst = [0, 1, 2, 9, 10, 11] ∧
  (List.finRange 6).map pairSecond = [3, 4, 5, 12, 13, 14] ∧
  ∀ m : RegFile,
    let active : Fin 6 → Prop := fun k => (m.read 0x105).getLsbD 0 = true ∧ (m.read 0x104).getLsbD k.val = true
    let rhythm : Prop := (m.read 0x0BD).getLsbD 5 = true
    newMode m = (m.read 0x105).getLsbD 0 ∧ rhy m = (m.read 0x0BD).getLsbD 5 ∧
    (∀ k : Fin 6, pairActive m k = true ↔ active k) ∧
    (∀ ch : Fin 18, synthesised m ch = true ↔ (m.read 0x105).getLsbD 0 = true ∨ ch.val < 9) ∧
    (∀ o : Fin 36, (chanOf o).val = o.val / 2) ∧
    (∀ k : Fin 6, .fourOp k ∈ unitsOf m ↔ active k) ∧
    (.bassDrum ∈ unitsOf m ↔ rhythm) ∧ (.hatSnare ∈ unitsOf m ↔ rhythm) ∧ (.tomCymbal ∈ unitsOf m ↔ rhythm) ∧
    (∀ ch : Fin 18, .twoOp ch ∈ unitsOf m ↔
      ((m.read 0x105).getLsbD 0 = true ∨ ch.val < 9) ∧ (∀ k, active k → ch ≠ pairFirst k ∧ ch ≠ pairSecond k) ∧
      ¬ (rhythm ∧ 6 ≤ ch.val ∧ ch.val ≤ 8)) ∧
    (unitsOf m).Nodup ∧
    ((unitsOf m).flatMap unitChannels).Perm ((List.finRange 18).filter (fun ch => synthesised m ch))

/-- R241, R242: the feedback modulation, at most 2042 in magnitude after outputs in -4084..4084, and the history after a
sample: the last output moves to second place, and the sample's output of the channel's first operator takes the first,
that operator being modulated as its unit and the connection bits, bit 0 of a channel's 0xC0, say. -/
def Obligations.FeedbackHistory : Prop :=
  (∀ (m : RegFile) (ch : Fin 18), cnt m ch = (m.read (chAddr 0xC0 ch)).getLsbD 0) ∧
  (∀ (c : Chip) (ch : Fin 18),
    fbMod c ch =
      if (c.regs.read (chAddr 0xC0 ch)).toNat / 2 % 8 = 0 then 0
      else (c.fb[ch].fb1 + c.fb[ch].fb2) / 2 ^ (9 - (c.regs.read (chAddr 0xC0 ch)).toNat / 2 % 8)) ∧
  (∀ (c : Chip) (ch : Fin 18), |c.fb[ch].fb1| ≤ 4084 → |c.fb[ch].fb2| ≤ 4084 → |fbMod c ch| ≤ 2042) ∧
  ∀ s : State, ∃ t, exec (.gen 1) s = .next t ∧
    let c := s.chip
    let rhythm : Prop := (c.regs.read 0x0BD).getLsbD 5 = true
    (∀ ch : Fin 18, newMode c.regs = true ∨ ch.val < 9 → t.chip.fb[ch].fb2 = c.fb[ch].fb1) ∧
    (∀ k : Fin 6, pairActive c.regs k = true →
      let a := pairFirst k
      let b := pairSecond k
      t.chip.fb[b].fb1 = opOut c (firstOp b)
        (if cnt c.regs b = true ∧ cnt c.regs a = false then 0
        else opOut c (secondOp a) (if cnt c.regs a then 0 else opOut c (firstOp a) (fbMod c a)))) ∧
    (rhythm → t.chip.fb[(7 : Fin 18)].fb1 = opOut c 14 0 ∧ t.chip.fb[(8 : Fin 18)].fb1 = opOut c 16 0) ∧
    (∀ ch : Fin 18, newMode c.regs = true ∨ ch.val < 9 → (∀ k, pairActive c.regs k = true → ch ≠ pairSecond k) →
      ¬ (rhythm ∧ (ch = 7 ∨ ch = 8)) → t.chip.fb[ch].fb1 = opOut c (firstOp ch) (fbMod c ch))

/-- R246: the sums of a sample are over all its units, each added to the left where its channel's CHA is 1 and to the
right where its CHB is 1, to both with NEW = 0. -/
def Obligations.SampleSumsRouteUnits : Prop :=
  ∀ c : Chip,
    leftSum c = ((unitsOf c.regs).map (fun u =>
      if newMode c.regs = false ∨ (c.regs.read (chAddr 0xC0 (panChan u))).getLsbD 4 = true
      then unitOut c u else 0)).sum ∧
    rightSum c = ((unitsOf c.regs).map (fun u =>
      if newMode c.regs = false ∨ (c.regs.read (chAddr 0xC0 (panChan u))).getLsbD 5 = true
      then unitOut c u else 0)).sum

/-- The sums of a sample are below 2^19 in magnitude, each unit's output being at most 16336, which only a doubled rhythm
pair can reach (the inference that the spec marks as its own in 44_channel_synthesis R248). -/
def Obligations.SampleSumsAreBounded : Prop :=
  ∀ c : Chip,
    (∀ u : SynthUnit, |unitOut c u| ≤ 16336 ∧ (u ≠ .hatSnare → u ≠ .tomCymbal → |unitOut c u| < 16336)) ∧
    |leftSum c| ≤ 294048 ∧ |rightSum c| ≤ 294048

/-! ## The output stage and the Virtual Mixer -/

/-- R284: `cvt` answers the host's buffer scaled by the gain, rounded down and saturated, and changes nothing else. -/
def Obligations.ConvertScalesAndSaturates : Prop :=
  ∀ s : State, ∃ frames, exec .cvt s = .next { s with host := { s.host with out := s.host.out ++ [.pcm frames] } } ∧
    frames.length = s.host.buf.length ∧
    ∀ (k : Nat) (x : AccFrame), s.host.buf[k]? = some x → ∃ f, frames[k]? = some f ∧
      f.l.toInt = min 32767 (max (-32768) (x.l.toInt * s.params.outGainPct / 100)) ∧
      f.r.toInt = min 32767 (max (-32768) (x.r.toInt * s.params.outGainPct / 100)) ∧
      (s.params.outGainPct = 100 → |x.l.toInt| ≤ 32767 → |x.r.toInt| ≤ 32767 →
        f.l.toInt = x.l.toInt ∧ f.r.toInt = x.r.toInt)

/-- R288, R289: `malloc` takes the lowest free index, empties its FIFO and resets its volume and pan, leaving the other
channels; a full pool answers NONE and changes nothing; `mrel` frees its channel and empties its FIFO, and leaves
everything else. -/
def Obligations.AllocateTakesLowestFree : Prop :=
  (∀ (s : State) (i : Fin 64), s.mixer.chans[i].allocated = false →
    (∀ j : Fin 64, j < i → s.mixer.chans[j].allocated = true) →
    ∃ t, exec .mixAlloc s = .next t ∧ t.host.out = s.host.out ++ [.index (some i)] ∧
      t.mixer.chans[i] =
        { s.mixer.chans[i] with allocated := true, wr := 0, rd := 0, vol := 32768, pan := 0 } ∧
      (∀ j : Fin 64, j ≠ i → t.mixer.chans[j] = s.mixer.chans[j]) ∧ t.mixer.normalize = s.mixer.normalize ∧
      t.chip = s.chip ∧ t.params = s.params ∧ t.host.buf = s.host.buf ∧ t.host.pending = s.host.pending) ∧
  (∀ s : State, (∀ i : Fin 64, s.mixer.chans[i].allocated = true) →
    exec .mixAlloc s = .next { s with host := { s.host with out := s.host.out ++ [.index none] } }) ∧
  (∀ (s : State) (i : Fin 64), ∃ t, exec (.mixRelease i) s = .next t ∧
    t.mixer.chans[i] = { s.mixer.chans[i] with allocated := false, wr := 0, rd := 0 } ∧
    (∀ j : Fin 64, j ≠ i → t.mixer.chans[j] = s.mixer.chans[j]) ∧
    t.mixer.normalize = s.mixer.normalize ∧ t.chip = s.chip ∧ t.params = s.params ∧ t.host = s.host)

/-- R290, R291: `mwr` stores its frames at the write cursor and moves it, where the channel is allocated and they fit;
else it is dropped whole. -/
def Obligations.MixWriteAppendsOrDrops : Prop :=
  (∀ (s : State) (i : Fin 64) (frames : List Frame), s.mixer.chans[i].allocated = true →
    s.mixer.chans[i].wr + frames.length ≤ s.params.mixCap →
    ∃ t, exec (.mixWrite i frames) s = .next t ∧
      t.mixer.chans[i].wr = s.mixer.chans[i].wr + frames.length ∧
      (∀ j f, frames[j]? = some f → t.mixer.chans[i].buf.getD (s.mixer.chans[i].wr + j) ⟨0, 0⟩ = f) ∧
      (∀ j, j < s.mixer.chans[i].wr ∨ s.mixer.chans[i].wr + frames.length ≤ j →
        t.mixer.chans[i].buf.getD j ⟨0, 0⟩ = s.mixer.chans[i].buf.getD j ⟨0, 0⟩) ∧
      t.mixer.chans[i].allocated = true ∧ t.mixer.chans[i].rd = s.mixer.chans[i].rd ∧
      t.mixer.chans[i].vol = s.mixer.chans[i].vol ∧ t.mixer.chans[i].pan = s.mixer.chans[i].pan ∧
      (∀ j : Fin 64, j ≠ i → t.mixer.chans[j] = s.mixer.chans[j]) ∧
      t.mixer.normalize = s.mixer.normalize ∧ t.chip = s.chip ∧ t.params = s.params ∧ t.host = s.host) ∧
  (∀ (s : State) (i : Fin 64) (frames : List Frame),
    s.mixer.chans[i].allocated = false ∨ s.params.mixCap < s.mixer.chans[i].wr + frames.length →
    exec (.mixWrite i frames) s = .next s)

/-- R292, R293, R294: `mvol`, `mpan` and `mnorm` set the level, clamped, or the flag, and leave everything else. -/
def Obligations.MixerSettingsAreClamped : Prop :=
  ∀ (s : State) (i : Fin 64) (x : Int) (b : Bool),
    (∃ t, exec (.mixVol i x) s = .next t ∧ (t.mixer.chans[i].vol : Int) = min 32768 (max 0 x) ∧
      { t.mixer.chans[i] with vol := s.mixer.chans[i].vol } = s.mixer.chans[i] ∧
      (∀ j : Fin 64, j ≠ i → t.mixer.chans[j] = s.mixer.chans[j]) ∧
      t.mixer.normalize = s.mixer.normalize ∧ t.chip = s.chip ∧ t.params = s.params ∧ t.host = s.host) ∧
    (∃ t, exec (.mixPan i x) s = .next t ∧ t.mixer.chans[i].pan = min 32768 (max (-32768) x) ∧
      { t.mixer.chans[i] with pan := s.mixer.chans[i].pan } = s.mixer.chans[i] ∧
      (∀ j : Fin 64, j ≠ i → t.mixer.chans[j] = s.mixer.chans[j]) ∧
      t.mixer.normalize = s.mixer.normalize ∧ t.chip = s.chip ∧ t.params = s.params ∧ t.host = s.host) ∧
    exec (.mixNorm b) s = .next { s with mixer := { s.mixer with normalize := b } }

/-- R295, R296, R298: a pass answers as many frames as the largest unread count of an allocated channel, each the sum of
the channels' next frames scaled by volume and the linear pan law, divided once by the divisor, rounded down and
saturated, and empties every allocated channel. -/
def Obligations.MixPassSumsAndDrains : Prop :=
  ∀ s : State, ∃ t frames, exec .mix s = .next t ∧ t.host.out = s.host.out ++ [.pcm frames] ∧
    frames.length = Finset.univ.sup (fun i : Fin 64 =>
      if s.mixer.chans[i].allocated then s.mixer.chans[i].wr - s.mixer.chans[i].rd else 0) ∧
    (let d : Int := if s.mixer.normalize then
        ((Finset.univ.filter (fun i : Fin 64 => s.mixer.chans[i].allocated = true)).card : Int) else 1
      ∀ k f, frames[k]? = some f →
        f.l.toInt = min 32767 (max (-32768) ((∑ i : Fin 64,
          if s.mixer.chans[i].allocated = true ∧ s.mixer.chans[i].rd + k < s.mixer.chans[i].wr then
            (s.mixer.chans[i].buf.getD (s.mixer.chans[i].rd + k) ⟨0, 0⟩).l.toInt * (s.mixer.chans[i].vol : Int) *
              min 32768 (32768 - s.mixer.chans[i].pan)
          else 0) / (d * 2 ^ 30))) ∧
        f.r.toInt = min 32767 (max (-32768) ((∑ i : Fin 64,
          if s.mixer.chans[i].allocated = true ∧ s.mixer.chans[i].rd + k < s.mixer.chans[i].wr then
            (s.mixer.chans[i].buf.getD (s.mixer.chans[i].rd + k) ⟨0, 0⟩).r.toInt * (s.mixer.chans[i].vol : Int) *
              min 32768 (32768 + s.mixer.chans[i].pan)
          else 0) / (d * 2 ^ 30)))) ∧
    (∀ i : Fin 64, t.mixer.chans[i] =
      if s.mixer.chans[i].allocated then { s.mixer.chans[i] with wr := 0, rd := 0 } else s.mixer.chans[i]) ∧
    t.mixer.normalize = s.mixer.normalize ∧ t.chip = s.chip ∧ t.params = s.params ∧
    t.host.buf = s.host.buf ∧ t.host.pending = s.host.pending

/-- Two allocated channels with one frame each at pan 0 mix to the volume-weighted sum, divided by two under normalisation
before it saturates (the inference from R295 and R296 that the spec marks as its own in 46_generate_and_mixer R299). -/
def Obligations.MixerSummationLaw : Prop :=
  ∀ (s : State) (i j : Fin 64) (f g : Frame), i ≠ j →
    (∀ k : Fin 64, s.mixer.chans[k].allocated = true ↔ k = i ∨ k = j) →
    s.mixer.chans[i].wr = s.mixer.chans[i].rd + 1 → s.mixer.chans[j].wr = s.mixer.chans[j].rd + 1 →
    s.mixer.chans[i].buf[s.mixer.chans[i].rd]? = some f → s.mixer.chans[j].buf[s.mixer.chans[j].rd]? = some g →
    s.mixer.chans[i].pan = 0 → s.mixer.chans[j].pan = 0 →
    ∃ t out, exec .mix s = .next t ∧ t.host.out = s.host.out ++ [.pcm [out]] ∧
      out.l.toInt = min 32767 (max (-32768)
        ((f.l.toInt * (s.mixer.chans[i].vol : Int) + g.l.toInt * (s.mixer.chans[j].vol : Int)) /
          ((if s.mixer.normalize then 2 else 1) * 32768))) ∧
      out.r.toInt = min 32767 (max (-32768)
        ((f.r.toInt * (s.mixer.chans[i].vol : Int) + g.r.toInt * (s.mixer.chans[j].vol : Int)) /
          ((if s.mixer.normalize then 2 else 1) * 32768)))

/-! ## Reset and whole-machine rules -/

/-- R370: `reset` completes, gives every piece of block state its reset value and leaves the host's side untouched. -/
def Obligations.ResetTransaction : Prop :=
  ∀ s : State, ∃ t, exec .reset s = .next t ∧
    (∀ a, t.chip.regs.read a = 0) ∧ t.chip.regs.wf = true ∧
    (∀ o : Fin 36, t.chip.ops[o] = ⟨.off, 511, 0⟩) ∧ (∀ ch : Fin 18, t.chip.fb[ch] = ⟨0, 0⟩) ∧
    t.chip.sampleCounter = 0 ∧ t.chip.tremPos = 0 ∧ t.chip.vibPos = 0 ∧ t.chip.noise = 1 ∧
    (∀ i : Fin 64, t.mixer.chans[i].allocated = false ∧ t.mixer.chans[i].vol = 32768 ∧ t.mixer.chans[i].pan = 0 ∧
      t.mixer.chans[i].wr = 0 ∧ t.mixer.chans[i].rd = 0) ∧
    t.mixer.normalize = s.params.normalizeReset ∧ t.params = s.params ∧ t.host = s.host

/-- R40: the state right after reset, OPL2 mode, rhythm off, no pair active and every key level 0, with the default
parameters of 00_scope R7. -/
def Obligations.ResetState : Prop :=
  State.reset.params = ⟨65536, 100, false, false⟩ ∧
  (∀ a, State.reset.chip.regs.read a = 0) ∧
  (∀ o : Fin 36, State.reset.chip.ops[o] = ⟨.off, 511, 0⟩) ∧
  (∀ ch : Fin 18, State.reset.chip.fb[ch] = ⟨0, 0⟩) ∧
  State.reset.chip.sampleCounter = 0 ∧ State.reset.chip.tremPos = 0 ∧ State.reset.chip.vibPos = 0 ∧
  State.reset.chip.noise = 1 ∧
  (∀ i : Fin 64, State.reset.mixer.chans[i].allocated = false ∧ State.reset.mixer.chans[i].vol = 32768 ∧
    State.reset.mixer.chans[i].pan = 0 ∧ State.reset.mixer.chans[i].wr = 0 ∧ State.reset.mixer.chans[i].rd = 0) ∧
  State.reset.mixer.normalize = false ∧
  newMode State.reset.chip.regs = false ∧ rhy State.reset.chip.regs = false ∧
  (∀ k : Fin 6, pairActive State.reset.chip.regs k = false) ∧
  (∀ o : Fin 36, keyLevel State.reset.chip.regs o = false)

/-- The chip and the Virtual Mixer are separate: a mixer transaction changes no chip state, no other transaction but
`reset` changes the mixer, the mixer's answers do not depend on the chip, and no transaction changes a parameter. -/
def Obligations.ChipAndMixerAreSeparate : Prop :=
  (∀ (i : Instr) (s t : State), isMixerInstr i = true → exec i s = .next t → t.chip = s.chip) ∧
  (∀ (i : Instr) (s t : State), isMixerInstr i = false → i ≠ .reset → exec i s = .next t → t.mixer = s.mixer) ∧
  (∀ (i : Instr) (s : State) (c : Chip), isMixerInstr i = true →
    ∃ t, exec i s = .next t ∧ exec i { s with chip := c } = .next { t with chip := c }) ∧
  (∀ (i : Instr) (s t : State), exec i s = .next t → t.params = s.params ∧ t.host.pending = s.host.pending)

/-- R152, R166: a write to a timer register or to an unassigned address stores its byte and changes nothing else, and
the byte is read by no rule: two states that differ only in such bytes answer every transaction alike and go on differing
only there. -/
def Obligations.UnreadRegistersAreNeverObserved : Prop :=
  (∀ (i : Instr) (a : Nat) (v : Byte) (s : State), WellFormed i = true → regWrite i = some (a, v) → readByNoRule a →
    exec i s = .next { s with chip := { s.chip with regs := s.chip.regs.write a v } }) ∧
  (∀ (i : Instr) (s s' : State), SameButUnread s s' →
    ∃ t t', exec i s = .next t ∧ exec i s' = .next t' ∧ SameButUnread t t')

/-- The machine at reset meets the invariant (10_state R40). -/
def Obligations.ResetMeetsInvariant : Prop := Inv State.reset

/-- Every step keeps the invariant: the canonical form of the register space, attenuations in 0..511 with OFF at 511,
outputs in -4084..4084, LFO positions and mixer levels in their ranges, the noise register non-zero, the FIFO cursors in
order within the capacity (that outputs stay in their range and that noise never dies are inferences that the spec
marks as its own in R212 and R266). -/
def Obligations.StepKeepsInvariant : Prop :=
  ∀ s t : State, Inv s → step s = .next t → Inv t
end

