-- ==== Sys2Proof/Laws/Bits.lean ====
section
/-! SUPPORT. The laws of the primitives of 00_scope R10 and R11 and of tabulated vectors. -/

namespace Sys2Proof

@[simp] theorem tabulate_getElem {α : Type} {n : Nat} (f : Fin n → α) (i : Nat) (h : i < n) :
    (tabulate n f)[i] = f ⟨i, h⟩ := by
  simp [tabulate]

/-- A field that starts at bit 0. -/
theorem bitsOf_low (v k : Nat) : bitsOf v k 0 = v % 2 ^ (k + 1) := by simp [bitsOf]

/-- The model's bit of a byte is the bit vector's bit. -/
theorem bitOf_eq_getLsbD (v : Byte) (i : Nat) : bitOf v i = v.getLsbD i := by
  rw [← BitVec.testBit_toNat, bitOf, Nat.testBit_eq_decide_div_mod_eq, beq_eq_decide]

/-- Words that agree under a mask agree on every field inside it. -/
theorem bitsOf_eq_of_and {w w' m : Word} (h : w &&& m = w' &&& m) (hi lo : Nat)
    (hm : ∀ j, lo ≤ j → j ≤ hi → m.getLsbD j = true) : bitsOf w.toNat hi lo = bitsOf w'.toNat hi lo := by
  apply Nat.eq_of_testBit_eq
  intro j
  simp only [bitsOf, Nat.testBit_mod_two_pow, Nat.testBit_div_two_pow, BitVec.testBit_toNat]
  by_cases hj : j < hi + 1 - lo
  · have := congrArg (fun x : Word => x.getLsbD (j + lo)) h
    simp only [BitVec.getLsbD_and, hm (j + lo) (by omega) (by omega), Bool.and_true] at this
    simp [hj, this]
  · simp [hj]

theorem bitsOf_lt (v hi lo : Nat) : bitsOf v hi lo < 2 ^ (hi + 1 - lo) := Nat.mod_lt _ (by positivity)

/-- A saturated value is in the int16 range. -/
theorem clamp16_range (x : Int) : -32768 ≤ clamp16 x ∧ clamp16 x ≤ 32767 := by
  unfold clamp16; omega

/-- The int16 of a saturated value is that value. -/
@[simp] theorem toPcm_clamp16 (x : Int) : (toPcm (clamp16 x)).toInt = clamp16 x := by
  have := clamp16_range x
  rw [toPcm, BitVec.toInt_ofInt, Int.bmod_eq_of_le] <;> omega

/-- A word's serialised form spells that word (92_eei_decisions D36). -/
theorem bytesWords_wordBytes (w : Word) (rest : List Byte) :
    bytesWords (wordBytes w ++ rest) = w :: bytesWords rest := by
  simp only [wordBytes, List.cons_append, List.nil_append, bytesWords, List.cons.injEq, and_true]
  apply BitVec.eq_of_toNat_eq
  simp only [BitVec.toNat_ofNat]
  have := w.isLt
  omega

end Sys2Proof
end

