-- ==== Sys2Proof/Laws/Decode.lean ====
section
/-! SUPPORT. What the encoder's words hold, field by field (30_encoding R81), and the length of an encoding. -/

namespace Sys2Proof

theorem wordW_toNat {a : Nat} (v : Byte) (ha : a < 2 ^ 16) : (wordW a v).toNat = a * 2 ^ 8 + v.toNat := by
  have := v.isLt
  simp only [wordW, BitVec.toNat_ofNat]
  omega

theorem wordCmd_toNat {cmd fields : Nat} (hc : cmd < 2 ^ 4) (hf : fields < 2 ^ 28) :
    (wordCmd cmd fields).toNat = cmd * 2 ^ 28 + fields := by
  simp only [wordCmd, BitVec.toNat_ofNat]
  omega

/-- A frame word holds its frame. -/
@[simp] theorem frameOfWord_wordOfFrame (f : Frame) : frameOfWord (wordOfFrame f) = f := by
  obtain ⟨l, r⟩ := f
  have hl := l.isLt
  have hr := r.isLt
  simp only [frameOfWord, wordOfFrame, BitVec.toNat_ofNat, bitsOf, Frame.mk.injEq]
  constructor <;> apply BitVec.eq_of_toNat_eq <;> simp only [BitVec.toNat_ofNat] <;> omega

theorem opAddr_lt (base : Nat) (o : Fin 36) (h : base ≤ 0xE0) : opAddr base o < 512 := by
  have := o.isLt
  simp only [opAddr, opOffset]
  omega

theorem chAddr_lt (base : Nat) (ch : Fin 18) (h : base ≤ 0xC0) : chAddr base ch < 512 := by
  have := ch.isLt
  simp only [chAddr]
  omega

/-- A property of every register address, checked in blocks of sixteen. -/
theorem forall_addr {P : BitVec 9 → Prop}
    (h : ∀ (hi : Fin 32) (lo : Fin 16), P (BitVec.ofNat 9 (16 * hi.val + lo.val))) (a : BitVec 9) : P a := by
  have ha := a.isLt
  have := h ⟨a.toNat / 16, by omega⟩ ⟨a.toNat % 16, by omega⟩
  rwa [show 16 * (a.toNat / 16) + a.toNat % 16 = a.toNat by omega, BitVec.ofNat_toNat, BitVec.setWidth_eq] at this

/-- The class of an operator register's address (30_encoding R88, R92). -/
theorem classOf_opAddr : ∀ o : Fin 36,
    classOf (BitVec.ofNat 9 (opAddr 0x20 o)) = .op20 o ∧ classOf (BitVec.ofNat 9 (opAddr 0x40 o)) = .op40 o ∧
    classOf (BitVec.ofNat 9 (opAddr 0x60 o)) = .op60 o ∧ classOf (BitVec.ofNat 9 (opAddr 0x80 o)) = .op80 o ∧
    classOf (BitVec.ofNat 9 (opAddr 0xE0 o)) = .opE0 o := by decide

/-- The class of a channel register's address (30_encoding R90, R92). -/
theorem classOf_chAddr : ∀ ch : Fin 18,
    classOf (BitVec.ofNat 9 (chAddr 0xA0 ch)) = .chA0 ch ∧ classOf (BitVec.ofNat 9 (chAddr 0xB0 ch)) = .chB0 ch ∧
    classOf (BitVec.ofNat 9 (chAddr 0xC0 ch)) = .chC0 ch := by decide

/-- The address that a class stands for, where it stands for one (30_encoding R87). -/
def isAddrOf (a : Nat) : RegClass → Bool
  | .op20 o => opAddr 0x20 o == a
  | .op40 o => opAddr 0x40 o == a
  | .op60 o => opAddr 0x60 o == a
  | .op80 o => opAddr 0x80 o == a
  | .opE0 o => opAddr 0xE0 o == a
  | .chA0 ch => chAddr 0xA0 ch == a
  | .chB0 ch => chAddr 0xB0 ch == a
  | .chC0 ch => chAddr 0xC0 ch == a
  | .wse => 0x001 == a
  | .timer1 => 0x002 == a
  | .timer2 => 0x003 == a
  | .timerControl => 0x004 == a
  | .csmNts => 0x008 == a
  | .rhythm => 0x0BD == a
  | .connection => 0x104 == a
  | .newMode => 0x105 == a
  | .unassigned => true

/-- A register address is the address of its class (30_encoding R87). -/
theorem isAddrOf_classOf : ∀ a : BitVec 9, isAddrOf a.toNat (classOf a) = true := forall_addr (by decide +kernel)

/-- A word of format W decodes to the write of its address (30_encoding R81, R87). -/
theorem decode_wordW (a : Nat) (v : Byte) (ws : List Word) (ha : a < 512) :
    decode (wordW a v :: ws) = .ok (writeInstr (BitVec.ofNat 9 a) v, ws) := by
  have h := wordW_toNat v (show a < 2 ^ 16 by omega)
  have hv := v.isLt
  have h0 : bitsOf (wordW a v).toNat 31 28 = 0 := by rw [h]; simp only [bitsOf]; omega
  have h1 : bitsOf (wordW a v).toNat 23 8 = a := by rw [h]; simp only [bitsOf]; omega
  have h2 : bitsOf (wordW a v).toNat 7 0 = v.toNat := by rw [h]; simp only [bitsOf]; omega
  simp only [decode, h0, decodeW, h1, h2, BitVec.ofNat_toNat, BitVec.setWidth_eq]

/-- The command code and the fields of a command word (30_encoding R80). -/
theorem wordCmd_bits {cmd fields : Nat} (hc : cmd < 16) (hf : fields < 2 ^ 28) :
    bitsOf (wordCmd cmd fields).toNat 31 28 = cmd ∧
    ∀ hi lo, hi < 28 → bitsOf (wordCmd cmd fields).toNat hi lo = bitsOf fields hi lo := by
  rw [wordCmd_toNat (show cmd < 2 ^ 4 by omega) hf]
  constructor
  · simp only [bitsOf]; omega
  · intro hi lo hlt
    apply Nat.eq_of_testBit_eq
    intro j
    simp only [bitsOf, Nat.testBit_mod_two_pow, Nat.testBit_div_two_pow]
    by_cases hj : j < hi + 1 - lo
    · rw [show cmd * 2 ^ 28 + fields = 2 ^ 28 * cmd + fields by ring, Nat.testBit_two_pow_mul_add _ hf]
      simp [hj, show j + lo < 28 by omega]
    · simp [hj]

/-- The 17-bit value of format MV survives its field (30_encoding R81). -/
theorem sextOf_emod (v : Int) (h : -65536 ≤ v ∧ v < 65536) : sextOf 17 ((v % 2 ^ 17).toNat % 2 ^ 17) = v := by
  unfold sextOf
  split <;> omega

/-- A decoded write is well formed and takes one word. -/
theorem writeInstr_wf (a : BitVec 9) (v : Byte) :
    WellFormed (writeInstr a v) = true ∧ wordCount (writeInstr a v) = 1 := by
  unfold writeInstr
  split <;> simp [WellFormed, wordCount, *]

end Sys2Proof
end

