-- ==== Sys2Proof/Laws/RegFile.lean ====
section
/-! SUPPORT. The laws of the register space: a read after a write, the canonical form kept, equal contents equal data. -/

namespace Sys2Proof.Machine

/-- An address below the first cell of a file whose addresses start at `lo` reads blank. -/
theorem RegFile.read_below {lo a : Nat} {m : RegFile} (hm : RegFile.wfFrom lo m = true) (ha : a < lo) :
    RegFile.read m a = RegFile.blank := by
  cases m with
  | nil => rfl
  | cons c rest =>
    obtain ⟨b, v⟩ := c
    simp only [RegFile.wfFrom, Bool.and_eq_true, decide_eq_true_eq] at hm
    simp [RegFile.read, show a < b by omega]

theorem RegFile.read_cell_append (a b : Nat) (v : Byte) (m : RegFile)
    (hm : a ≤ b → RegFile.read m b = RegFile.blank ∨ a ≠ b) :
    RegFile.read (RegFile.cell a v ++ m) b =
      if b < a then (if v = RegFile.blank then RegFile.read m b else RegFile.blank)
      else if b = a then v else RegFile.read m b := by
  by_cases hv : v = RegFile.blank
  · subst hv
    simp only [RegFile.cell, if_true, List.nil_append]
    split
    · rfl
    · split
      · have := hm (by omega); simp_all
      · rfl
  · simp [RegFile.cell, hv, RegFile.read]

/-- Dropping the cells up to `a` leaves every read beyond `a` as it was. -/
theorem RegFile.read_dropWhile {a b : Nat} (h : a < b) (m : RegFile) :
    RegFile.read (m.dropWhile (fun c => c.1 ≤ a)) b = RegFile.read m b := by
  induction m with
  | nil => rfl
  | cons c rest ih =>
    by_cases hc : c.1 ≤ a
    · rw [List.dropWhile_cons_of_pos (by simpa using hc), ih, RegFile.read]
      simp [show ¬ b < c.1 by omega, show b ≠ c.1 by omega]
    · rw [List.dropWhile_cons_of_neg (by simpa using hc)]

/-- Dropping the cells up to `a` leaves nothing to read at or below `a`. -/
theorem RegFile.read_dropWhile_le {a b : Nat} (h : b ≤ a) (m : RegFile) :
    RegFile.read (m.dropWhile (fun c => c.1 ≤ a)) b = RegFile.blank := by
  induction m with
  | nil => rfl
  | cons c rest ih =>
    by_cases hc : c.1 ≤ a
    · rw [List.dropWhile_cons_of_pos (by simpa using hc), ih]
    · rw [List.dropWhile_cons_of_neg (by simpa using hc), RegFile.read]
      simp [show b < c.1 by omega]

/-- What every byte reads after a write (10_state R21): the byte written at its address, the old byte elsewhere. -/
theorem RegFile.read_write (m : RegFile) (a b : Nat) (v : Byte) :
    RegFile.read (RegFile.write m a v) b = if b = a then v else RegFile.read m b := by
  induction m with
  | nil =>
    have := RegFile.read_cell_append a b v [] (by simp [RegFile.read])
    rw [RegFile.write]
    simp only [List.append_nil] at this
    rw [this]
    simp only [RegFile.read]
    repeat' split
    all_goals first | omega | rfl
  | cons c rest ih =>
    obtain ⟨k, x⟩ := c
    rw [RegFile.write]
    split
    · rename_i hak
      rw [RegFile.read_cell_append a b v _ (by
        intro _; rw [RegFile.read]; by_cases hb : a = b
        · left; simp [show b < k by omega]
        · right; exact hb)]
      simp only [RegFile.read]
      split <;> repeat' split
      all_goals first | omega | rfl
    · rename_i hak
      split
      · rename_i heq
        rw [RegFile.read_cell_append a b v _ (by
          intro hab; by_cases hb : a = b
          · left; exact RegFile.read_dropWhile_le (by omega) rest
          · right; exact hb)]
        simp only [RegFile.read]
        by_cases h1 : b < a
        · rw [RegFile.read_dropWhile_le (by omega)]
          simp [h1, show b < k by omega, show b ≠ a by omega]
        · by_cases h2 : b = a
          · simp [h2]
          · rw [RegFile.read_dropWhile (by omega)]
            simp [h1, h2, show ¬ b < k by omega, show b ≠ k by omega]
      · simp only [RegFile.read, ih]
        repeat' split
        all_goals first | omega | rfl

@[simp] theorem RegFile.read_write_same (m : RegFile) (a : Nat) (v : Byte) :
    RegFile.read (RegFile.write m a v) a = v := by simp [RegFile.read_write]

theorem RegFile.read_write_other (m : RegFile) {a b : Nat} (v : Byte) (h : b ≠ a) :
    RegFile.read (RegFile.write m a v) b = RegFile.read m b := by simp [RegFile.read_write, h]

theorem RegFile.wfFrom_mono {lo lo' : Nat} {m : RegFile} (h : lo ≤ lo') (hm : RegFile.wfFrom lo' m = true) :
    RegFile.wfFrom lo m = true := by
  cases m with
  | nil => rfl
  | cons c rest =>
    obtain ⟨b, v⟩ := c
    simp only [RegFile.wfFrom, Bool.and_eq_true, decide_eq_true_eq] at hm ⊢
    exact ⟨⟨⟨by omega, hm.1.1.2⟩, hm.1.2⟩, hm.2⟩

theorem RegFile.wfFrom_cell_append {lo a : Nat} {v : Byte} {m : RegFile} (h1 : lo ≤ a) (h2 : a < 512)
    (hm : RegFile.wfFrom (a + 1) m = true) : RegFile.wfFrom lo (RegFile.cell a v ++ m) = true := by
  unfold RegFile.cell
  split
  · exact RegFile.wfFrom_mono (by omega) hm
  · rename_i hv
    simp [RegFile.wfFrom, h1, h2, hv, hm]

/-- A file whose addresses lie beyond `a` has no cell to drop up to `a`. -/
theorem RegFile.dropWhile_eq {a : Nat} {m : RegFile} (hm : RegFile.wfFrom (a + 1) m = true) :
    m.dropWhile (fun c => c.1 ≤ a) = m := by
  cases m with
  | nil => rfl
  | cons c rest =>
    obtain ⟨b, v⟩ := c
    simp only [RegFile.wfFrom, Bool.and_eq_true, decide_eq_true_eq] at hm
    exact List.dropWhile_cons_of_neg (by simp; omega)

/-- A write keeps the canonical form from `lo` on. -/
theorem RegFile.write_wfFrom {lo a : Nat} {v : Byte} {m : RegFile} (hm : RegFile.wfFrom lo m = true)
    (h1 : lo ≤ a) (h2 : a < 512) : RegFile.wfFrom lo (RegFile.write m a v) = true := by
  induction m generalizing lo with
  | nil => simpa [RegFile.write] using RegFile.wfFrom_cell_append (m := []) h1 h2 rfl
  | cons c rest ih =>
    obtain ⟨b, x⟩ := c
    have hm' := hm
    simp only [RegFile.wfFrom, Bool.and_eq_true, decide_eq_true_eq] at hm
    rw [RegFile.write]
    split
    · refine RegFile.wfFrom_cell_append h1 h2 ?_
      simp only [RegFile.wfFrom, Bool.and_eq_true, decide_eq_true_eq]
      exact ⟨⟨⟨by omega, hm.1.1.2⟩, hm.1.2⟩, hm.2⟩
    · split
      · rename_i heq
        subst heq
        rw [RegFile.dropWhile_eq hm.2]
        exact RegFile.wfFrom_cell_append h1 h2 hm.2
      · simp only [RegFile.wfFrom, Bool.and_eq_true, decide_eq_true_eq]
        exact ⟨⟨⟨hm.1.1.1, hm.1.1.2⟩, hm.1.2⟩, ih hm.2 (by omega)⟩

/-- A write to an address of the register space keeps the canonical form. -/
theorem RegFile.write_wf {a : Nat} {v : Byte} {m : RegFile} (hm : m.wf = true) (h : a < 512) :
    (RegFile.write m a v).wf = true := RegFile.write_wfFrom hm (Nat.zero_le a) h

/-- Two files in canonical form that read alike are the same data. -/
theorem RegFile.ext_of_wfFrom {lo : Nat} {m m' : RegFile} (hm : RegFile.wfFrom lo m = true)
    (hm' : RegFile.wfFrom lo m' = true) (h : ∀ a, RegFile.read m a = RegFile.read m' a) : m = m' := by
  induction m generalizing lo m' with
  | nil =>
    cases m' with
    | nil => rfl
    | cons c rest =>
      obtain ⟨b, v⟩ := c
      have hb := h b
      simp only [RegFile.wfFrom, Bool.and_eq_true, bne_iff_ne] at hm'
      simp only [RegFile.read, lt_irrefl, if_false, if_true] at hb
      exact absurd hb.symm hm'.1.2
  | cons c rest ih =>
    obtain ⟨b, v⟩ := c
    simp only [RegFile.wfFrom, Bool.and_eq_true, decide_eq_true_eq, bne_iff_ne] at hm
    cases m' with
    | nil =>
      have hb := h b
      simp only [RegFile.read, lt_irrefl, if_false, if_true] at hb
      exact absurd hb hm.1.2
    | cons c' rest' =>
      obtain ⟨b', v'⟩ := c'
      simp only [RegFile.wfFrom, Bool.and_eq_true, decide_eq_true_eq, bne_iff_ne] at hm'
      have hb := h b
      have hb' := h b'
      simp only [RegFile.read, lt_irrefl, if_false, if_true] at hb hb'
      have hbb : b = b' := by
        rcases Nat.lt_trichotomy b b' with hlt | heq | hgt
        · simp only [hlt, if_true] at hb
          exact absurd hb hm.1.2
        · exact heq
        · simp only [hgt, if_true] at hb'
          exact absurd hb'.symm hm'.1.2
      subst hbb
      simp only [lt_irrefl, if_false, if_true] at hb
      subst hb
      rw [ih hm.2 hm'.2 (fun a => ?_)]
      have ha := h a
      simp only [RegFile.read] at ha
      by_cases h1 : a < b
      · rw [RegFile.read_below hm.2 (by omega), RegFile.read_below hm'.2 (by omega)]
      · by_cases h2 : a = b
        · rw [RegFile.read_below hm.2 (by omega), RegFile.read_below hm'.2 (by omega)]
        · simpa [h1, h2] using ha

theorem RegFile.ext {m m' : RegFile} (hm : m.wf = true) (hm' : m'.wf = true)
    (h : ∀ a, RegFile.read m a = RegFile.read m' a) : m = m' := RegFile.ext_of_wfFrom hm hm' h

/-- Writing the byte an address holds changes nothing. -/
theorem RegFile.write_read_self {m : RegFile} (hm : m.wf = true) {a : Nat} (h : a < 512) :
    RegFile.write m a (RegFile.read m a) = m := by
  refine RegFile.ext (RegFile.write_wf hm h) hm (fun b => ?_)
  rw [RegFile.read_write]
  split <;> simp_all

end Sys2Proof.Machine
end

