-- ==== Sys2Proof/Laws/State.lean ====
section
/-! SUPPORT. One lemma per field and update of the state, so that no later proof unfolds a record update. -/

namespace Sys2Proof.Machine

section withChip

variable (s : State) (c : Chip)

@[simp] theorem State.withChip_params : (s.withChip c).params = s.params := rfl
@[simp] theorem State.withChip_chip : (s.withChip c).chip = c := rfl
@[simp] theorem State.withChip_mixer : (s.withChip c).mixer = s.mixer := rfl
@[simp] theorem State.withChip_host : (s.withChip c).host = s.host := rfl

end withChip

section withMixer

variable (s : State) (m : Mixer)

@[simp] theorem State.withMixer_params : (s.withMixer m).params = s.params := rfl
@[simp] theorem State.withMixer_chip : (s.withMixer m).chip = s.chip := rfl
@[simp] theorem State.withMixer_mixer : (s.withMixer m).mixer = m := rfl
@[simp] theorem State.withMixer_host : (s.withMixer m).host = s.host := rfl

end withMixer

section withMixChan

variable (s : State) (i : Fin 64) (ch : MixChan)

@[simp] theorem State.withMixChan_params : (s.withMixChan i ch).params = s.params := rfl
@[simp] theorem State.withMixChan_chip : (s.withMixChan i ch).chip = s.chip := rfl
@[simp] theorem State.withMixChan_chans : (s.withMixChan i ch).mixer.chans = s.mixer.chans.set i ch := rfl
@[simp] theorem State.withMixChan_normalize : (s.withMixChan i ch).mixer.normalize = s.mixer.normalize := rfl
@[simp] theorem State.withMixChan_host : (s.withMixChan i ch).host = s.host := rfl

end withMixChan

section answer

variable (s : State) (a : Answer)

@[simp] theorem State.answer_params : (s.answer a).params = s.params := rfl
@[simp] theorem State.answer_chip : (s.answer a).chip = s.chip := rfl
@[simp] theorem State.answer_mixer : (s.answer a).mixer = s.mixer := rfl
@[simp] theorem State.answer_pending : (s.answer a).host.pending = s.host.pending := rfl
@[simp] theorem State.answer_buf : (s.answer a).host.buf = s.host.buf := rfl
@[simp] theorem State.answer_out : (s.answer a).host.out = s.host.out ++ [a] := rfl

end answer

section consume

variable (s : State) (n : Nat)

@[simp] theorem State.consume_params : (s.consume n).params = s.params := rfl
@[simp] theorem State.consume_chip : (s.consume n).chip = s.chip := rfl
@[simp] theorem State.consume_mixer : (s.consume n).mixer = s.mixer := rfl
@[simp] theorem State.consume_pending : (s.consume n).host.pending = s.host.pending.drop n := rfl
@[simp] theorem State.consume_buf : (s.consume n).host.buf = s.host.buf := rfl
@[simp] theorem State.consume_out : (s.consume n).host.out = s.host.out := rfl

end consume

section handOver

variable (s : State) (frames : List AccFrame)

@[simp] theorem State.handOver_params : (s.handOver frames).params = s.params := rfl
@[simp] theorem State.handOver_chip : (s.handOver frames).chip = s.chip := rfl
@[simp] theorem State.handOver_mixer : (s.handOver frames).mixer = s.mixer := rfl
@[simp] theorem State.handOver_pending : (s.handOver frames).host.pending = s.host.pending := rfl
@[simp] theorem State.handOver_buf : (s.handOver frames).host.buf = frames := rfl
@[simp] theorem State.handOver_out : (s.handOver frames).host.out = s.host.out := rfl

end handOver

section withFetchWord

variable (s : State) (nbits w : Nat)

@[simp] theorem State.withFetchWord_params : (s.withFetchWord nbits w).params = s.params := rfl
@[simp] theorem State.withFetchWord_chip : (s.withFetchWord nbits w).chip = s.chip := rfl
@[simp] theorem State.withFetchWord_mixer : (s.withFetchWord nbits w).mixer = s.mixer := rfl
@[simp] theorem State.withFetchWord_pending : (s.withFetchWord nbits w).host.pending = fetchItems nbits w := rfl
@[simp] theorem State.withFetchWord_buf : (s.withFetchWord nbits w).host.buf = s.host.buf := rfl
@[simp] theorem State.withFetchWord_out : (s.withFetchWord nbits w).host.out = s.host.out := rfl

end withFetchWord

@[simp] theorem MixChan.emptied_allocated (ch : MixChan) : ch.emptied.allocated = ch.allocated := rfl
@[simp] theorem MixChan.emptied_vol (ch : MixChan) : ch.emptied.vol = ch.vol := rfl
@[simp] theorem MixChan.emptied_pan (ch : MixChan) : ch.emptied.pan = ch.pan := rfl
@[simp] theorem MixChan.emptied_buf (ch : MixChan) : ch.emptied.buf = ch.buf := rfl
@[simp] theorem MixChan.emptied_wr (ch : MixChan) : ch.emptied.wr = 0 := rfl
@[simp] theorem MixChan.emptied_rd (ch : MixChan) : ch.emptied.rd = 0 := rfl

end Sys2Proof.Machine
end

