-- ==== Sys2Proof/Laws/Ops.lean ====
section
/-! SUPPORT. What the shared operations of the transactions do: a register write with its key events, and the mixer's
FIFOs. -/

namespace Sys2Proof.Machine

section writeReg

variable (p : Params) (c : Chip) (a : Nat) (v : Byte)

@[simp] theorem Chip.writeReg_regs : (c.writeReg p a v).regs = c.regs.write a v := rfl
@[simp] theorem Chip.writeReg_fb : (c.writeReg p a v).fb = c.fb := rfl
@[simp] theorem Chip.writeReg_sampleCounter : (c.writeReg p a v).sampleCounter = c.sampleCounter := rfl
@[simp] theorem Chip.writeReg_tremPos : (c.writeReg p a v).tremPos = c.tremPos := rfl
@[simp] theorem Chip.writeReg_vibPos : (c.writeReg p a v).vibPos = c.vibPos := rfl
@[simp] theorem Chip.writeReg_noise : (c.writeReg p a v).noise = c.noise := rfl

@[simp] theorem Chip.writeReg_ops (o : Nat) (h : o < 36) :
    (c.writeReg p a v).ops[o] = keyEvent p c.regs (c.regs.write a v) ⟨o, h⟩ c.ops[o] := by
  simp [Chip.writeReg]

end writeReg

/-- A key event takes one of three forms: nothing, a key-on, a key-off (R237). -/
theorem keyEvent_cases (p : Params) (m m' : RegFile) (o : Fin 36) (op : OpState) :
    (keyLevel m o = keyLevel m' o ∧ keyEvent p m m' o op = op) ∨
    (keyLevel m o = false ∧ keyLevel m' o = true ∧ keyEvent p m m' o op = keyOn p m' o op) ∨
    (keyLevel m o = true ∧ keyLevel m' o = false ∧ keyEvent p m m' o op = keyOff op) := by
  unfold keyEvent
  cases keyLevel m o <;> cases keyLevel m' o <;> simp

@[simp] theorem keyOn_env (p : Params) (m : RegFile) (o : Fin 36) (op : OpState) :
    (keyOn p m o op).env = .attack := rfl
@[simp] theorem keyOn_att (p : Params) (m : RegFile) (o : Fin 36) (op : OpState) :
    (keyOn p m o op).att = op.att := rfl
@[simp] theorem keyOff_env (op : OpState) : (keyOff op).env = .release := rfl
@[simp] theorem keyOff_att (op : OpState) : (keyOff op).att = op.att := rfl
@[simp] theorem keyOff_acc (op : OpState) : (keyOff op).acc = op.acc := rfl

/-- No key event changes an attenuation (R238, R239). -/
@[simp] theorem keyEvent_att (p : Params) (m m' : RegFile) (o : Fin 36) (op : OpState) :
    (keyEvent p m m' o op).att = op.att := by
  rcases keyEvent_cases p m m' o op with ⟨-, h⟩ | ⟨-, -, h⟩ | ⟨-, -, h⟩ <;> rw [h] <;> simp

/-- Without a change of the key level there is no event (R237). -/
theorem keyEvent_eq_self {p : Params} {m m' : RegFile} {o : Fin 36} (op : OpState)
    (h : keyLevel m o = keyLevel m' o) : keyEvent p m m' o op = op := by
  rcases keyEvent_cases p m m' o op with ⟨-, h'⟩ | ⟨h1, h2, -⟩ | ⟨h1, h2, -⟩ <;> simp_all

/-- A register write always gives a next state, the chip written. -/
theorem writeRegister_eq (a : Nat) (v : Byte) (s : State) :
    writeRegister a v s = .next (s.withChip (s.chip.writeReg s.params a v)) := rfl

/-- The key level of an operator depends on four registers only: its frequency channel's 0xB0, and 0x0BD, 0x104 and
0x105 (R129, R232, R236). -/
theorem keyLevel_congr {m m' : RegFile} (hB : ∀ ch : Fin 18, m.read (chAddr 0xB0 ch) = m'.read (chAddr 0xB0 ch))
    (hBD : m.read 0x0BD = m'.read 0x0BD) (h4 : m.read 0x104 = m'.read 0x104) (h5 : m.read 0x105 = m'.read 0x105)
    (o : Fin 36) : keyLevel m o = keyLevel m' o := by
  have hp : pairActive m = pairActive m' := by
    funext k; simp [pairActive, newMode, h4, h5]
  have hs : activeSecond m = activeSecond m' := by
    funext ch; simp [activeSecond, hp]
  have hf : freqChan m = freqChan m' := by
    funext ch; simp [freqChan, hs]
  simp [keyLevel, kon, chreg, rhythmKey, rhy, hf, hB, hBD]

/-- What a FIFO slot holds after a store (R290): the stored frame, or what it held. -/
theorem fifoAt_store (buf : List Frame) (at' : Nat) (frames : List Frame) (j : Nat) :
    fifoAt (fifoStore buf at' frames) j =
      if at' ≤ j ∧ j < at' + frames.length then fifoAt frames (j - at') else fifoAt buf j := by
  induction at' generalizing buf j with
  | zero =>
    simp only [fifoStore, fifoAt, List.getD_eq_getElem?_getD, List.getElem?_append, List.getElem?_drop, Nat.zero_le,
      true_and, Nat.zero_add, Nat.sub_zero]
    split
    · rfl
    · rw [show frames.length + (j - frames.length) = j by omega]
  | succ n ih =>
    cases buf with
    | nil =>
      cases j with
      | zero => simp [fifoStore, fifoAt]
      | succ j =>
        have := ih [] j
        simp only [fifoAt] at this ⊢
        simp only [fifoStore, List.getD_cons_succ, this, List.getD_nil]
        congr 1
        · apply propext; omega
        · rw [Nat.succ_sub_succ]
    | cons b buf =>
      cases j with
      | zero => simp [fifoStore, fifoAt]
      | succ j =>
        have := ih buf j
        simp only [fifoAt] at this ⊢
        simp only [fifoStore, List.getD_cons_succ, this]
        congr 1
        · apply propext; omega
        · rw [Nat.succ_sub_succ]

/-- How many slots a FIFO has stored after a store. -/
theorem fifoStore_length (buf : List Frame) (at' : Nat) (frames : List Frame) :
    (fifoStore buf at' frames).length = max buf.length (at' + frames.length) := by
  induction at' generalizing buf with
  | zero => simp [fifoStore]; omega
  | succ n ih =>
    cases buf with
    | nil => simp [fifoStore, ih]; omega
    | cons b buf => simp [fifoStore, ih]; omega

/-- A mixer channel after one channel was replaced. -/
theorem State.withMixChan_getElem (s : State) (i : Fin 64) (ch : MixChan) (j : Nat) (h : j < 64) :
    (s.withMixChan i ch).mixer.chans[j] = if i.val = j then ch else s.mixer.chans[j] := by
  simp [Vector.getElem_set]

/-- A mixer channel after a pass (R295, R298). -/
theorem Mixer.drained_getElem (m : Mixer) (i : Nat) (h : i < 64) :
    m.drained.chans[i] = if m.chans[i].allocated then m.chans[i].emptied else m.chans[i] := by
  simp [Mixer.drained]

@[simp] theorem Mixer.drained_normalize (m : Mixer) : m.drained.normalize = m.normalize := rfl

/-- The index `malloc` takes is free, and every lower one is allocated (R288). -/
theorem Mixer.firstFree_some {m : Mixer} {i : Fin 64} (h : m.firstFree = some i) :
    m.chans[i].allocated = false ∧ ∀ j : Fin 64, j < i → m.chans[j].allocated = true := by
  unfold Mixer.firstFree at h
  have h1 := List.find?_some h
  refine ⟨by simpa using h1, fun j hj => ?_⟩
  obtain ⟨-, as, bs, heq, hbefore⟩ := List.find?_eq_some_iff_append.mp h
  have hnd : (List.finRange 64).Pairwise (· < ·) := List.pairwise_lt_finRange 64
  have hj' : j ∈ List.finRange 64 := List.mem_finRange j
  rw [heq] at hnd hj'
  rcases List.mem_append.mp hj' with hm | hm
  · simpa using hbefore j hm
  · rw [List.pairwise_append] at hnd
    rcases List.mem_cons.mp hm with rfl | hm
    · exact absurd hj (lt_irrefl _)
    · have := (List.pairwise_cons.mp hnd.2.1).1 j hm
      exact absurd hj (not_lt.mpr this.le)

/-- `malloc` finds no index exactly where the pool is full (R288). -/
theorem Mixer.firstFree_none {m : Mixer} : m.firstFree = none ↔ ∀ i : Fin 64, m.chans[i].allocated = true := by
  simp [Mixer.firstFree, List.find?_eq_none]

end Sys2Proof.Machine
end

