-- ==== Sys2Proof/Laws/Sample.lean ====
section
/-! SUPPORT. What one sample step and a run of them do, field by field (46_generate_and_mixer R280 to R282). -/

namespace Sys2Proof.Machine

section advance

variable (c : Chip)

@[simp] theorem Chip.advance_regs : c.advance.regs = c.regs := rfl
@[simp] theorem Chip.advance_ops : c.advance.ops = c.ops := rfl
@[simp] theorem Chip.advance_fb : c.advance.fb = c.fb := rfl
@[simp] theorem Chip.advance_sampleCounter : c.advance.sampleCounter = c.sampleCounter + 1 := rfl
@[simp] theorem Chip.advance_noise : c.advance.noise = nextNoise c.noise := rfl

end advance

section nextSample

variable (c : Chip)

@[simp] theorem Chip.nextSample_regs : c.nextSample.regs = c.regs := rfl
@[simp] theorem Chip.nextSample_sampleCounter : c.nextSample.sampleCounter = c.sampleCounter + 1 := rfl
@[simp] theorem Chip.nextSample_tremPos : c.nextSample.tremPos = c.advance.tremPos := rfl
@[simp] theorem Chip.nextSample_vibPos : c.nextSample.vibPos = c.advance.vibPos := rfl
@[simp] theorem Chip.nextSample_noise : c.nextSample.noise = nextNoise c.noise := rfl

@[simp] theorem Chip.nextSample_ops (o : Nat) (h : o < 36) : c.nextSample.ops[o] = nextOp c ⟨o, h⟩ := by
  simp [Chip.nextSample]

@[simp] theorem Chip.nextSample_fb (ch : Nat) (h : ch < 18) : c.nextSample.fb[ch] = nextFeedback c ⟨ch, h⟩ := by
  simp [Chip.nextSample]

end nextSample

@[simp] theorem stepPhase_env (m : RegFile) (pos : Nat) (o : Fin 36) (op : OpState) :
    (stepPhase m pos o op).env = op.env := rfl
@[simp] theorem stepPhase_att (m : RegFile) (pos : Nat) (o : Fin 36) (op : OpState) :
    (stepPhase m pos o op).att = op.att := rfl
@[simp] theorem stepPhase_acc (m : RegFile) (pos : Nat) (o : Fin 36) (op : OpState) :
    (stepPhase m pos o op).acc = op.acc + phaseInc m pos o := rfl

/-- The envelope step leaves the phase alone (R199). -/
@[simp] theorem stepEnvelope_acc (m : RegFile) (c : Nat) (o : Fin 36) (op : OpState) :
    (stepEnvelope m c o op).acc = op.acc := by
  unfold stepEnvelope
  split <;> try split
  all_goals rfl

/-- The operators a sample step leaves alone are those that are not synthesised (R163). -/
theorem nextOp_frozen {c : Chip} {o : Fin 36} (h : synthesised c.regs (chanOf o) = false) : nextOp c o = c.ops[o] := by
  simp [nextOp, h]

/-- A synthesised operator takes its envelope step and then its phase step (R282). -/
theorem nextOp_synthesised {c : Chip} {o : Fin 36} (h : synthesised c.regs (chanOf o) = true) :
    nextOp c o = stepPhase c.regs c.vibPos o (stepEnvelope c.regs c.sampleCounter.toNat o c.ops[o]) := by
  simp [nextOp, h]

/-- The chip after `n` samples does not depend on the buffer. -/
theorem generate_chip (n : Nat) (c : Chip) (buf : List AccFrame) : (generate n c buf).1 = Chip.nextSample^[n] c := by
  induction n generalizing c buf with
  | zero => rfl
  | succ n ih => simp [generate, ih, Function.iterate_succ_apply]

/-- The buffer has a frame for every sample, and keeps the frames it had. -/
theorem generate_length (n : Nat) (c : Chip) (buf : List AccFrame) :
    (generate n c buf).2.length = max n buf.length := by
  induction n generalizing c buf with
  | zero => simp [generate]
  | succ n ih => cases buf <;> simp [generate, ih]

/-- Frame `i` of the buffer after `n` samples: sample `i` added where there is one, else the frame it was (R280). -/
theorem generate_getElem? (n : Nat) (c : Chip) (buf : List AccFrame) (i : Nat) :
    (generate n c buf).2[i]? =
      if i < n then some (addSample (Chip.nextSample^[i] c) (buf.getD i AccFrame.zero)) else buf[i]? := by
  induction n generalizing c buf i with
  | zero => simp [generate]
  | succ n ih =>
    cases i with
    | zero => cases buf <;> simp [generate]
    | succ i =>
      simp only [generate, List.getElem?_cons_succ, ih, Function.iterate_succ_apply, Nat.add_lt_add_iff_right]
      cases buf <;> simp

/-- Registers are the same in every sample of a run (20_memory R66). -/
@[simp] theorem iterate_nextSample_regs (n : Nat) (c : Chip) : (Chip.nextSample^[n] c).regs = c.regs := by
  induction n generalizing c with
  | zero => rfl
  | succ n ih => simp [Function.iterate_succ_apply, ih]

/-- An invariant of the sample step holds after a run of them. -/
theorem iterate_nextSample_inv {P : Chip → Prop} (hstep : ∀ c, P c → P c.nextSample) (n : Nat) {c : Chip} (h : P c) :
    P (Chip.nextSample^[n] c) := by
  induction n generalizing c with
  | zero => exact h
  | succ n ih => exact ih (hstep c h)

/-- A table entry is bounded by a bound of every entry. -/
theorem entry_le {table : List Nat} {b : Nat} (h : ∀ x ∈ table, x ≤ b) (i : Nat) : entry table i ≤ b := by
  unfold entry
  rw [List.getD_eq_getElem?_getD]
  by_cases hi : i < table.length
  · simpa [hi] using h _ (List.getElem_mem hi)
  · simp [hi]

/-- An entry of a table in rows is bounded by a bound of every entry. -/
theorem entry16_le {rows : List (List Nat)} {b : Nat} (h : ∀ r ∈ rows, ∀ x ∈ r, x ≤ b) (i : Nat) :
    entry16 rows i ≤ b := by
  refine entry_le (fun x hx => ?_) _
  rw [List.getD_eq_getElem?_getD] at hx
  by_cases hi : i / 16 < rows.length
  · simp only [hi, List.getElem?_eq_getElem, Option.getD_some] at hx
    exact h _ (List.getElem_mem hi) x hx
  · simp [hi] at hx

/-- EXP's values are at most 2042 (R322). -/
theorem expEntry_le (i : Nat) : expEntry i ≤ 2042 := entry16_le (by decide) i

/-- An envelope increment is at most 4 (R184). -/
theorem egRow_le (row j : Nat) : egRow row j ≤ 4 := by
  refine entry_le (fun x hx => ?_) _
  rw [List.getD_eq_getElem?_getD] at hx
  by_cases hi : row < egRows.length
  · simp only [hi, List.getElem?_eq_getElem, Option.getD_some] at hx
    have : ∀ r ∈ egRows, ∀ x ∈ r, x ≤ 4 := by decide
    exact this _ (List.getElem_mem hi) x hx
  · simp [hi] at hx

/-- EXP's values are at least 1024 and fall (R322). -/
theorem expEntry_succ : ∀ i : Fin 255, expEntry (i.val + 1) ≤ expEntry i.val := by decide +kernel

/-- The largest output of the exponential conversion (R205). -/
theorem expValue_le (level : Nat) : expValue level ≤ 4084 := by
  unfold expValue
  refine le_trans (Nat.div_le_self _ _) ?_
  have := expEntry_le (min level 0x1FFF % 2 ^ 8)
  omega

/-- A level of 4088 or more is silence (R212). -/
theorem expValue_silent {level : Nat} (h : 4088 ≤ level) : expValue level = 0 := by
  unfold expValue
  have h1 := expEntry_le (min level 0x1FFF % 2 ^ 8)
  apply Nat.div_eq_of_lt
  have h2 : 12 ≤ min level 0x1FFF / 2 ^ 8 := by omega
  have h3 : 2 ^ 12 ≤ 2 ^ (min level 0x1FFF / 2 ^ 8) := Nat.pow_le_pow_right (by decide) h2
  omega

/-- The exponential conversion falls with its level (R205). -/
theorem expValue_succ (l : Nat) : expValue (l + 1) ≤ expValue l := by
  unfold expValue
  dsimp only
  by_cases h : 0x1FFF ≤ l
  · rw [Nat.min_eq_right h, Nat.min_eq_right (by omega)]
  · rw [Nat.min_eq_left (by omega), Nat.min_eq_left (by omega)]
    by_cases h2 : l % 2 ^ 8 = 255
    · rw [show (l + 1) % 2 ^ 8 = 0 by omega, show (l + 1) / 2 ^ 8 = l / 2 ^ 8 + 1 by omega, h2, Nat.pow_succ,
        Nat.mul_comm (2 ^ _) 2, ← Nat.div_div_eq_div_mul]
      exact Nat.div_le_div_right (by decide)
    · rw [show (l + 1) % 2 ^ 8 = l % 2 ^ 8 + 1 by omega, show (l + 1) / 2 ^ 8 = l / 2 ^ 8 by omega]
      exact Nat.div_le_div_right (Nat.mul_le_mul_right _ (expEntry_succ ⟨l % 2 ^ 8, by omega⟩))

/-- The attack never raises the attenuation (R186). -/
theorem attackLevel_le (r inc att : Nat) : attackLevel r inc att ≤ att := by
  unfold attackLevel
  split
  · omega
  · split
    · omega
    · have : (-(att : Int) - 1) * (inc : Int) ≤ 0 := Int.mul_nonpos_of_nonpos_of_nonneg (by omega) (by omega)
      simp only [asr]
      omega

/-- The tremolo position after a sample, from the counter before it (45_lfo_noise R261). -/
theorem Chip.advance_tremPos (c : Chip) : c.advance.tremPos =
    if (c.sampleCounter.toNat + 1) % 2 ^ 32 % 64 = 0 then (c.tremPos + 1) % 210 else c.tremPos := by
  simp [Chip.advance, BitVec.toNat_add]

/-- The vibrato position after a sample, from the counter before it (45_lfo_noise R263). -/
theorem Chip.advance_vibPos (c : Chip) : c.advance.vibPos =
    if (c.sampleCounter.toNat + 1) % 2 ^ 32 % 1024 = 0 then (c.vibPos + 1) % 8 else c.vibPos := by
  simp [Chip.advance, BitVec.toNat_add]

/-- The phase index is the accumulator's top ten bits (43_operator_engine R195). -/
theorem phaseIndex_eq (op : OpState) : phaseIndex op = op.acc.toNat / 2 ^ 22 := by
  have := op.acc.isLt
  unfold phaseIndex bitsOf
  omega

end Sys2Proof.Machine
end

