-- ==== Sys2Proof/Laws/Exec.lean ====
section
/-! SUPPORT. What a transaction can do to the machine, said once: a register write is `writeRegister`, `gen` is `generate`,
and every other transaction but `reset` leaves the chip alone. -/

namespace Sys2Proof.Machine

/-- Every register write transaction is the one shared operation at its address (30_encoding R86). -/
theorem exec_of_regWrite {i : Instr} {a : Nat} {v : Byte} (h : regWrite i = some (a, v)) (s : State) :
    exec i s = writeRegister a v s := by
  cases i <;> simp only [regWrite, Option.some.injEq, Prod.mk.injEq, reduceCtorEq] at h <;>
    obtain ⟨rfl, rfl⟩ := h <;> rfl

/-- A register write's address lies in the register space. -/
theorem regWrite_lt {i : Instr} {a : Nat} {v : Byte} (h : regWrite i = some (a, v)) : a < 512 := by
  cases i <;> simp only [regWrite, Option.some.injEq, Prod.mk.injEq, reduceCtorEq] at h <;>
    obtain ⟨rfl, rfl⟩ := h
  all_goals first
    | exact opAddr_lt _ _ (by decide) | exact chAddr_lt _ _ (by decide) | exact BitVec.isLt _ | decide

/-- The write transaction of an address writes that address (30_encoding R87). -/
theorem regWrite_writeInstr (a : BitVec 9) (v : Byte) : regWrite (writeInstr a v) = some (a.toNat, v) := by
  have h := isAddrOf_classOf a
  unfold writeInstr
  split <;> simp_all [isAddrOf, regWrite]

/-- The write transaction of an address encodes to that address's word. -/
theorem encode_writeInstr (a : BitVec 9) (v : Byte) : encode (writeInstr a v) = [wordW a.toNat v] := by
  have h := regWrite_writeInstr a v
  generalize writeInstr a v = i at h
  cases i <;> simp only [regWrite, Option.some.injEq, Prod.mk.injEq, reduceCtorEq] at h <;> simp [encode, h]

/-- The addresses whose bytes no key level reads (44_channel_synthesis R236). -/
def KeyFree (a : Nat) : Prop := (∀ ch : Fin 18, a ≠ chAddr 0xB0 ch) ∧ a ≠ 0x0BD ∧ a ≠ 0x104 ∧ a ≠ 0x105

/-- A register write outside the key registers writes a key-free address. -/
theorem keyFree_of_regWrite {i : Instr} {a : Nat} {v : Byte} (hw : WellFormed i = true) (ht : touchesKeys i = false)
    (h : regWrite i = some (a, v)) : KeyFree a := by
  unfold KeyFree
  cases i <;> simp only [regWrite, Option.some.injEq, Prod.mk.injEq, reduceCtorEq] at h <;>
    simp only [touchesKeys, reduceCtorEq] at ht
  all_goals obtain ⟨rfl, rfl⟩ := h
  case wrUnassigned a v =>
    simp only [WellFormed, beq_iff_eq] at hw
    refine ⟨fun ch he => ?_, fun he => ?_, fun he => ?_, fun he => ?_⟩
    · have := (classOf_chAddr ch).2.1
      rw [← he] at this
      simp [hw] at this
    all_goals
      have : a = BitVec.ofNat 9 a.toNat := by simp
      rw [this, he] at hw
      revert hw
      decide
  case wrOp20 o v | wrOp40 o v | wrOp60 o v | wrOp80 o v | wrOpE0 o v =>
    refine ⟨fun ch he => ?_, ?_⟩
    · have h1 := classOf_opAddr o
      have h2 := (classOf_chAddr ch).2.1
      rw [← he] at h2
      simp [h1] at h2
    · clear hw; revert o; decide
  case wrChA0 o v | wrChC0 o v =>
    refine ⟨fun ch => ?_, ?_⟩
    · have := ch.isLt; have := o.isLt; unfold chAddr; omega
    · clear hw; revert o; decide
  all_goals decide

/-- A write to a key-free address only stores its byte (44_channel_synthesis R237). -/
theorem writeRegister_keyFree {a : Nat} (h : KeyFree a) (v : Byte) (s : State) :
    writeRegister a v s = .next { s with chip := { s.chip with regs := s.chip.regs.write a v } } := by
  obtain ⟨h1, h2, h3, h4⟩ := h
  have hk : ∀ o, keyLevel s.chip.regs o = keyLevel (s.chip.regs.write a v) o := by
    refine keyLevel_congr (fun ch => ?_) ?_ ?_ ?_
    · rw [RegFile.read_write_other _ _ (Ne.symm (h1 ch))]
    all_goals rw [RegFile.read_write_other _ _ (Ne.symm (by assumption))]
  have ho : (s.chip.writeReg s.params a v).ops = s.chip.ops := by
    apply Vector.ext
    intro o ho
    rw [Chip.writeReg_ops, keyEvent_eq_self _ (hk ⟨o, ho⟩)]
  rw [writeRegister_eq, Host.Outcome.next.injEq]
  simp only [State.withChip, Chip.writeReg] at ho ⊢
  rw [ho]

/-- `gen` completes; its chip is the sample step iterated, its buffer that of `generate` (46_generate_and_mixer R280). -/
theorem exec_gen (n : Nat) (s : State) : ∃ t, exec (.gen n) s = .next t ∧ t.chip = Chip.nextSample^[n] s.chip ∧
    t.host.buf = (generate n s.chip s.host.buf).2 ∧
    t.host.out = s.host.out ++ [.accumulated ((generate n s.chip s.host.buf).2.take n)] ∧
    t.mixer = s.mixer ∧ t.params = s.params ∧ t.host.pending = s.host.pending :=
  ⟨_, rfl, by simp [generate_chip], rfl, rfl, rfl, rfl, rfl⟩

/-- A transaction other than `gen` and `reset` is a register write or leaves the chip alone. -/
theorem exec_chip_cases {i : Instr} {s t : State} (hg : ∀ n, i ≠ .gen n) (hr : i ≠ .reset) (h : exec i s = .next t) :
    (∃ a v, regWrite i = some (a, v) ∧ t = s.withChip (s.chip.writeReg s.params a v)) ∨
    (t.chip = s.chip ∧ regWrite i = none) := by
  cases hw : regWrite i with
  | some av =>
    obtain ⟨a, v⟩ := av
    rw [exec_of_regWrite hw, writeRegister_eq, Host.Outcome.next.injEq] at h
    exact .inl ⟨a, v, rfl, h.symm⟩
  | none =>
    right
    cases i <;> simp only [regWrite, reduceCtorEq] at hw
    case gen n => exact absurd rfl (hg n)
    case reset => exact absurd rfl hr
    case mixAlloc =>
      simp only [exec, execMixAlloc] at h
      split at h <;> simp only [Host.Outcome.next.injEq] at h <;> subst h <;> exact ⟨rfl, rfl⟩
    case mixWrite =>
      simp only [exec, execMixWrite] at h
      split at h <;> simp only [Host.Outcome.next.injEq] at h <;> subst h <;> exact ⟨rfl, rfl⟩
    all_goals
      simp only [exec, execCvt, execMixRelease, execMixVol, execMixPan, execMixNorm, execMix,
        Host.Outcome.next.injEq] at h
      subst h
      exact ⟨rfl, rfl⟩

end Sys2Proof.Machine
end

