-- ==== Sys2Proof/Laws/Mixer.lean ====
section
/-! SUPPORT. A mixer pass's sums, length and divisor over all 64 channels (46_generate_and_mixer R295). -/

namespace Sys2Proof.Machine

theorem chans_toList (m : Mixer) : m.chans.toList = (List.finRange 64).map (fun i => m.chans[i]) := by
  apply List.ext_getElem <;> simp

theorem sum_filter_allocated (l : List MixChan) (f : MixChan → Int) :
    ((l.filter (fun ch => ch.allocated)).map f).sum = (l.map (fun ch => if ch.allocated then f ch else 0)).sum := by
  induction l with
  | nil => rfl
  | cons a l ih => by_cases h : a.allocated = true <;> simp [h, ih]

/-- A sum over the allocated channels is a sum over all, with zero for the others. -/
theorem Mixer.active_sum (m : Mixer) (f : MixChan → Int) :
    (m.active.map f).sum = ∑ i : Fin 64, if m.chans[i].allocated = true then f m.chans[i] else 0 := by
  rw [Mixer.active, sum_filter_allocated, chans_toList, List.map_map, ← List.ofFn_eq_map, List.sum_ofFn]
  rfl

theorem Mixer.active_length (m : Mixer) :
    m.active.length = (Finset.univ.filter (fun i : Fin 64 => m.chans[i].allocated = true)).card := by
  have h := m.active_sum (fun _ => 1)
  simp only [List.map_const', List.sum_replicate, nsmul_eq_mul, mul_one] at h
  rw [Finset.card_filter]
  have : ((m.active.length : Nat) : Int) =
      ((∑ i : Fin 64, if m.chans[i].allocated = true then 1 else 0 : Nat) : Int) := by rw [h]; push_cast; rfl
  exact_mod_cast this

theorem foldr_filter_allocated (l : List MixChan) :
    ((l.filter (fun ch => ch.allocated)).map MixChan.unread).foldr max 0 =
      (l.map (fun ch => if ch.allocated then ch.wr - ch.rd else 0)).foldr max 0 := by
  induction l with
  | nil => rfl
  | cons a l ih => by_cases h : a.allocated = true <;> simp [h, ih, MixChan.unread]

/-- The length of a pass is the largest unread count of an allocated channel. -/
theorem Mixer.passLength_eq (m : Mixer) : m.passLength =
    Finset.univ.sup (fun i : Fin 64 => if m.chans[i].allocated then m.chans[i].wr - m.chans[i].rd else 0) := by
  rw [Mixer.passLength, Mixer.active, foldr_filter_allocated, chans_toList, List.map_map]
  rfl

/-- The divisor of a pass: the number of allocated channels under normalisation, else 1. -/
theorem Mixer.divisor_eq (m : Mixer) : (m.divisor : Int) =
    if m.normalize then ((Finset.univ.filter (fun i : Fin 64 => m.chans[i].allocated = true)).card : Int) else 1 := by
  unfold Mixer.divisor
  rw [← m.active_length]
  split <;> rfl

end Sys2Proof.Machine
end

