-- ==== Sys2Proof/Laws/Pairs.lean ====
section
/-! SUPPORT. The 4-operator pairs (44_channel_synthesis R232) and which channels and operators they join. -/

namespace Sys2Proof.Machine

theorem pairSecond_inj : ∀ k k' : Fin 6, pairSecond k = pairSecond k' → k = k' := by decide

/-- No channel is both a first and a second channel. -/
theorem pairFirst_ne_pairSecond : ∀ k k' : Fin 6, pairFirst k ≠ pairSecond k' := by decide

/-- No pair contains channels 6, 7 or 8 (R231). -/
theorem pair_not_rhythm : ∀ k : Fin 6, ¬ (6 ≤ (pairFirst k).val ∧ (pairFirst k).val ≤ 8) ∧
    ¬ (6 ≤ (pairSecond k).val ∧ (pairSecond k).val ≤ 8) := by decide

theorem activeFirst_none {m : RegFile} {ch : Fin 18} :
    activeFirst m ch = none ↔ ∀ k, pairFirst k = ch → pairActive m k = false := by
  simp [activeFirst, List.find?_eq_none]

theorem activeSecond_none {m : RegFile} {ch : Fin 18} :
    activeSecond m ch = none ↔ ∀ k, pairSecond k = ch → pairActive m k = false := by
  simp [activeSecond, List.find?_eq_none]

theorem activeFirst_some {m : RegFile} {ch : Fin 18} {k : Fin 6} (h : activeFirst m ch = some k) :
    pairFirst k = ch ∧ pairActive m k = true := by
  simpa using List.find?_some h

theorem activeSecond_some {m : RegFile} {ch : Fin 18} {k : Fin 6} (h : activeSecond m ch = some k) :
    pairSecond k = ch ∧ pairActive m k = true := by
  simpa using List.find?_some h

/-- The second channel of an active pair finds its pair. -/
theorem activeSecond_of_active {m : RegFile} {k : Fin 6} (h : pairActive m k = true) :
    activeSecond m (pairSecond k) = some k := by
  cases hx : activeSecond m (pairSecond k) with
  | none => simp [activeSecond_none.mp hx k rfl] at h
  | some k' => rw [pairSecond_inj _ _ (activeSecond_some hx).1]

/-- With NEW = 0 no channel is in an active pair (R232). -/
theorem activeFirst_opl2 {m : RegFile} (h : newMode m = false) (ch : Fin 18) : activeFirst m ch = none :=
  activeFirst_none.mpr fun k _ => by simp [pairActive, h]

theorem activeSecond_opl2 {m : RegFile} (h : newMode m = false) (ch : Fin 18) : activeSecond m ch = none :=
  activeSecond_none.mpr fun k _ => by simp [pairActive, h]

/-- An operator is synthesised with NEW = 1, or in channels 0 to 8 (42_global_regs R163). -/
theorem synthesised_chanOf {m : RegFile} {o : Fin 36} (h : newMode m = true ∨ o.val < 18) :
    synthesised m (chanOf o) = true := by
  rcases h with h | h
  · simp [synthesised, h]
  · have : (chanOf o).val < 9 := by show o.val / 2 < 9; omega
    simp [synthesised, this]

/-- A sample has at most eighteen units. -/
theorem unitsOf_length (m : RegFile) : (unitsOf m).length ≤ 18 := by
  unfold unitsOf
  exact (List.length_filterMap_le _ _).trans ((List.length_filter_le _ _).trans (by simp))

end Sys2Proof.Machine
end

