-- ==== Sys2Proof/Laws/PerInstr.lean ====
section
/-! SUPPORT. Per-instruction statements: the family `EncodingLength`, one lemma per constructor. -/

namespace Sys2Proof.Laws.EncodingLength

/-- The encoding of an instruction has the words that its count says, and at least one (30_encoding R80). -/
def Statement (i : Instr) : Prop := (encode i).length = wordCount i ∧ 0 < wordCount i

theorem wrOp20 (o : Fin 36) (val : Byte) : Statement (.wrOp20 o val) := ⟨rfl, Nat.one_pos⟩

theorem wrOp40 (o : Fin 36) (val : Byte) : Statement (.wrOp40 o val) := ⟨rfl, Nat.one_pos⟩

theorem wrOp60 (o : Fin 36) (val : Byte) : Statement (.wrOp60 o val) := ⟨rfl, Nat.one_pos⟩

theorem wrOp80 (o : Fin 36) (val : Byte) : Statement (.wrOp80 o val) := ⟨rfl, Nat.one_pos⟩

theorem wrOpE0 (o : Fin 36) (val : Byte) : Statement (.wrOpE0 o val) := ⟨rfl, Nat.one_pos⟩

theorem wrChA0 (ch : Fin 18) (val : Byte) : Statement (.wrChA0 ch val) := ⟨rfl, Nat.one_pos⟩

theorem wrChB0 (ch : Fin 18) (val : Byte) : Statement (.wrChB0 ch val) := ⟨rfl, Nat.one_pos⟩

theorem wrChC0 (ch : Fin 18) (val : Byte) : Statement (.wrChC0 ch val) := ⟨rfl, Nat.one_pos⟩

theorem wr01 (val : Byte) : Statement (.wr01 val) := ⟨rfl, Nat.one_pos⟩

theorem wr02 (val : Byte) : Statement (.wr02 val) := ⟨rfl, Nat.one_pos⟩

theorem wr03 (val : Byte) : Statement (.wr03 val) := ⟨rfl, Nat.one_pos⟩

theorem wr04 (val : Byte) : Statement (.wr04 val) := ⟨rfl, Nat.one_pos⟩

theorem wr08 (val : Byte) : Statement (.wr08 val) := ⟨rfl, Nat.one_pos⟩

theorem wrBD (val : Byte) : Statement (.wrBD val) := ⟨rfl, Nat.one_pos⟩

theorem wr104 (val : Byte) : Statement (.wr104 val) := ⟨rfl, Nat.one_pos⟩

theorem wr105 (val : Byte) : Statement (.wr105 val) := ⟨rfl, Nat.one_pos⟩

theorem wrUnassigned (a : BitVec 9) (val : Byte) : Statement (.wrUnassigned a val) := ⟨rfl, Nat.one_pos⟩

theorem gen (n : Nat) : Statement (.gen n) := ⟨rfl, Nat.one_pos⟩

theorem reset : Statement .reset := ⟨rfl, Nat.one_pos⟩

theorem cvt : Statement .cvt := ⟨rfl, Nat.one_pos⟩

theorem mixAlloc : Statement .mixAlloc := ⟨rfl, Nat.one_pos⟩

theorem mixRelease (i : Fin 64) : Statement (.mixRelease i) := ⟨rfl, Nat.one_pos⟩

theorem mixWrite (i : Fin 64) (frames : List Frame) : Statement (.mixWrite i frames) := by
  constructor
  · simp [encode, wordCount]; omega
  · simp [wordCount]

theorem mixVol (i : Fin 64) (v : Int) : Statement (.mixVol i v) := ⟨rfl, Nat.one_pos⟩

theorem mixPan (i : Fin 64) (p : Int) : Statement (.mixPan i p) := ⟨rfl, Nat.one_pos⟩

theorem mixNorm (b : Bool) : Statement (.mixNorm b) := ⟨rfl, Nat.one_pos⟩

theorem mix : Statement .mix := ⟨rfl, Nat.one_pos⟩

end Sys2Proof.Laws.EncodingLength
end

