-- ==== Sys2Proof/Laws/Views.lean ====
section
/-! SUPPORT. Every view of the register file (10_state R22) reads only the bytes that some rule reads: files that agree on
those bytes have the same views. -/

namespace Sys2Proof.Machine

theorem opAddr_is_read {o : Fin 36} {base : Nat} (h : base ∈ [0x20, 0x40, 0x60, 0x80, 0xE0]) :
    ¬ readByNoRule (opAddr base o) := by
  have h' := classOf_opAddr o
  have hlt : opAddr base o < 512 := opAddr_lt _ _ (by fin_cases h <;> decide)
  unfold readByNoRule
  fin_cases h
  all_goals
    simp only [h', reduceCtorEq, or_false, not_or] at *
    clear h'
    revert o
    decide

theorem chAddr_is_read {ch : Fin 18} {base : Nat} (h : base ∈ [0xA0, 0xB0, 0xC0]) :
    ¬ readByNoRule (chAddr base ch) := by
  have h' := classOf_chAddr ch
  have hlt : chAddr base ch < 512 := chAddr_lt _ _ (by fin_cases h <;> decide)
  unfold readByNoRule
  fin_cases h
  all_goals
    simp only [h', reduceCtorEq, or_false, not_or] at *
    clear h'
    revert ch
    decide

theorem global_is_read {a : Nat} (h : a ∈ [0x001, 0x008, 0x0BD, 0x104, 0x105]) : ¬ readByNoRule a := by
  unfold readByNoRule
  fin_cases h <;> decide

/-- Two register files that hold the same bytes wherever some rule reads. -/
structure SameViews (m m' : RegFile) : Prop where
  o20 : ∀ o, opreg m o 0x20 = opreg m' o 0x20
  o40 : ∀ o, opreg m o 0x40 = opreg m' o 0x40
  o60 : ∀ o, opreg m o 0x60 = opreg m' o 0x60
  o80 : ∀ o, opreg m o 0x80 = opreg m' o 0x80
  oE0 : ∀ o, opreg m o 0xE0 = opreg m' o 0xE0
  cA0 : ∀ ch, chreg m ch 0xA0 = chreg m' ch 0xA0
  cB0 : ∀ ch, chreg m ch 0xB0 = chreg m' ch 0xB0
  cC0 : ∀ ch, chreg m ch 0xC0 = chreg m' ch 0xC0
  g01 : m.read 0x001 = m'.read 0x001
  g08 : m.read 0x008 = m'.read 0x008
  gBD : m.read 0x0BD = m'.read 0x0BD
  g104 : m.read 0x104 = m'.read 0x104
  g105 : m.read 0x105 = m'.read 0x105

theorem sameViews_of_read {m m' : RegFile} (h : ∀ a, ¬ readByNoRule a → m.read a = m'.read a) : SameViews m m' where
  o20 _ := h _ (opAddr_is_read (by decide))
  o40 _ := h _ (opAddr_is_read (by decide))
  o60 _ := h _ (opAddr_is_read (by decide))
  o80 _ := h _ (opAddr_is_read (by decide))
  oE0 _ := h _ (opAddr_is_read (by decide))
  cA0 _ := h _ (chAddr_is_read (by decide))
  cB0 _ := h _ (chAddr_is_read (by decide))
  cC0 _ := h _ (chAddr_is_read (by decide))
  g01 := h _ (global_is_read (by decide))
  g08 := h _ (global_is_read (by decide))
  gBD := h _ (global_is_read (by decide))
  g104 := h _ (global_is_read (by decide))
  g105 := h _ (global_is_read (by decide))

namespace SameViews

variable {m m' : RegFile} (h : SameViews m m')
include h

theorem newMode_eq : newMode m = newMode m' := by unfold newMode; rw [h.g105]
theorem rhy_eq : rhy m = rhy m' := by unfold rhy; rw [h.gBD]
theorem pairActive_eq : pairActive m = pairActive m' := by funext k; unfold pairActive; rw [h.newMode_eq, h.g104]
theorem activeFirst_eq : activeFirst m = activeFirst m' := by funext ch; unfold activeFirst; rw [h.pairActive_eq]
theorem activeSecond_eq : activeSecond m = activeSecond m' := by funext ch; unfold activeSecond; rw [h.pairActive_eq]
theorem synthesised_eq : synthesised m = synthesised m' := by funext ch; unfold synthesised; rw [h.newMode_eq]
theorem freqChan_eq : freqChan m = freqChan m' := by funext ch; unfold freqChan; rw [h.activeSecond_eq]
theorem fnum_eq : fnum m = fnum m' := by funext ch; unfold fnum; rw [h.freqChan_eq, h.cA0, h.cB0]
theorem block_eq : block m = block m' := by funext ch; unfold block; rw [h.freqChan_eq, h.cB0]
theorem kon_eq : kon m = kon m' := by funext ch; unfold kon; rw [h.freqChan_eq, h.cB0]
theorem keyLevel_eq : keyLevel m = keyLevel m' := by
  funext o; unfold keyLevel rhythmKey; rw [h.kon_eq, h.rhy_eq, h.gBD]
theorem effRate_eq : effRate m = effRate m' := by
  funext o f; unfold effRate ksOffset keycode ksr nts; rw [h.o20, h.block_eq, h.fnum_eq, h.g08]
theorem phaseInc_eq : phaseInc m = phaseInc m' := by
  funext p o; unfold phaseInc vibDelta vib mult dvb; rw [h.o20, h.fnum_eq, h.block_eq, h.gBD]
theorem totalAtt_eq : totalAtt m = totalAtt m' := by
  funext p o a
  unfold totalAtt kslAtt kslBase tl ksl am tremolo dam
  rw [h.o20, h.o40, h.fnum_eq, h.block_eq, h.gBD]
theorem wsel_eq : wsel m = wsel m' := by funext o; unfold wsel wse; rw [h.newMode_eq, h.g01, h.oE0]
theorem cnt_eq : cnt m = cnt m' := by funext ch; unfold cnt; rw [h.cC0]
theorem fbAmount_eq : fbAmount m = fbAmount m' := by funext ch; unfold fbAmount; rw [h.cC0]
theorem routesLeft_eq : routesLeft m = routesLeft m' := by funext ch; unfold routesLeft; rw [h.newMode_eq, h.cC0]
theorem routesRight_eq : routesRight m = routesRight m' := by funext ch; unfold routesRight; rw [h.newMode_eq, h.cC0]
theorem stepEnvelope_eq : stepEnvelope m = stepEnvelope m' := by
  funext c o op; unfold stepEnvelope ar dr rr sl egt; rw [h.effRate_eq, h.o20, h.o60, h.o80]
theorem unitsOf_eq : unitsOf m = unitsOf m' := by
  have : unitOf m = unitOf m' := by
    funext ch; unfold unitOf; rw [h.activeFirst_eq, h.activeSecond_eq, h.rhy_eq]
  unfold unitsOf
  rw [h.synthesised_eq, this]

end SameViews

/-! The one-bit views that decide a unit's shape, its modes and its depths, as bits of their bytes. -/

theorem newMode_eq_getLsbD (m : RegFile) : newMode m = (m.read 0x105).getLsbD 0 := bitOf_eq_getLsbD _ _
theorem rhy_eq_getLsbD (m : RegFile) : rhy m = (m.read 0x0BD).getLsbD 5 := bitOf_eq_getLsbD _ _
theorem dvb_eq_getLsbD (m : RegFile) : dvb m = (m.read 0x0BD).getLsbD 6 := bitOf_eq_getLsbD _ _
theorem cnt_eq_getLsbD (m : RegFile) (ch : Fin 18) : cnt m ch = (m.read (chAddr 0xC0 ch)).getLsbD 0 :=
  bitOf_eq_getLsbD _ _

theorem pairActive_iff (m : RegFile) (k : Fin 6) :
    pairActive m k = true ↔ (m.read 0x105).getLsbD 0 = true ∧ (m.read 0x104).getLsbD k.val = true := by
  simp [pairActive, newMode_eq_getLsbD, bitOf_eq_getLsbD]

theorem synthesised_iff (m : RegFile) (ch : Fin 18) :
    synthesised m ch = true ↔ (m.read 0x105).getLsbD 0 = true ∨ ch.val < 9 := by
  simp [synthesised, newMode_eq_getLsbD]

end Sys2Proof.Machine
end

