-- ==== Sys2Proof/Tests/Slice0.lean ====
section
/-! SUPPORT. The model's own tests. Expected values are those of spec/95_test_vectors (its vector is named in each comment)
or of the rule named there; `witness_…` theorems show that the hypotheses of the statements can be met. -/

namespace Sys2Proof.Tests

open Sys2Proof.Machine

/-! ## Helpers -/

/-- The state after a transaction, where it completes. -/
def after (i : Instr) (s : State) : State :=
  match exec i s with
  | .next t => t
  | _ => s

/-- Reset with these bytes in the register space, no key event raised. -/
def regsAt (l : List (Nat × Byte)) : State :=
  { State.reset with chip := { Chip.reset with regs := l.foldl (fun m c => m.write c.1 c.2) [] } }

/-- A state with one operator's dynamic state replaced. -/
def withOp (s : State) (o : Fin 36) (op : OpState) : State :=
  { s with chip := { s.chip with ops := s.chip.ops.set o op } }

/-- A state whose host has handed over these frames. -/
def withBuf (s : State) (l : List (Int × Int)) : State :=
  s.handOver (l.map fun f => ⟨BitVec.ofInt 32 f.1, BitVec.ofInt 32 f.2⟩)

/-- A state whose host is about to issue these words. -/
def pending (s : State) (ws : List Word) : State := { s with host := { s.host with pending := issueWords ws } }

/-- A frame of two integers. -/
def frame (l r : Int) : Frame := ⟨BitVec.ofInt 16 l, BitVec.ofInt 16 r⟩

/-- The buffer of a state as integers. -/
def bufInts (s : State) : List (Int × Int) := s.host.buf.map fun f => (f.l.toInt, f.r.toInt)

/-- The frames of the last answer as integers. -/
def lastPcm (s : State) : List (Int × Int) :=
  match s.host.out.getLast? with
  | some (.pcm frames) => frames.map fun f => (f.l.toInt, f.r.toInt)
  | _ => []

/-- The last answer of `malloc`. -/
def lastIndex (s : State) : Option (Option (Fin 64)) :=
  match s.host.out.getLast? with
  | some (.index i) => some i
  | _ => none

/-- A mixer channel allocated with these levels and frames. -/
def chan (vol : Nat) (pan : Int) (frames : List Frame) : MixChan := ⟨true, vol, pan, frames, frames.length, 0⟩

/-- Reset with mixer channels 0 and 1 allocated as given. -/
def mixed (a b : MixChan) (norm : Bool) : State :=
  { State.reset with mixer := ⟨(Mixer.reset ({} : Params)).chans.set 0 a |>.set 1 b, norm⟩ }

/-- The registers of program P1 (V-P1), keyed. -/
def p1Regs : List (Nat × Byte) :=
  [(0x20, 0x21), (0x23, 0x21), (0x40, 0x3F), (0x60, 0xF0), (0x63, 0xF0), (0x80, 0x0F), (0x83, 0x0F), (0xA0, 0x41),
    (0xB0, 0x32)]

/-- P1 after its first sample: both operators at full volume. -/
def p1State : State :=
  withOp (withOp (regsAt p1Regs) 0 ⟨.decay, 0, 42629803⟩) 1 ⟨.decay, 0, 42629803⟩

/-! ## Decoding words written out from 30_encoding R81 -/

/-- V-CW-1, V-AD-1 to V-AD-6: operator registers. -/
theorem test_decode_operator :
    decodeTableWord 32 0x00002021 = some (.wrOp20 0 0x21) ∧
    decodeTableWord 32 0x00004D3F = some (.wrOp40 11 0x3F) ∧
    decodeTableWord 32 0x000173F0 = some (.wrOp60 31 0xF0) ∧
    decodeTableWord 32 0x0000950F = some (.wrOp80 17 0x0F) ∧
    decodeTableWord 32 0x0000E306 = some (.wrOpE0 1 0x06) := by decide

/-- V-AD-7, V-AD-8: channel registers. -/
theorem test_decode_channel :
    decodeTableWord 32 0x0000A841 = some (.wrChA0 8 0x41) ∧
    decodeTableWord 32 0x0001B432 = some (.wrChB0 13 0x32) ∧
    decodeTableWord 32 0x0000C63E = some (.wrChC0 6 0x3E) := by decide

/-- V-AD-9 to V-AD-11, V-CW-2: global registers. -/
theorem test_decode_global :
    decodeTableWord 32 0x00000120 = some (.wr01 0x20) ∧ decodeTableWord 32 0x00000211 = some (.wr02 0x11) ∧
    decodeTableWord 32 0x00000322 = some (.wr03 0x22) ∧ decodeTableWord 32 0x00000480 = some (.wr04 0x80) ∧
    decodeTableWord 32 0x00000840 = some (.wr08 0x40) ∧ decodeTableWord 32 0x0000BD30 = some (.wrBD 0x30) ∧
    decodeTableWord 32 0x00010401 = some (.wr104 0x01) ∧ decodeTableWord 32 0x00010501 = some (.wr105 0x01) := by decide

/-- V-AD-5, V-AD-7, V-AD-9, V-AD-11: unassigned addresses. -/
theorem test_decode_unassigned :
    decodeTableWord 32 0x000026AA = some (.wrUnassigned 0x026 0xAA) ∧
    decodeTableWord 32 0x0000A9AA = some (.wrUnassigned 0x0A9 0xAA) ∧
    decodeTableWord 32 0x0001BDFF = some (.wrUnassigned 0x1BD 0xFF) ∧
    decodeTableWord 32 0x00000501 = some (.wrUnassigned 0x005 0x01) ∧
    decodeTableWord 32 0x00010101 = some (.wrUnassigned 0x101 0x01) := by decide

/-- V-CW-4 to V-CW-7: the chip commands. -/
theorem test_decode_chip :
    decodeTableWord 32 0x10000008 = some (.gen 8) ∧ decodeTableWord 32 0x1FFFFFFF = some (.gen 268435455) ∧
    decodeTableWord 32 0x2ABCDEF0 = some .reset ∧ decodeTableWord 32 0x30000000 = some .cvt := by decide

/-- V-CW-8 to V-CW-16: the mixer commands. -/
theorem test_decode_mixer :
    decodeTableWord 32 0x40000000 = some .mixAlloc ∧ decodeTableWord 32 0x50000001 = some (.mixRelease 1) ∧
    decodeTableWord 32 0x70404000 = some (.mixVol 1 16384) ∧ decodeTableWord 32 0x7000FFFF = some (.mixVol 0 65535) ∧
    decodeTableWord 32 0x80018000 = some (.mixPan 0 (-32768)) ∧
    decodeTableWord 32 0x8FC08000 = some (.mixPan 63 32768) ∧ decodeTableWord 32 0x90000001 = some (.mixNorm true) ∧
    decodeTableWord 32 0x90000002 = some (.mixNorm false) ∧ decodeTableWord 32 0xA0000000 = some .mix := by decide

/-- V-CW-10: a transaction with operand words; a table row gives it none (count 0). -/
theorem test_decode_mixWrite :
    (decode [0x60000000, 0x00000002, 0x03E803E8, 0xF83007D0, 0xA0000000]).toOption =
      some (.mixWrite 0 [frame 1000 1000, frame 2000 (-2000)], [0xA0000000]) ∧
    decodeTableWord 32 0x60000005 = some (.mixWrite 5 []) ∧
    (decode [0x60000000, 0x00000002, 0x03E803E8]).toOption = none := by decide

/-- V-CW-17: codes 1011 to 1111. -/
theorem test_decode_refuses : ∀ c : Fin 5, decodeTableWord 32 ((11 + c.val) * 2 ^ 28) = none := by decide

/-- The encoder's words for V-CW-10, V-CW-11, V-CW-12 and V-AD-6. -/
theorem test_encode :
    encode (.mixWrite 0 [frame 1000 1000, frame 2000 (-2000)]) = [0x60000000, 0x00000002, 0x03E803E8, 0xF83007D0] ∧
    encode (.mixVol 1 16384) = [0x70404000] ∧ encode (.mixPan 0 (-32768)) = [0x80018000] ∧
    encode (.wrOp60 31 0xF0) = [0x000173F0] := by decide

/-- `withFetchWord` makes the next step run the word: P1's line 10, and a `gen 0`. -/
theorem test_withFetchWord :
    (∀ t, step (State.reset.withFetchWord 32 0x0000B032) = .next t →
      t.chip.ops[0] = ⟨.attack, 511, 0⟩ ∧ t.host.pending = []) ∧
    step (State.reset.withFetchWord 32 0x0000B032) = exec (.wrChB0 0 0x32) State.reset :=
  ⟨fun t h => by obtain rfl := Host.Outcome.next.inj h; decide, rfl⟩

/-- 30_encoding R95, R96: a printed line, and `keyon 0, 577, 4` as P1's lines 9 and 10. -/
theorem test_assembler :
    asm (.mixWrite 0 [frame 100 (-100), frame 200 (-200)]) = "mwr 0, (100,-100), (200,-200)" ∧
    issue (keyonPseudo 0 577 4) = [.word 0x0000A041, .word 0x0000B032] := by decide

/-! ## WellFormed refuses an ill-formed term, one per check -/

/-- An unassigned write of an address that has a class. -/
theorem smoke_wellFormed_unassigned : WellFormed (.wrUnassigned 0x105 1) = false := by decide

/-- A frame count beyond 28 bits. -/
theorem smoke_wellFormed_gen : WellFormed (.gen 268435456) = false := by decide

/-- More frames than a count word can say. -/
theorem smoke_wellFormed_mixWrite :
    WellFormed (.mixWrite 0 (List.replicate 4294967296 (frame 0 0))) = false := by
  rw [WellFormed, List.length_replicate]
  decide

/-- A volume and a pan beyond 17 signed bits. -/
theorem smoke_wellFormed_mixVol : WellFormed (.mixVol 0 65536) = false := by decide

theorem smoke_wellFormed_mixPan : WellFormed (.mixPan 0 (-65537)) = false := by decide

/-! ## Register writes, one step each -/

/-- V-OR-2: every field of 0x20. -/
theorem test_wrOp20 : let m := (after (.wrOp20 0 0xFF) State.reset).chip.regs
    am m 0 = true ∧ vib m 0 = true ∧ egt m 0 = true ∧ ksr m 0 = true ∧ mult m 0 = 15 ∧ mult m 1 = 0 := by decide

/-- V-OR-4. -/
theorem test_wrOp40 : let m := (after (.wrOp40 0 0xC0) State.reset).chip.regs
    ksl m 0 = 3 ∧ tl m 0 = 0 := by decide

/-- V-OR-5. -/
theorem test_wrOp60 : let m := (after (.wrOp60 1 0xF0) State.reset).chip.regs
    m.read 0x63 = 0xF0 ∧ ar m 1 = 15 ∧ dr m 1 = 0 := by decide

/-- V-OR-6, V-OR-7. -/
theorem test_wrOp80 : let m := (after (.wrOp80 1 0xEF) State.reset).chip.regs
    m.read 0x83 = 0xEF ∧ slAtt (sl m 1) = 224 ∧ rr m 1 = 15 ∧ slAtt 15 = 496 := by decide

/-- V-OR-8 to V-OR-10. -/
theorem test_wrOpE0 :
    wsel (after (.wrOpE0 0 0x06) State.reset).chip.regs 0 = 0 ∧
    wsel (after (.wrOpE0 0 0x06) (regsAt [(0x001, 0x20)])).chip.regs 0 = 2 ∧
    wsel (after (.wrOpE0 0 0x06) (regsAt [(0x105, 0x01)])).chip.regs 0 = 6 := by decide

/-- V-KE-1: the F-number's low byte, no key event. -/
theorem test_wrChA0 : let t := after (.wrChA0 0 0x41) (regsAt [(0xB0, 0x32)])
    fnum t.chip.regs 0 = 577 ∧ block t.chip.regs 0 = 4 ∧ t.chip.ops[0] = ⟨.off, 511, 0⟩ := by decide

/-- V-KE-1: a key-on of both operators. -/
theorem test_wrChB0_on : let t := after (.wrChB0 0 0x32) State.reset
    t.chip.ops[0] = ⟨.attack, 511, 0⟩ ∧ t.chip.ops[1] = ⟨.attack, 511, 0⟩ ∧ t.chip.ops[2] = ⟨.off, 511, 0⟩ := by decide

/-- V-KE-4, V-KE-3: a key-off keeps attenuation and phase; a pitch change is no event. -/
theorem test_wrChB0_off : let s := withOp (regsAt [(0xB0, 0x32)]) 0 ⟨.decay, 9, 77⟩
    (after (.wrChB0 0 0x12) s).chip.ops[0] = ⟨.release, 9, 77⟩ ∧
    (after (.wrChB0 0 0x31) s).chip.ops[0] = ⟨.decay, 9, 77⟩ := by decide

/-- 41_channel_regs R134's example: left and right on, FB 7, CNT 0. -/
theorem test_wrChC0 : let m := (after (.wrChC0 0 0x3E) (regsAt [(0x105, 1)])).chip.regs
    fbAmount m 0 = 7 ∧ cnt m 0 = false ∧ routesLeft m 0 = true ∧ routesRight m 0 = true ∧
    routesLeft m 1 = false := by decide

/-- V-OR-9. -/
theorem test_wr01 : wsel (after (.wr01 0x20) (regsAt [(0xE0, 0x06)])).chip.regs 0 = 2 := by decide

/-- 42_global_regs R152: stored only. -/
theorem test_wr02 : (after (.wr02 0xFF) State.reset).chip = { Chip.reset with regs := [(2, 0xFF)] } := by decide

theorem test_wr03 : (after (.wr03 0xFF) State.reset).chip = { Chip.reset with regs := [(3, 0xFF)] } := by decide

theorem test_wr04 : (after (.wr04 0x80) State.reset).chip = { Chip.reset with regs := [(4, 0x80)] } := by decide

/-- 42_global_regs R154's example, with V-ER-3: NTS takes F-number bit 8 into the key code. -/
theorem test_wr08 :
    effRate (after (.wr08 0x40) (regsAt [(0x20, 0x10), (0xA0, 0x41), (0xB0, 0x12)])).chip.regs 0 1 = 12 := by decide

/-- V-KE-6, V-KE-9: rhythm keys. -/
theorem test_wrBD : let t := after (.wrBD 0x30) State.reset
    t.chip.ops[12] = ⟨.attack, 511, 0⟩ ∧ t.chip.ops[13] = ⟨.attack, 511, 0⟩ ∧ t.chip.ops[14].env = .off ∧
    (after (.wrBD 0x21) State.reset).chip.ops[14].env = .attack := by decide

/-- V-KE-7: leaving rhythm mode releases what only a rhythm bit held. -/
theorem test_wrBD_clear :
    (after (.wrBD 0x10) (withOp (regsAt [(0x0BD, 0x30)]) 12 ⟨.attack, 511, 5⟩)).chip.ops[12] =
      ⟨.release, 511, 5⟩ := by decide

/-- V-KE-11, V-KE-12: forming and dissolving a pair while its first channel is keyed. -/
theorem test_wr104 :
    (after (.wr104 0x01) (regsAt [(0x105, 1), (0xB0, 0x32)])).chip.ops[6] = ⟨.attack, 511, 0⟩ ∧
    (after (.wr104 0x00) (regsAt [(0x105, 1), (0x104, 1), (0xB0, 0x32)])).chip.ops[7].env = .release := by decide

/-- V-KE-14: a pair becomes active with NEW. -/
theorem test_wr105 :
    (after (.wr105 0x01) (regsAt [(0x104, 1), (0xB0, 0x32)])).chip.ops[6] = ⟨.attack, 511, 0⟩ := by decide

/-- V-AD-9: `wr 0x1BD` is not the rhythm register. -/
theorem test_wrUnassigned : let t := after (.wrUnassigned 0x1BD 0xFF) State.reset
    t.chip.regs.read 0x1BD = 0xFF ∧ t.chip.regs.read 0x0BD = 0 ∧ t.chip.ops = Chip.reset.ops := by decide

/-! ## Generate, reset, convert -/

/-- V-GN-2, its frame 1: the sum wraps to int32 (L = R = 288 at P1's second sample). -/
theorem test_gen_wraps : bufInts (after (.gen 1) (withBuf p1State [(2147483647, 2147483647)])) =
    [(-2147483361, -2147483361)] := by decide +kernel

/-- P1's second sample: state, phase, history, counters (V-NZ-1, V-LF). -/
theorem test_gen_state : let t := after (.gen 1) p1State
    t.chip.ops[0] = ⟨.sustain, 0, 85259606⟩ ∧ t.chip.sampleCounter = 1 ∧ t.chip.noise = 0x400000 := by decide +kernel

/-- 70_reset R370's example. -/
theorem test_gen_silence : bufInts (after (.gen 4) (withBuf State.reset [(0, 0), (0, 0), (0, 0), (0, 0)])) =
    [(0, 0), (0, 0), (0, 0), (0, 0)] := by decide +kernel

/-- 70_reset R370: all block state, with the parameter, and not the host's buffer. -/
theorem test_reset : let s := withBuf { p1State with params := { normalizeReset := true } } [(7, 8)]
    (after .reset s).chip = Chip.reset ∧ (after .reset s).mixer.normalize = true ∧
    bufInts (after .reset s) = [(7, 8)] := by decide

/-- V-CV-1. -/
theorem test_cvt : lastPcm (after .cvt (withBuf State.reset [(40000, -5), (32767, -32768), (-40000, 0)])) =
    [(32767, -5), (32767, -32768), (-32768, 0)] := by decide

/-- V-CV-2 and V-CV-3: gains 150 and 50, rounding down. -/
theorem test_cvt_gain :
    lastPcm (after .cvt (withBuf { State.reset with params := { outGainPct := 150 } } [(1000, -1000), (-1, 1)])) =
      [(1500, -1500), (-2, 1)] ∧
    lastPcm (after .cvt (withBuf { State.reset with params := { outGainPct := 50 } } [(1000, -1000), (-1, 1)])) =
      [(500, -500), (-1, 0)] := by decide

/-! ## The Virtual Mixer -/

/-- V-MX-9: the lowest free index, its levels reset. -/
theorem test_mixAlloc : let t := after .mixAlloc (mixed (chan 5 5 []) ⟨false, 5, 5, [], 0, 0⟩ false)
    lastIndex t = some (some 1) ∧ t.mixer.chans[1].vol = 32768 ∧ t.mixer.chans[1].pan = 0 ∧
    t.mixer.chans[0].vol = 5 := by decide

/-- V-MX-8: a full pool. -/
theorem test_mixAlloc_full :
    lastIndex (after .mixAlloc { State.reset with mixer := ⟨Vector.replicate 64 (chan 0 0 []), false⟩ }) =
      some none := by decide

/-- P3's line 16. -/
theorem test_mixRelease : let t := after (.mixRelease 1) (mixed (chan 5 5 []) (chan 5 5 [frame 1 1]) false)
    t.mixer.chans[1].allocated = false ∧ t.mixer.chans[1].wr = 0 ∧ t.mixer.chans[0].allocated = true := by decide

/-- V-MX-7: with room for one more frame, two are dropped whole and one is stored. -/
theorem test_mixWrite :
    let s := { mixed (chan 5 0 [frame 1 1, frame 1 1, frame 1 1]) MixChan.reset false with params := { mixCap := 4 } }
    after (.mixWrite 0 [frame 2 2, frame 2 2]) s = s ∧
    (after (.mixWrite 0 [frame 5 5]) s).mixer.chans[0].buf = [frame 1 1, frame 1 1, frame 1 1, frame 5 5] ∧
    (after (.mixWrite 0 [frame 5 5]) s).mixer.chans[0].wr = 4 := by decide

/-- V-MX-0b: a write to a free channel. -/
theorem test_mixWrite_free : after (.mixWrite 0 [frame 1 1]) State.reset = State.reset := by decide

/-- V-CW-14 and 46_generate_and_mixer R292. -/
theorem test_mixVol : (after (.mixVol 0 65535) State.reset).mixer.chans[0].vol = 32768 ∧
    (after (.mixVol 1 16384) State.reset).mixer.chans[1].vol = 16384 ∧
    (after (.mixVol 1 (-1)) State.reset).mixer.chans[1].vol = 0 := by decide

/-- V-CW-12, V-CW-13 and 46_generate_and_mixer R293. -/
theorem test_mixPan : (after (.mixPan 0 (-65536)) State.reset).mixer.chans[0].pan = -32768 ∧
    (after (.mixPan 63 32768) State.reset).mixer.chans[63].pan = 32768 := by decide

/-- P3's line 11. -/
theorem test_mixNorm : (after (.mixNorm true) State.reset).mixer.normalize = true := by decide

/-- V-MX-1: volumes, a shorter channel; both empty after. -/
theorem test_mix :
    let s := mixed (chan 32768 0 [frame 1000 1000, frame 2000 (-2000)]) (chan 16384 0 [frame 30000 30000]) false
    let t := after .mix s
    lastPcm t = [(16000, 16000), (2000, -2000)] ∧ t.mixer.chans[0].wr = 0 ∧ t.mixer.chans[1].rd = 0 := by decide

/-- V-MX-2 and V-MX-3: pan, rounding down, normalisation. -/
theorem test_mix_pan_norm :
    lastPcm (after .mix (mixed (chan 32768 (-32768) [frame 1000 1000]) (chan 16384 0 [frame (-7) (-7)]) false)) =
      [(996, -4)] ∧
    lastPcm (after .mix (mixed (chan 32768 0 [frame 30000 (-30000), frame 3 3])
      (chan 16384 0 [frame 30000 (-30000)]) true)) = [(22500, -22500), (1, 1)] := by decide

/-! ## The operator engine's formulas -/

/-- V-EG-1, V-EG-2. -/
theorem test_envelope_steps : attackLevel 10 1 511 = 447 ∧ stepDecay 63 0 16 ⟨.decay, 14, 0⟩ = ⟨.sustain, 18, 0⟩ := by
  decide

/-- V-EI-2, V-EI-4, V-EI-6, V-EI-8. -/
theorem test_egInc : (List.range 8).map (egInc 51) = [0, 0, 1, 0, 1, 0, 1, 0] ∧
    (List.range 4).map (egInc 55) = [1, 2, 2, 2] ∧ (List.range 4).map (egInc 59) = [2, 4, 4, 4] ∧
    egInc 4 4096 = 1 ∧ egInc 4 8192 = 0 := by decide

/-- V-PH-1, V-PH-4 (which wraps), V-PH-6. -/
theorem test_phaseInc :
    phaseInc (regsAt [(0x20, 1), (0xA0, 0x41), (0xB0, 0x12)]).chip.regs 0 0 = 42629803 ∧
    phaseInc (regsAt [(0x20, 15), (0xA0, 0xFF), (0xB0, 0x1F)]).chip.regs 0 0 = 479796278 ∧
    phaseInc (regsAt [(0x20, 1), (0xA0, 0x01)]).chip.regs 0 0 = 0 := by decide

/-- V-WV-0 to V-WV-7 at p = 0x040, 0x140, 0x280. -/
theorem test_wave : (List.range 8).map (fun ws => [0x040, 0x140, 0x280].map fun p => wave ws p 0) =
    [[1575, 3766, -2896], [1575, 3766, 0], [1575, 3766, 2896], [1575, 0, 2896], [2896, -2896, 0], [2896, 2896, 0],
      [4084, 4084, -4084], [1021, 3, -1]] := by decide +kernel

/-- V-KS-2, V-TA-1. -/
theorem test_attenuation : let m := (regsAt [(0x20, 0x80), (0x40, 0xFF), (0xA0, 0xFF), (0xB0, 0x1F), (0xBD, 0x80)]).chip.regs
    kslAtt m 0 = 224 ∧ totalAtt m 104 0 0 = 502 := by decide

/-- V-RH-5, V-RH-7. -/
theorem test_rhythm_phases : hatPhase 0x084 0x028 true = 0x234 ∧ snarePhase 0x084 true = 0x100 ∧
    cymbalPhase 0x084 0x028 = 0x280 ∧ snarePhase 0x100 true = 0x200 := by decide

/-- V-FB-1, V-FB-4. -/
theorem test_fbMod : let c (fb : Byte) (x y : Int) : Chip :=
      { (regsAt [(0xC0, fb)]).chip with fb := Chip.reset.fb.set 0 ⟨x, y⟩ }
    fbMod (c 0x0A 4000 3000) 0 = 437 ∧ fbMod (c 0x02 (-1) 0) 0 = -1 := by decide

/-! ## Witnesses: the hypotheses of each statement can be met, each clause at boundary values -/

/-- A state that meets the invariant and is about to generate a sample: P1 sounding, one mixer channel holding a frame. -/
def live : State := pending
  { p1State with mixer := ⟨(Mixer.reset ({} : Params)).chans.set 3 (chan 32768 (-32768) [frame 1 2]), true⟩ } [0x10000001]

theorem live_inv : Inv live where
  regs := by decide
  att := by decide
  off := by decide
  fb1 := by decide
  fb2 := by decide
  tremPos := by decide
  vibPos := by decide
  noise := by decide
  vol := by decide
  pan := by decide
  cursors := by decide
  stored := by decide

theorem witness_DecodeOfEncodeIsIdentity :
    WellFormed (.gen 268435455) = true ∧ WellFormed (.mixVol 63 65535) = true ∧ WellFormed (.mixPan 0 (-65536)) = true ∧
    WellFormed (.wrUnassigned 0x1FF 255) = true ∧ WellFormed (.mixWrite 63 [frame (-32768) 32767]) = true := by decide

theorem witness_DecodedTransactionIsWellFormed : decode [0x8FC1FFFF, 7] = .ok (.mixPan 63 (-1), [7]) := rfl

theorem witness_UnassignedCodesRefusedIgnoredBitsFree :
    (pending State.reset [0xB0000000]).host.pending = .word 0xB0000000 :: [] ∧
    11 ≤ (0xB0000000 : Word).toNat / 2 ^ 28 ∧ 11 ≤ (0xFFFFFFFF : Word).toNat / 2 ^ 28 ∧
    (0x00FE2021 : Word) &&& usedBits ((0x00FE2021 : Word).toNat / 2 ^ 28) =
      0x0F002021 &&& usedBits ((0x00FE2021 : Word).toNat / 2 ^ 28) ∧
    (0x8FFE0001 : Word) &&& usedBits ((0x8FFE0001 : Word).toNat / 2 ^ 28) =
      0x8FC00001 &&& usedBits ((0x8FFE0001 : Word).toNat / 2 ^ 28) := by decide

theorem witness_SlotOffsetNamesOperator : (∀ off ∈ [0, 5, 0x15], off < 32 ∧ off / 8 ≤ 2 ∧ off % 8 ≤ 5) ∧
    ∀ off ∈ [6, 0x16, 0x18, 0x1F], off < 32 ∧ ¬ (off / 8 ≤ 2 ∧ off % 8 ≤ 5) := by decide

theorem witness_ChannelOffsetNamesChannel : (∀ l ∈ [0, 8], l < 16 ∧ l ≤ 8) ∧ ∀ l ∈ [9, 13, 15], l < 16 ∧ 8 < l := by
  decide

theorem witness_GlobalAddressesDecode : ∀ a ∈ [0x000, 0x001, 0x004, 0x008, 0x01F, 0x0D0, 0x104, 0x105, 0x1DF],
    (BitVec.ofNat 9 a).toNat % 256 / 32 ∉ [1, 2, 3, 4, 7] ∧ (BitVec.ofNat 9 a).toNat % 256 / 16 ∉ [10, 11, 12] := by
  decide

theorem witness_PseudoTransactionsExpand : 0xE0 ∈ [0x20, 0x40, 0x60, 0x80, 0xE0] ∧ 268435455 < 2 ^ 28 := by decide

theorem witness_StepRunsDecodedTransaction : live.host.pending = .word 0x10000001 :: [] ∧
    decode (0x10000001 :: leadingWords []) = .ok (.gen 1, []) := ⟨rfl, rfl⟩

theorem witness_StepBetweenTransactions : State.reset.host.pending = [] ∧
    ({ State.reset with host := ⟨[.buffer [⟨1, 2⟩]], [], []⟩ } : State).host.pending = .buffer [⟨1, 2⟩] :: [] :=
  ⟨rfl, rfl⟩

theorem witness_RegisterWriteStoresItsByte : regWrite (.wrUnassigned 0x1FF 7) = some (0x1FF, 7) ∧
    regWrite (.wrOp20 35 7) = some (0x135, 7) := by decide

/-- A rising key level, a falling one, and an unchanged one, with and without the rhythm exception. -/
theorem witness_KeyEventsFollowKeyLevels : regWrite (.wrBD 0x30) = some (0x0BD, 0x30) ∧
    keyLevel State.reset.chip.regs 12 = false ∧ keyLevel (after (.wrBD 0x30) State.reset).chip.regs 12 = true ∧
    keyLevel (after (.wrBD 0x30) State.reset).chip.regs 17 = keyLevel State.reset.chip.regs 17 ∧
    keyLevel (regsAt [(0xB0, 0x20)]).chip.regs 1 = true ∧
    keyLevel (after (.wrChB0 0 0) (regsAt [(0xB0, 0x20)])).chip.regs 1 = false := by decide

theorem witness_PlainRegisterWriteOnlyStores : WellFormed (.wrUnassigned 0x1BD 1) = true ∧
    touchesKeys (.wrUnassigned 0x1BD 1) = false ∧ regWrite (.wrUnassigned 0x1BD 1) = some (0x1BD, 1) := by decide

theorem witness_RewriteOfHeldByteChangesNothing : (regsAt p1Regs).chip.regs.wf = true ∧
    regWrite (.wrChB0 0 0x32) = some (0xB0, (regsAt p1Regs).chip.regs.read 0xB0) := by decide

theorem witness_FormingPairKeysSecondChannel : let m := (regsAt [(0x105, 1), (0xBB, 0), (0x1B2, 0x20)]).chip.regs
    newMode m = true ∧ pairActive m 5 = false ∧ (0x20 : Byte).getLsbD 5 = true ∧ kon m (pairFirst 5) = true ∧
    kon m (pairSecond 5) = false := by decide

theorem witness_GenerateAddsEverySample : let s := withBuf p1State [(1, 2), (3, 4)]
    1 ≤ s.host.buf.length ∧ s.host.buf[0]? = some ⟨1, 2⟩ ∧ s.host.buf[1]? = some ⟨3, 4⟩ ∧ 0 < 1 ∧ 1 ≤ 1 := by decide

theorem witness_GenerateFrame : 0 < 1 ∧ State.reset.host.buf.length ≤ 0 ∧ 1 ≤ 1 := by decide

/-- NEW = 0, two states that differ in operator 18 and channel 9 only, and a key-on of operator 18. -/
theorem witness_Opl2ModeFreezesUpperChannels : newMode p1State.chip.regs = false ∧
    (∀ o : Fin 36, o.val < 18 → (withOp p1State 18 ⟨.attack, 5, 5⟩).chip.ops[o] = p1State.chip.ops[o]) ∧
    (withOp p1State 18 ⟨.attack, 5, 5⟩).chip.ops[18] ≠ p1State.chip.ops[18] ∧
    regWrite (.wrChB0 9 0x20) = some (0x1B0, 0x20) ∧ keyLevel State.reset.chip.regs 18 = false ∧
    keyLevel (after (.wrChB0 9 0x20) State.reset).chip.regs 18 = true ∧
    newMode (regsAt [(0x105, 1)]).chip.regs = true := by decide

theorem witness_Opl2ModeFreezesUpperChannels_release : newMode (regsAt [(0x1B8, 0x20)]).chip.regs = false ∧
    keyLevel (regsAt [(0x1B8, 0x20)]).chip.regs 35 = true ∧
    keyLevel (after (.wrChB0 17 0) (regsAt [(0x1B8, 0x20)])).chip.regs 35 = false := by decide

theorem witness_Opl2ModeOutputsAgree : newMode p1State.chip.regs = false ∧
    ∀ f ∈ (withBuf p1State [(5, 5)]).host.buf, f.l = f.r := by decide

theorem witness_AllOperatorsOffIsSilence :
    ∀ o : Fin 36, (regsAt p1Regs).chip.ops[o].env = .off ∧ (regsAt p1Regs).chip.ops[o].att = 511 := by decide

/-- The boundary operators of the two modes; the five states are those of operators 0 to 4. -/
theorem witness_EnvelopeStepByState :
    (newMode p1State.chip.regs = true ∨ (17 : Fin 36).val < 18) ∧
    (newMode (regsAt [(0x105, 1)]).chip.regs = true ∨ (35 : Fin 36).val < 18) ∧
    (withOp State.reset 0 ⟨.attack, 0, 0⟩).chip.ops[0].env = .attack ∧
    (withOp State.reset 1 ⟨.decay, 511, 0⟩).chip.ops[1].env = .decay ∧
    (withOp State.reset 2 ⟨.sustain, 511, 0⟩).chip.ops[2].env = .sustain ∧
    (withOp State.reset 3 ⟨.release, 0, 0⟩).chip.ops[3].env = .release ∧ State.reset.chip.ops[4].env = .off := by decide

theorem witness_EnvelopeIsMonotone :
    (∀ o : Fin 36, (withOp (withOp p1State 2 ⟨.attack, 511, 0⟩) 3 ⟨.release, 0, 0⟩).chip.ops[o].att ≤ 511) ∧
    (withOp p1State 2 ⟨.attack, 511, 0⟩).chip.ops[2].env = .attack ∧ p1State.chip.ops[0].env = .decay ∧
    (withOp p1State 3 ⟨.release, 0, 0⟩).chip.ops[3].env = .release ∧
    (withOp p1State 3 ⟨.sustain, 0, 0⟩).chip.ops[3].env = .sustain := by decide

theorem witness_EnvelopeIncrementValues : (∀ r ∈ [0, 3, 4, 51, 52, 55, 56, 59, 60, 63], r < 64) ∧
    3 / 4 = 0 ∧ 1 ≤ 4 / 4 ∧ 4 / 4 ≤ 12 ∧ 1 % 2 ^ (13 - 4 / 4) ≠ 0 ∧ 4096 % 2 ^ (13 - 4 / 4) = 0 ∧
    1 ≤ 51 / 4 ∧ 51 / 4 ≤ 12 ∧ 1 % 2 ^ (13 - 51 / 4) ≠ 0 ∧ 2 % 2 ^ (13 - 51 / 4) = 0 ∧
    52 / 4 = 13 ∧ 59 / 4 = 14 ∧ 60 / 4 = 15 ∧ 63 / 4 = 15 := by decide

/-- A run; the envelope of operator 0 was in ATTACK, operator 1 in RELEASE, operator 2 in OFF, and stays so. -/
theorem witness_EnvelopeFollowsStateMachine :
    let s := withOp (withOp State.reset 0 ⟨.attack, 500, 0⟩) 1 ⟨.release, 5, 0⟩
    exec (.gen 1) s = .next (after (.gen 1) s) ∧ (after (.gen 1) s).chip.ops[0].env = .attack ∧
    (after (.gen 1) s).chip.ops[1].env = .release ∧ s.chip.ops[2].env = .off :=
  ⟨rfl, by decide +kernel, by decide +kernel, by decide⟩

theorem witness_OnlyKeyOnResetsPhase : (∀ n, Instr.wrChB0 0 0x32 ≠ .gen n) ∧ Instr.wrChB0 0 0x32 ≠ .reset ∧
    exec (.wrChB0 0 0x32) State.reset = .next (after (.wrChB0 0 0x32) State.reset) :=
  ⟨fun _ => by simp, by decide, rfl⟩

theorem witness_OnlyGenerateCountsSamples : (∀ n, Instr.mix ≠ .gen n) ∧ Instr.mix ≠ .reset ∧
    exec .mix State.reset = .next (after .mix State.reset) := ⟨fun _ => by simp, by decide, rfl⟩

theorem witness_PhaseStepAddsIncrement : newMode (regsAt [(0x105, 1)]).chip.regs = true ∨ (35 : Fin 36).val < 18 := by
  decide

theorem witness_LfoPositionsAdvance : p1State.chip.tremPos < 210 ∧
    ({ Chip.reset with tremPos := 209, vibPos := 7 } : Chip).tremPos < 210 ∧
    ({ Chip.reset with tremPos := 209, vibPos := 7 } : Chip).vibPos < 8 := by decide

theorem witness_TremoloIsTriangle : ∀ pos ∈ [0, 104, 105, 209], pos < 210 := by decide

theorem witness_VibratoSequence : ∀ f ∈ [0, 127, 128, 1023], f < 1024 := by decide

theorem witness_NoiseShiftsAndNeverDies : State.reset.chip.noise ≠ 0 ∧ 22 < 23 ∧ 0 < 23 ∧
    exec .mix State.reset = .next (after .mix State.reset) := ⟨by decide, by decide, by decide, rfl⟩

theorem witness_WaveRangeAndSilence : 7 < 8 ∧ 1023 < 1024 ∧ 511 ≤ 511 ∧ State.reset.chip.ops[(35 : Fin 36)].att = 511 := by
  decide

theorem witness_WaveformRelations : (0 < 1024 ∧ 0 < 512) ∧ (511 < 1024 ∧ 511 < 512) ∧ (1023 < 1024 ∧ 512 ≤ 1023) ∧
    511 ≤ 511 ∧ 7 < 8 := by decide

theorem witness_OperatorOutputPhase : ((regsAt [(0x0BD, 0x20)]).chip.regs.read 0x0BD).getLsbD 5 = true ∧
    (State.reset.chip.regs.read 0x0BD).getLsbD 5 = false ∧
    ((13 : Fin 36) ≠ 14 ∧ (13 : Fin 36) ≠ 15 ∧ (13 : Fin 36) ≠ 17) := by decide

/-- The four algorithms of a pair. -/
theorem witness_UnitOutputs : ∀ a b : Bool,
    let m := (regsAt [(0x105, 1), (0x104, 1), (0xC0, BitVec.ofNat 8 a.toNat), (0xC3, BitVec.ofNat 8 b.toNat)]).chip.regs
    pairActive m 0 = true ∧ cnt m (pairFirst 0) = a ∧ cnt m (pairSecond 0) = b := by decide

theorem witness_SampleSumsAreBounded : SynthUnit.bassDrum ≠ .hatSnare ∧ SynthUnit.bassDrum ≠ .tomCymbal := by decide

/-- Operators of the first and of the last channel. -/
theorem witness_FrequencyFieldsOfChannel : (1 : Fin 36).val / 2 = (0 : Fin 18).val ∧
    (34 : Fin 36).val / 2 = (17 : Fin 18).val := by decide

theorem witness_FeedbackHistory_bound : let m := (regsAt [(0x0C3, 0x0E)]).chip
    let c : Chip := { m with fb := m.fb.set 3 ⟨-4084, -4084⟩ }
    |c.fb[(3 : Fin 18)].fb1| ≤ 4084 ∧ |c.fb[(3 : Fin 18)].fb2| ≤ 4084 ∧ fbMod c 3 = -2042 := by decide

theorem witness_FeedbackHistory : let m := (regsAt [(0x105, 1), (0x104, 0x20), (0x0BD, 0x20)]).chip.regs
    newMode m = true ∧ pairActive m 5 = true ∧ (m.read 0x0BD).getLsbD 5 = true ∧
    (∀ k, pairActive m k = true → (6 : Fin 18) ≠ pairSecond k) ∧
    ¬ ((m.read 0x0BD).getLsbD 5 = true ∧ ((6 : Fin 18) = 7 ∨ (6 : Fin 18) = 8)) := by decide

theorem witness_ConvertScalesAndSaturates : let s := withBuf State.reset [(32767, -32767)]
    s.host.buf[0]? = some ⟨32767, BitVec.ofInt 32 (-32767)⟩ ∧ s.params.outGainPct = 100 ∧
    |(32767 : Word).toInt| ≤ 32767 ∧ |(BitVec.ofInt 32 (-32767)).toInt| ≤ 32767 := by decide

theorem witness_AllocateTakesLowestFree :
    (∀ i : Fin 64, (Vector.replicate 64 (chan 0 0 []))[i].allocated = true) ∧
    let s := mixed (chan 5 5 []) (chan 5 5 []) false
    s.mixer.chans[(2 : Fin 64)].allocated = false ∧ ∀ j : Fin 64, j < 2 → s.mixer.chans[j].allocated = true := by decide

theorem witness_MixWriteAppendsOrDrops :
    let s := { mixed (chan 5 0 [frame 1 1]) MixChan.reset false with params := { mixCap := 2 } }
    (s.mixer.chans[(0 : Fin 64)].allocated = true ∧
      s.mixer.chans[(0 : Fin 64)].wr + [frame 2 2].length ≤ s.params.mixCap) ∧
    s.params.mixCap < s.mixer.chans[(0 : Fin 64)].wr + [frame 2 2, frame 3 3].length ∧
    s.mixer.chans[(1 : Fin 64)].allocated = false := by decide

/-- A pass of two frames: the second exists. -/
theorem witness_MixPassSumsAndDrains :
    let s := mixed (chan 32768 0 [frame 1 2, frame 3 4]) (chan 32768 0 [frame 5 6]) true
    lastPcm (after .mix s) = [(3, 4), (1, 2)] := by decide

theorem witness_MixerSummationLaw : let s := mixed (chan 32768 0 [frame 7 8]) (chan 16384 0 [frame 9 10]) true
    (0 : Fin 64) ≠ 1 ∧ (∀ k : Fin 64, s.mixer.chans[k].allocated = true ↔ k = 0 ∨ k = 1) ∧
    s.mixer.chans[(0 : Fin 64)].wr = s.mixer.chans[(0 : Fin 64)].rd + 1 ∧
    s.mixer.chans[(1 : Fin 64)].wr = s.mixer.chans[(1 : Fin 64)].rd + 1 ∧
    s.mixer.chans[(0 : Fin 64)].buf[s.mixer.chans[(0 : Fin 64)].rd]? = some (frame 7 8) ∧
    s.mixer.chans[(1 : Fin 64)].buf[s.mixer.chans[(1 : Fin 64)].rd]? = some (frame 9 10) ∧
    s.mixer.chans[(0 : Fin 64)].pan = 0 ∧ s.mixer.chans[(1 : Fin 64)].pan = 0 := by decide

theorem witness_ChipAndMixerAreSeparate : isMixerInstr .mix = true ∧ isMixerInstr (.gen 1) = false ∧
    Instr.gen 1 ≠ .reset ∧ exec .mix State.reset = .next (after .mix State.reset) ∧
    exec (.gen 1) State.reset = .next (after (.gen 1) State.reset) := ⟨by decide, by decide, by decide, rfl, rfl⟩

/-- Two states that differ in a timer register. -/
theorem witness_UnreadRegistersAreNeverObserved :
    (WellFormed (.wr04 1) = true ∧ regWrite (.wr04 1) = some (0x004, 1) ∧ readByNoRule 0x004) ∧
    SameButUnread State.reset (regsAt [(0x004, 0x80)]) ∧
    State.reset.chip.regs.read 0x004 ≠ (regsAt [(0x004, 0x80)]).chip.regs.read 0x004 := by
  refine ⟨⟨by decide, by decide, .inr (.inr (.inr (.inl rfl)))⟩,
    ⟨rfl, rfl, rfl, rfl, rfl, rfl, rfl, rfl, rfl, fun a ha => ?_⟩, by decide⟩
  have h4 : a ≠ 4 := fun h => ha (.inr (.inr (.inr (.inl h))))
  have hw : (regsAt [(0x004, 0x80)]).chip.regs = RegFile.write [] 0x004 0x80 := rfl
  rw [hw, RegFile.read_write_other _ _ h4]
  rfl

theorem witness_StepKeepsInvariant : Inv live ∧ step live = .next (after (.gen 1) (live.consume 1)) := ⟨live_inv, rfl⟩

end Sys2Proof.Tests
end

section
/-! PROOFS. The step against the scope's rules: what it does with a stream that begins with a transaction (00_scope). -/

namespace Sys2Proof.Machine

/-- The transaction's case of `step`: the word list that is decoded is the stream's own head, up to the next buffer. -/
theorem step_eq_exec_consume {s : State} {w : Word} {rest : List HostItem} {i : Instr} {ws : List Word}
    (hpending : s.host.pending = .word w :: rest) (hdecode : decode (w :: leadingWords rest) = .ok (i, ws)) :
    step s = exec i (s.consume (wordCount i)) := by
  simp only [step, hpending, hdecode]

/-- Settles O10: the state the transaction finds is `State.consume`, by its definition. -/
theorem stepRunsDecodedTransaction : Obligations.StepRunsDecodedTransaction :=
  fun _ _ _ _ _ hpending hdecode => step_eq_exec_consume hpending hdecode

end Sys2Proof.Machine
end

section
/-! PROOFS. What a transaction of each kind leaves alone, and the separation of the chip and the Virtual Mixer
(10_state R20, R37). -/

namespace Sys2Proof.Machine

/-- The five kinds of transaction: a register write, a transaction of the mixer, `gen`, `reset` and `cvt`. -/
theorem instr_kinds (i : Instr) :
    (∃ a v, regWrite i = some (a, v)) ∨ isMixerInstr i = true ∨ (∃ n, i = .gen n) ∨ i = .reset ∨ i = .cvt := by
  cases i <;> simp [regWrite, isMixerInstr]

/-- A register write completes with the chip written and the rest of the machine as it was (30_encoding R86). -/
theorem exec_regWrite {i : Instr} {a : Nat} {v : Byte} (h : regWrite i = some (a, v)) (s : State) :
    exec i s = .next (s.withChip (s.chip.writeReg s.params a v)) := by
  rw [exec_of_regWrite h, writeRegister_eq]

/-- A transaction of the mixer completes, changes nothing of the chip, the parameters and the pending stream, and does on
another chip what it does on this one. -/
theorem exec_mixer {i : Instr} (hi : isMixerInstr i = true) (s : State) :
    ∃ t, exec i s = .next t ∧ t.chip = s.chip ∧ t.params = s.params ∧ t.host.pending = s.host.pending ∧
      ∀ c, exec i (s.withChip c) = .next (t.withChip c) := by
  cases i <;> simp only [isMixerInstr, Bool.false_eq_true] at hi
  case mixAlloc =>
    cases hfree : s.mixer.firstFree <;> simp only [exec, execMixAlloc, State.withChip_mixer, hfree] <;>
      exact ⟨_, rfl, rfl, rfl, rfl, fun _ => rfl⟩
  case mixWrite j frames =>
    by_cases hfits : (s.mixer.chans[j].allocated &&
        decide (s.mixer.chans[j].wr + frames.length ≤ s.params.mixCap)) = true
    · exact ⟨_, if_pos hfits, rfl, rfl, rfl, fun _ => if_pos hfits⟩
    · exact ⟨_, if_neg hfits, rfl, rfl, rfl, fun _ => if_neg hfits⟩
  all_goals exact ⟨_, rfl, rfl, rfl, rfl, fun _ => rfl⟩

/-- A transaction of the mixer changes no chip state. -/
theorem exec_mixer_chip {i : Instr} {s t : State} (hi : isMixerInstr i = true) (h : exec i s = .next t) :
    t.chip = s.chip := by
  obtain ⟨t', ht, hchip, -⟩ := exec_mixer hi s
  cases h.symm.trans ht
  exact hchip

/-- Of the transactions outside the mixer only `reset` changes the mixer. -/
theorem exec_nonMixer_mixer {i : Instr} {s t : State} (hi : isMixerInstr i = false) (hr : i ≠ .reset)
    (h : exec i s = .next t) : t.mixer = s.mixer := by
  rcases instr_kinds i with ⟨a, v, hw⟩ | hm | ⟨n, rfl⟩ | rfl | rfl
  · cases h.symm.trans (exec_regWrite hw s)
    rfl
  · exact absurd (hm.symm.trans hi) (by decide)
  · cases h
    rfl
  · exact absurd rfl hr
  · cases h
    rfl

/-- No transaction changes a parameter or the host's pending stream. -/
theorem exec_params_pending {i : Instr} {s t : State} (h : exec i s = .next t) :
    t.params = s.params ∧ t.host.pending = s.host.pending := by
  rcases instr_kinds i with ⟨a, v, hw⟩ | hm | ⟨n, rfl⟩ | rfl | rfl
  · cases h.symm.trans (exec_regWrite hw s)
    exact ⟨rfl, rfl⟩
  · obtain ⟨t', ht, -, hparams, hpending, -⟩ := exec_mixer hm s
    cases h.symm.trans ht
    exact ⟨hparams, hpending⟩
  all_goals
    cases h
    exact ⟨rfl, rfl⟩

/-- Settles O57: a mixer transaction computes the mixer and the answers from a state whose chip it does not read, and
every other transaction but `reset` builds its next state around the mixer it found. -/
theorem chipAndMixerAreSeparate : Obligations.ChipAndMixerAreSeparate := by
  refine ⟨fun _ _ _ => exec_mixer_chip, fun _ _ _ => exec_nonMixer_mixer, fun i s c hi => ?_,
    fun _ _ _ => exec_params_pending⟩
  obtain ⟨t, ht, -, -, -, hc⟩ := exec_mixer hi s
  exact ⟨t, ht, hc c⟩

end Sys2Proof.Machine
end

section
/-! PROOFS. The ranges of the chip's state (10_state R31 to R36): they hold at reset, and a register write and a sample
step keep them. -/

namespace Sys2Proof.Machine

/-- An operator's attenuation is in 0..511, and 511 in OFF (R31, R191). -/
structure OpInv (op : OpState) : Prop where
  att : op.att ≤ 511
  off : op.env = .off → op.att = 511

/-- An operator output is in -4084..4084 (R33). -/
def OutputInRange (x : Int) : Prop := -4084 ≤ x ∧ x ≤ 4084

/-- The part of `Inv` that speaks of the chip. -/
structure ChipInv (c : Chip) : Prop where
  regs : c.regs.wf = true
  ops : ∀ o : Fin 36, OpInv c.ops[o]
  fb1 : ∀ ch : Fin 18, OutputInRange c.fb[ch].fb1
  fb2 : ∀ ch : Fin 18, OutputInRange c.fb[ch].fb2
  tremPos : c.tremPos < 210
  vibPos : c.vibPos < 8
  noise : c.noise ≠ 0

/-- A key event leaves the attenuation and never turns an operator OFF (44_channel_synthesis R238, R239). -/
theorem keyEvent_opInv {op : OpState} (h : OpInv op) (p : Params) (m m' : RegFile) (o : Fin 36) :
    OpInv (keyEvent p m m' o op) := by
  rcases keyEvent_cases p m m' o op with ⟨-, heq⟩ | ⟨-, -, heq⟩ | ⟨-, -, heq⟩ <;> rw [heq]
  · exact h
  · exact ⟨h.att, nofun⟩
  · exact ⟨h.att, nofun⟩

theorem stepAttack_opInv {op : OpState} (h : OpInv op) (r c : Nat) : OpInv (stepAttack r c op) where
  att := (attackLevel_le _ _ _).trans h.att
  off hoff := by simp only [stepAttack] at hoff; split at hoff <;> cases hoff

theorem stepDecay_opInv {op : OpState} (h : OpInv op) (r c level : Nat) : OpInv (stepDecay r c level op) where
  att := by
    simp only [stepDecay]
    split
    · exact min_le_left _ _
    · exact h.att
  off hoff := by simp only [stepDecay] at hoff; split_ifs at hoff

/-- The step that ends in OFF does so only at silence (43_operator_engine R189, R190). -/
theorem stepFall_opInv {op : OpState} (h : OpInv op) (r c : Nat) : OpInv (stepFall r c op) where
  att := min_le_left _ _
  off := by
    simp only [stepFall]
    split
    · exact fun _ => ‹_›
    · intro hoff
      have := h.off hoff
      simp only [Config.envMax]
      omega

/-- An envelope step keeps the attenuation in range and OFF at silence (43_operator_engine R186 to R191). -/
theorem stepEnvelope_opInv {op : OpState} (h : OpInv op) (m : RegFile) (c : Nat) (o : Fin 36) :
    OpInv (stepEnvelope m c o op) := by
  unfold stepEnvelope
  split
  · exact stepAttack_opInv h _ _
  · exact stepDecay_opInv h _ _ _
  · split
    · exact h
    · exact stepFall_opInv h _ _
  · exact stepFall_opInv h _ _
  · exact ⟨le_refl 511, fun _ => rfl⟩

theorem nextOp_opInv {c : Chip} {o : Fin 36} (h : OpInv c.ops[o]) : OpInv (nextOp c o) := by
  cases hs : synthesised c.regs (chanOf o) with
  | false => rwa [nextOp_frozen hs]
  | true =>
    have := stepEnvelope_opInv h c.regs c.sampleCounter.toNat o
    rw [nextOp_synthesised hs]
    exact ⟨this.att, this.off⟩

/-- Every waveform's value is an output in range, since EXP's is (43_operator_engine R205, R212). -/
theorem wave_inRange (ws p att : Nat) : OutputInRange (wave ws p att) := by
  have := expValue_le (waveLevel ws p + att * 8)
  simp only [OutputInRange, wave]
  split <;> omega

theorem opOut_inRange (c : Chip) (o : Fin 36) (mod : Int) : OutputInRange (opOut c o mod) := wave_inRange _ _ _

/-- The third output of a pair is that of its second channel's first operator, under some modulation (R243). -/
theorem fourOpOut_v3 (c : Chip) (k : Fin 6) :
    ∃ mod, (fourOpOut c k).v3 = opOut c (firstOp (pairSecond k)) mod := by
  unfold fourOpOut
  dsimp only
  split <;> exact ⟨_, rfl⟩

/-- What enters a channel's feedback history is the output of its first operator, under some modulation (R242). -/
theorem firstOut_eq_opOut (c : Chip) (ch : Fin 18) : ∃ mod, firstOut c ch = opOut c (firstOp ch) mod := by
  unfold firstOut
  split
  · rename_i k hk
    obtain ⟨rfl, -⟩ := activeSecond_some hk
    exact fourOpOut_v3 c k
  · split <;> exact ⟨_, rfl⟩

theorem firstOut_inRange (c : Chip) (ch : Fin 18) : OutputInRange (firstOut c ch) := by
  obtain ⟨mod, heq⟩ := firstOut_eq_opOut c ch
  exact heq ▸ opOut_inRange c _ mod

/-- The feedback history moves on by one output or, in a frozen channel, stands still (R242, R163). -/
theorem nextFeedback_inRange {c : Chip} {ch : Fin 18} (h1 : OutputInRange c.fb[ch].fb1)
    (h2 : OutputInRange c.fb[ch].fb2) :
    OutputInRange (nextFeedback c ch).fb1 ∧ OutputInRange (nextFeedback c ch).fb2 := by
  unfold nextFeedback
  split
  · exact ⟨firstOut_inRange c ch, h1⟩
  · exact ⟨h1, h2⟩

/-- The noise register never dies (45_lfo_noise R266): a shift to the right loses only bit 0, and where bit 0 is the last
one, it is fed back into bit 22. -/
theorem nextNoise_ne_zero {n : BitVec 23} (h : n ≠ 0) : nextNoise n ≠ 0 := by
  intro hz
  have hshift : n >>> 1 = 0 := (BitVec.or_eq_zero_iff.mp hz).1
  have hlt : n.toNat < 2 := by
    have hdiv : n.toNat / 2 = 0 := by simpa [Nat.shiftRight_eq_div_pow] using congrArg BitVec.toNat hshift
    omega
  have hone : n = 1 := by
    have : n.toNat ≠ 0 := fun h0 => h (BitVec.eq_of_toNat_eq h0)
    exact BitVec.eq_of_toNat_eq (by simp; omega)
  subst hone
  exact absurd hz (by decide)

theorem OpState.reset_opInv : OpInv OpState.reset := ⟨le_refl 511, fun _ => rfl⟩

theorem Chip.reset_chipInv : ChipInv Chip.reset where
  regs := rfl
  ops o := by simpa [Chip.reset] using OpState.reset_opInv
  fb1 ch := by simp [Chip.reset, OutputInRange]
  fb2 ch := by simp [Chip.reset, OutputInRange]
  tremPos := by decide
  vibPos := by decide
  noise := by decide

/-- A register write stores its byte and raises key events, nothing else (30_encoding R86). -/
theorem Chip.writeReg_chipInv {c : Chip} (h : ChipInv c) (p : Params) {a : Nat} (ha : a < 512) (v : Byte) :
    ChipInv (c.writeReg p a v) where
  regs := RegFile.write_wf h.regs ha
  ops o := by
    simp only [Fin.getElem_fin, Chip.writeReg_ops]
    exact keyEvent_opInv (h.ops o) _ _ _ _
  fb1 := h.fb1
  fb2 := h.fb2
  tremPos := h.tremPos
  vibPos := h.vibPos
  noise := h.noise

/-- A sample step keeps the chip in its ranges (46_generate_and_mixer R282). -/
theorem Chip.nextSample_chipInv {c : Chip} (h : ChipInv c) : ChipInv c.nextSample where
  regs := h.regs
  ops o := by
    simp only [Fin.getElem_fin, Chip.nextSample_ops]
    exact nextOp_opInv (h.ops o)
  fb1 ch := by
    simp only [Fin.getElem_fin, Chip.nextSample_fb]
    exact (nextFeedback_inRange (h.fb1 ch) (h.fb2 ch)).1
  fb2 ch := by
    simp only [Fin.getElem_fin, Chip.nextSample_fb]
    exact (nextFeedback_inRange (h.fb1 ch) (h.fb2 ch)).2
  tremPos := by
    have := h.tremPos
    rw [Chip.nextSample_tremPos, Chip.advance_tremPos]
    split <;> omega
  vibPos := by
    have := h.vibPos
    rw [Chip.nextSample_vibPos, Chip.advance_vibPos]
    split <;> omega
  noise := nextNoise_ne_zero h.noise

end Sys2Proof.Machine
end

section
/-! PROOFS. The ranges of a mixer channel (10_state R37): every transaction of the Virtual Mixer keeps them. -/

namespace Sys2Proof.Machine

/-- The part of `Inv` that speaks of one mixer channel, under the capacity `cap`. -/
structure MixChanInv (cap : Nat) (ch : MixChan) : Prop where
  vol : ch.vol ≤ 32768
  pan : -32768 ≤ ch.pan ∧ ch.pan ≤ 32768
  cursors : ch.rd ≤ ch.wr ∧ ch.wr ≤ cap
  stored : ch.wr ≤ ch.buf.length ∧ ch.buf.length ≤ cap

/-- Every channel of the mixer is in its ranges. -/
def MixerInv (cap : Nat) (m : Mixer) : Prop := ∀ i : Fin 64, MixChanInv cap m.chans[i]

theorem MixChan.reset_mixChanInv (cap : Nat) : MixChanInv cap MixChan.reset where
  vol := le_refl 32768
  pan := by decide
  cursors := ⟨Nat.le_refl 0, Nat.zero_le cap⟩
  stored := ⟨Nat.le_refl 0, Nat.zero_le cap⟩

theorem Mixer.reset_mixerInv (cap : Nat) (p : Params) : MixerInv cap (Mixer.reset p) := by
  intro i
  simpa [Mixer.reset] using MixChan.reset_mixChanInv cap

section channel

variable {cap : Nat} {ch : MixChan}

theorem MixChanInv.emptied (h : MixChanInv cap ch) : MixChanInv cap ch.emptied where
  vol := h.vol
  pan := h.pan
  cursors := ⟨Nat.le_refl 0, Nat.zero_le cap⟩
  stored := ⟨Nat.zero_le _, h.stored.2⟩

/-- No range speaks of the allocation. -/
theorem MixChanInv.allocated (h : MixChanInv cap ch) (b : Bool) : MixChanInv cap { ch with allocated := b } :=
  ⟨h.vol, h.pan, h.cursors, h.stored⟩

theorem MixChanInv.withVol (h : MixChanInv cap ch) {v : Nat} (hv : v ≤ 32768) :
    MixChanInv cap { ch with vol := v } := ⟨hv, h.pan, h.cursors, h.stored⟩

theorem MixChanInv.withPan (h : MixChanInv cap ch) {p : Int} (hp : -32768 ≤ p ∧ p ≤ 32768) :
    MixChanInv cap { ch with pan := p } := ⟨h.vol, hp, h.cursors, h.stored⟩

/-- Frames that fit are stored within the capacity (46_generate_and_mixer R290). -/
theorem MixChanInv.store (h : MixChanInv cap ch) {frames : List Frame} (hfits : ch.wr + frames.length ≤ cap) :
    MixChanInv cap { ch with buf := fifoStore ch.buf ch.wr frames, wr := ch.wr + frames.length } where
  vol := h.vol
  pan := h.pan
  cursors := ⟨h.cursors.1.trans (Nat.le_add_right _ _), hfits⟩
  stored := by
    have := h.stored
    simp only [fifoStore_length]
    omega

end channel

/-- Replacing one channel by one in its ranges keeps the mixer in its ranges. -/
theorem State.withMixChan_mixerInv {s : State} {cap : Nat} (h : MixerInv cap s.mixer) (i : Fin 64) {ch : MixChan}
    (hch : MixChanInv cap ch) : MixerInv cap (s.withMixChan i ch).mixer := by
  intro j
  simp only [Fin.getElem_fin, State.withMixChan_getElem]
  split
  · exact hch
  · exact h j

/-- A pass empties channels and does nothing else to them (46_generate_and_mixer R298). -/
theorem Mixer.drained_mixerInv {m : Mixer} {cap : Nat} (h : MixerInv cap m) : MixerInv cap m.drained := by
  intro i
  simp only [Fin.getElem_fin, Mixer.drained_getElem]
  split
  · exact (h i).emptied
  · exact h i

/-- Every transaction of the mixer keeps its channels in their ranges. -/
theorem exec_mixer_mixerInv {i : Instr} {s t : State} (hi : isMixerInstr i = true)
    (h : MixerInv s.params.mixCap s.mixer) (ht : exec i s = .next t) : MixerInv s.params.mixCap t.mixer := by
  cases i <;> simp only [isMixerInstr, Bool.false_eq_true] at hi
  case mixAlloc =>
    simp only [exec, execMixAlloc] at ht
    split at ht <;> cases ht
    · rename_i j _
      exact State.withMixChan_mixerInv h j
        ((((h j).emptied.allocated true).withVol (le_refl 32768)).withPan (by decide))
    · exact h
  case mixRelease j =>
    cases ht
    exact State.withMixChan_mixerInv h j ((h j).emptied.allocated false)
  case mixWrite j frames =>
    simp only [exec, execMixWrite, Bool.and_eq_true, decide_eq_true_eq] at ht
    split at ht <;> cases ht
    · rename_i hfits
      exact State.withMixChan_mixerInv h j ((h j).store hfits.2)
    · exact h
  case mixVol j v =>
    cases ht
    exact State.withMixChan_mixerInv h j ((h j).withVol (by simp only [Config.q15One]; omega))
  case mixPan j p =>
    cases ht
    exact State.withMixChan_mixerInv h j ((h j).withPan (by simp only [Config.q15One]; omega))
  case mixNorm b =>
    cases ht
    exact h
  case mix =>
    cases ht
    exact Mixer.drained_mixerInv h

end Sys2Proof.Machine
end

section
/-! PROOFS. The invariant of the whole machine: it holds at reset, and every transaction and every step keeps it
(10_state R40, R31 to R37). -/

namespace Sys2Proof.Machine

/-- The invariant is the chip's and the mixer channels'; it does not speak of the host's side. -/
theorem inv_iff (s : State) : Inv s ↔ ChipInv s.chip ∧ MixerInv s.params.mixCap s.mixer := by
  constructor
  · intro h
    exact ⟨⟨h.regs, fun o => ⟨h.att o, h.off o⟩, h.fb1, h.fb2, h.tremPos, h.vibPos, h.noise⟩,
      fun i => ⟨h.vol i, h.pan i, h.cursors i, h.stored i⟩⟩
  · rintro ⟨hc, hm⟩
    exact
      { regs := hc.regs
        att := fun o => (hc.ops o).att
        off := fun o => (hc.ops o).off
        fb1 := hc.fb1
        fb2 := hc.fb2
        tremPos := hc.tremPos
        vibPos := hc.vibPos
        noise := hc.noise
        vol := fun i => (hm i).vol
        pan := fun i => (hm i).pan
        cursors := fun i => (hm i).cursors
        stored := fun i => (hm i).stored }

/-- A change of the host's side alone keeps the invariant. -/
theorem inv_of_sameBlock {s t : State} (h : Inv s) (hparams : t.params = s.params) (hchip : t.chip = s.chip)
    (hmixer : t.mixer = s.mixer) : Inv t := by
  rw [inv_iff, hparams, hchip, hmixer]
  exact (inv_iff s).mp h

/-- A transaction that completes keeps the invariant. -/
theorem exec_inv {i : Instr} {s t : State} (hs : Inv s) (h : exec i s = .next t) : Inv t := by
  obtain ⟨hc, hm⟩ := (inv_iff s).mp hs
  rw [inv_iff, (exec_params_pending h).1]
  rcases instr_kinds i with ⟨a, v, hw⟩ | hi | ⟨n, rfl⟩ | rfl | rfl
  · cases h.symm.trans (exec_regWrite hw s)
    exact ⟨Chip.writeReg_chipInv hc s.params (regWrite_lt hw) v, hm⟩
  · exact ⟨exec_mixer_chip hi h ▸ hc, exec_mixer_mixerInv hi hm h⟩
  · obtain ⟨t', ht, hchip, -, -, hmixer, -⟩ := exec_gen n s
    cases h.symm.trans ht
    rw [hchip, hmixer]
    exact ⟨iterate_nextSample_inv (P := ChipInv) (fun _ => Chip.nextSample_chipInv) n hc, hm⟩
  · cases h
    exact ⟨Chip.reset_chipInv, Mixer.reset_mixerInv _ _⟩
  · cases h
    exact ⟨hc, hm⟩

/-- A step that completes does nothing, hands over a buffer, or takes a transaction off the stream and executes it. -/
theorem step_cases {s t : State} (h : step s = .next t) :
    t = s ∨ (∃ frames, t = (s.consume 1).handOver frames) ∨ ∃ i, exec i (s.consume (wordCount i)) = .next t := by
  unfold step at h
  split at h
  · cases h
    exact .inl rfl
  · cases h
    exact .inr (.inl ⟨_, rfl⟩)
  · split at h
    · exact .inr (.inr ⟨_, h⟩)
    · cases h

/-- Settles O59: the chip's and the mixer's reset values are in their ranges. -/
theorem resetMeetsInvariant : Obligations.ResetMeetsInvariant :=
  (inv_iff _).mpr ⟨Chip.reset_chipInv, Mixer.reset_mixerInv _ _⟩

/-- Settles O60: a step changes the block through one transaction only, and each kind of transaction keeps the chip's and
the mixer's ranges. -/
theorem stepKeepsInvariant : Obligations.StepKeepsInvariant := by
  intro s t hs h
  rcases step_cases h with rfl | ⟨frames, rfl⟩ | ⟨i, hexec⟩
  · exact hs
  · exact inv_of_sameBlock hs rfl rfl rfl
  · exact exec_inv (s := s.consume _) (inv_of_sameBlock hs rfl rfl rfl) hexec

end Sys2Proof.Machine
end

section
/-! PROOFS. The state right after reset (10_state R40). -/

namespace Sys2Proof.Machine

/-- Where every register byte is 0 no key is held (44_channel_synthesis R236). -/
theorem keyLevel_of_read_zero {m : RegFile} (h : ∀ a, m.read a = 0) (o : Fin 36) : keyLevel m o = false := by
  simp [keyLevel, kon, chreg, rhythmKey, rhy, h, bitOf_eq_getLsbD]

/-- Settles O56: every byte of the empty register space reads 0, so no mode and no key bit is set; the rest are the values
of the reset table. -/
theorem resetState : Obligations.ResetState := by
  refine ⟨rfl, fun _ => rfl, fun o => ?_, fun ch => ?_, rfl, rfl, rfl, rfl, fun i => ?_, rfl, rfl, rfl, fun _ => rfl,
    keyLevel_of_read_zero fun _ => rfl⟩
  · simp [State.reset, Chip.reset, OpState.reset, Config.envMax]
  · simp [State.reset, Chip.reset]
  · simp [State.reset, Mixer.reset, MixChan.reset, Config.q15One]

end Sys2Proof.Machine
end

section
/-! PROOFS. The decoder read command code by command code, and its round trip with the encoder (30_encoding R80 to
R82). -/

namespace Sys2Proof

/-- The command code of a word is its top four bits, and nothing lies above them (30_encoding R80). -/
theorem commandCode_eq_div (w : Word) : bitsOf w.toNat 31 28 = w.toNat / 2 ^ 28 := by
  have := w.isLt
  unfold bitsOf
  omega

/-- A word of code 0000 decodes to a register write, alone (30_encoding R81). -/
theorem decode_of_code_zero {w : Word} (hcode : bitsOf w.toNat 31 28 = 0) (ws : List Word) :
    decode (w :: ws) = .ok (decodeW w.toNat, ws) := by
  simp only [decode, hcode]

/-- A word of code 1011 to 1111 spells no transaction (30_encoding R82). -/
theorem decode_of_unassigned_code {w : Word} (hcode : 11 ≤ bitsOf w.toNat 31 28) (ws : List Word) :
    decode (w :: ws) = .error (.unassignedCommand (bitsOf w.toNat 31 28)) := by
  simp only [decode]
  split
  case h_12 => rfl
  all_goals omega

/-- A register write encodes to the one word of its address and value (30_encoding R81, R86). -/
theorem encode_of_regWrite {i : Instr} {a : Nat} {v : Byte} (h : Machine.regWrite i = some (a, v)) :
    encode i = [wordW a v] := by
  cases i <;> simp only [Machine.regWrite, Option.some.injEq, Prod.mk.injEq, reduceCtorEq] at h <;>
    obtain ⟨rfl, rfl⟩ := h <;> rfl

/-- A well-formed register write is the write transaction of its address: the address map sends every operator, channel
and global register back to itself (30_encoding R87 to R92). -/
theorem writeInstr_of_regWrite {i : Instr} {a : Nat} {v : Byte} (hwf : WellFormed i = true)
    (h : Machine.regWrite i = some (a, v)) : writeInstr (BitVec.ofNat 9 a) v = i := by
  cases i <;> simp only [Machine.regWrite, Option.some.injEq, Prod.mk.injEq, reduceCtorEq] at h <;>
    obtain ⟨rfl, rfl⟩ := h
  case wrOp20 o v | wrOp40 o v | wrOp60 o v | wrOp80 o v | wrOpE0 o v => simp only [writeInstr, classOf_opAddr o]
  case wrChA0 ch v | wrChB0 ch v | wrChC0 ch v => simp only [writeInstr, classOf_chAddr ch]
  case wrUnassigned a v =>
    have hclass : classOf a = .unassigned := by simpa [WellFormed] using hwf
    simp only [BitVec.ofNat_toNat, BitVec.setWidth_eq, writeInstr, hclass]
  all_goals rfl

/-- Every well-formed register write survives encoding. -/
theorem decode_encode_of_regWrite {i : Instr} {a : Nat} {v : Byte} (hwf : WellFormed i = true)
    (h : Machine.regWrite i = some (a, v)) (rest : List Word) : decode (encode i ++ rest) = .ok (i, rest) := by
  rw [encode_of_regWrite h, List.singleton_append, decode_wordW a v rest (Machine.regWrite_lt h),
    writeInstr_of_regWrite hwf h]

/-- The command code of format MI survives its index field (30_encoding R81). -/
theorem commandCode_MI {cmd : Nat} (hcmd : cmd < 16) (i : Fin 64) :
    bitsOf (wordCmd cmd i.val).toNat 31 28 = cmd :=
  (wordCmd_bits hcmd (show i.val < 2 ^ 28 by omega)).1

/-- The index field of format MI survives its command word (30_encoding R81). -/
theorem indexMI_wordCmd {cmd : Nat} (hcmd : cmd < 16) (i : Fin 64) : indexMI (wordCmd cmd i.val).toNat = i := by
  have hi := i.isLt
  apply Fin.ext
  simp only [indexMI, (wordCmd_bits hcmd (show i.val < 2 ^ 28 by omega)).2 5 0 (by decide), bitsOf_low]
  omega

theorem fieldsMV_lt (i : Fin 64) (v : Int) : fieldsMV i v < 2 ^ 28 := by
  have hi := i.isLt
  unfold fieldsMV
  omega

/-- The command code of format MV survives its fields (30_encoding R81). -/
theorem commandCode_MV {cmd : Nat} (hcmd : cmd < 16) (i : Fin 64) (v : Int) :
    bitsOf (wordCmd cmd (fieldsMV i v)).toNat 31 28 = cmd :=
  (wordCmd_bits hcmd (fieldsMV_lt i v)).1

/-- The index field of format MV survives its command word (30_encoding R81). -/
theorem indexMV_wordCmd {cmd : Nat} (hcmd : cmd < 16) (i : Fin 64) (v : Int) :
    indexMV (wordCmd cmd (fieldsMV i v)).toNat = i := by
  have hi := i.isLt
  apply Fin.ext
  simp only [indexMV, (wordCmd_bits hcmd (fieldsMV_lt i v)).2 27 22 (by decide)]
  unfold bitsOf fieldsMV
  omega

/-- The value field of format MV survives its command word where it fits (30_encoding R81). -/
theorem valueMV_wordCmd {cmd : Nat} (hcmd : cmd < 16) (i : Fin 64) {v : Int} (hv : -65536 ≤ v ∧ v < 65536) :
    valueMV (wordCmd cmd (fieldsMV i v)).toNat = v := by
  have hfield : fieldsMV i v % 2 ^ 17 = (v % 2 ^ 17).toNat % 2 ^ 17 := by
    unfold fieldsMV
    omega
  rw [valueMV, (wordCmd_bits hcmd (fieldsMV_lt i v)).2 16 0 (by decide), bitsOf_low, hfield, sextOf_emod v hv]

/-- The operand words of a `MIX_WRITE` decode to its frames (30_encoding R81). -/
theorem decodeFrames_encoded {frames : List Frame} (hlen : frames.length < 2 ^ 32) (rest : List Word) :
    decodeFrames (BitVec.ofNat 32 frames.length :: (frames.map wordOfFrame ++ rest)) = .ok (frames, rest) := by
  have hcount : (BitVec.ofNat 32 frames.length).toNat = frames.length := by
    rw [BitVec.toNat_ofNat, Nat.mod_eq_of_lt hlen]
  have hlen' : (frames.map wordOfFrame).length = frames.length := List.length_map _
  simp [decodeFrames, hcount, List.take_left' hlen', List.drop_left' hlen', Function.comp_def]

/-- Settles O2: a register write's word names its own address, and every other format's fields are read back from the
command word they were put into. -/
theorem decodeOfEncodeIsIdentity : Obligations.DecodeOfEncodeIsIdentity := by
  intro i rest hwf
  cases hwrite : Machine.regWrite i with
  | some av => exact decode_encode_of_regWrite hwf hwrite rest
  | none =>
    cases i <;> simp only [Machine.regWrite, reduceCtorEq] at hwrite <;>
      simp only [WellFormed, decide_eq_true_eq] at hwf
    case gen n =>
      obtain ⟨hcode, hfield⟩ := wordCmd_bits (show 1 < 16 by decide) hwf
      simp only [encode, List.singleton_append, decode, hcode, hfield 27 0 (by decide), bitsOf_low,
        Nat.mod_eq_of_lt hwf]
    case mixNorm b =>
      obtain ⟨hcode, hfield⟩ := wordCmd_bits (show 9 < 16 by decide) (show b.toNat < 2 ^ 28 by cases b <;> decide)
      simp only [encode, List.singleton_append, decode, hcode, hfield 0 0 (by decide)]
      cases b <;> rfl
    case mixRelease j =>
      simp (disch := decide) only [encode, List.singleton_append, decode, commandCode_MI, indexMI_wordCmd]
    case mixWrite j frames =>
      simp (disch := decide) only [encode, List.cons_append, decode, commandCode_MI, decodeFrames_encoded hwf,
        indexMI_wordCmd]
    case mixVol j v | mixPan j v =>
      simp (disch := decide) only [encode, List.singleton_append, decode, commandCode_MV, indexMV_wordCmd,
        valueMV_wordCmd _ j hwf]
    all_goals rfl

end Sys2Proof
end

section
/-! PROOFS. What the decoder reads is well formed, and which bits of a command word it reads (30_encoding R80 to
R82). -/

namespace Sys2Proof

/-- A 17-bit signed field lies in the range of format MV (30_encoding R81). -/
theorem valueMV_range (w : Nat) : -65536 ≤ valueMV w ∧ valueMV w < 65536 := by
  have := bitsOf_lt w 16 0
  unfold valueMV sextOf
  split <;> omega

/-- The operand words that decode are a count word and as many frame words as there are frames (30_encoding R81). -/
theorem decodeFrames_eq_ok {ws rest : List Word} {frames : List Frame} (h : decodeFrames ws = .ok (frames, rest)) :
    frames.length < 2 ^ 32 ∧ ∃ taken, ws = taken ++ rest ∧ taken.length = 1 + frames.length := by
  cases ws with
  | nil => simp [decodeFrames] at h
  | cons k ws =>
    have hk := k.isLt
    simp only [decodeFrames] at h
    split at h
    case isFalse => cases h
    case isTrue hle =>
      cases h
      have hlen : ((ws.take k.toNat).map frameOfWord).length = k.toNat := by simpa using hle
      refine ⟨hlen.trans_lt hk, k :: ws.take k.toNat, ?_, ?_⟩
      · rw [List.cons_append, List.take_append_drop]
      · rw [hlen, List.length_cons, List.length_take_of_le hle, Nat.add_comm]

/-- Settles O3: every command code but 0110 takes one word, and a `MIX_WRITE` its command word and what its operands
take. -/
theorem decodedTransactionIsWellFormed : Obligations.DecodedTransactionIsWellFormed := by
  intro ws i rest h
  cases ws with
  | nil => cases h
  | cons w ws =>
    have oneWord : wordCount i = 1 → rest = ws →
        ∃ taken, w :: ws = taken ++ rest ∧ taken.length = wordCount i := by
      rintro hcount rfl
      exact ⟨[w], rfl, hcount.symm⟩
    simp only [decode] at h
    split at h
    case h_1 =>
      cases h
      obtain ⟨hwf, hcount⟩ := writeInstr_wf (BitVec.ofNat 9 (bitsOf w.toNat 23 8))
        (BitVec.ofNat 8 (bitsOf w.toNat 7 0))
      exact ⟨hwf, oneWord hcount rfl⟩
    case h_2 =>
      cases h
      exact ⟨decide_eq_true (bitsOf_lt _ 27 0), oneWord rfl rfl⟩
    case h_7 =>
      split at h
      case h_2 => cases h
      case h_1 heq =>
        cases h
        obtain ⟨hlt, taken, rfl, hlen⟩ := decodeFrames_eq_ok heq
        refine ⟨decide_eq_true hlt, w :: taken, rfl, ?_⟩
        rw [List.length_cons, hlen, wordCount]
        omega
    case h_8 | h_9 =>
      cases h
      exact ⟨decide_eq_true (valueMV_range _), oneWord rfl rfl⟩
    case h_12 => cases h
    all_goals
      cases h
      exact ⟨rfl, oneWord rfl rfl⟩

end Sys2Proof

namespace Sys2Proof.Machine

/-- A stream that begins with a word the decoder rejects is refused by the decoder's reason. -/
theorem step_refused {s : State} {w : Word} {rest : List HostItem} {e : DecodeError}
    (hpending : s.host.pending = .word w :: rest) (hdecode : decode (w :: leadingWords rest) = .error e) :
    step s = .refused (refusalOf e) := by
  simp only [step, hpending, hdecode]

/-- Every format uses the command code's bits (30_encoding R80). -/
theorem usedBits_commandCode (cmd : Nat) : ∀ j, 28 ≤ j → j ≤ 31 → (usedBits cmd).getLsbD j = true := by
  unfold usedBits
  split <;> decide

/-- Of the address field of format W only its low nine bits matter (30_encoding R85). -/
theorem ofNat_addrField (w : Nat) : BitVec.ofNat 9 (bitsOf w 23 8) = BitVec.ofNat 9 (bitsOf w 16 8) := by
  apply BitVec.eq_of_toNat_eq
  simp only [BitVec.toNat_ofNat, bitsOf]
  omega

/-- Words that agree on the bits their format uses decode alike (30_encoding R82). -/
theorem decode_congr_usedBits {w w' : Word} (ws : List Word)
    (h : w &&& usedBits (bitsOf w.toNat 31 28) = w' &&& usedBits (bitsOf w.toNat 31 28)) :
    decode (w :: ws) = decode (w' :: ws) := by
  have hcode := bitsOf_eq_of_and h 31 28 (usedBits_commandCode _)
  simp only [decode, ← hcode]
  have hfield := bitsOf_eq_of_and h
  generalize bitsOf w.toNat 31 28 = cmd at hfield
  split
  case h_1 =>
    simp only [decodeW, ofNat_addrField, hfield 16 8 (by decide), hfield 7 0 (by decide)]
  case h_2 => simp only [hfield 27 0 (by decide)]
  case h_6 | h_7 => simp only [indexMI, hfield 5 0 (by decide)]
  case h_8 | h_9 => simp only [indexMV, valueMV, hfield 27 22 (by decide), hfield 16 0 (by decide)]
  case h_10 => simp only [hfield 0 0 (by decide)]
  all_goals rfl

/-- Settles O4: the decoder rejects an unassigned code by its number, and reads no bit outside `usedBits`. -/
theorem unassignedCodesRefusedIgnoredBitsFree : Obligations.UnassignedCodesRefusedIgnoredBitsFree := by
  unfold Obligations.UnassignedCodesRefusedIgnoredBitsFree
  simp only [← commandCode_eq_div]
  exact ⟨fun s w rest hpending hcode => step_refused hpending (decode_of_unassigned_code hcode _),
    fun w w' ws h => decode_congr_usedBits ws h⟩

end Sys2Proof.Machine
end

section
/-! PROOFS. The register address map: which transaction each register address decodes to (30_encoding R87 to R91). -/

namespace Sys2Proof

/-- An operator range of a bank, address by address (30_encoding R87, R88). -/
theorem classOf_operatorRange : ∀ (b : Bool) (off : Fin 32),
    classOf (BitVec.ofNat 9 (0x100 * b.toNat + 0x20 + off)) = opClass .op20 b off ∧
    classOf (BitVec.ofNat 9 (0x100 * b.toNat + 0x40 + off)) = opClass .op40 b off ∧
    classOf (BitVec.ofNat 9 (0x100 * b.toNat + 0x60 + off)) = opClass .op60 b off ∧
    classOf (BitVec.ofNat 9 (0x100 * b.toNat + 0x80 + off)) = opClass .op80 b off ∧
    classOf (BitVec.ofNat 9 (0x100 * b.toNat + 0xE0 + off)) = opClass .opE0 b off := by decide

/-- A channel range of a bank, address by address; 0x0BD is the rhythm register (30_encoding R87, R90). -/
theorem classOf_channelRange : ∀ (b : Bool) (l : Fin 16),
    classOf (BitVec.ofNat 9 (0x100 * b.toNat + 0xA0 + l)) = chClass .chA0 b l ∧
    classOf (BitVec.ofNat 9 (0x100 * b.toNat + 0xB0 + l)) =
      (if b = false ∧ l.val = 13 then .rhythm else chClass .chB0 b l) ∧
    classOf (BitVec.ofNat 9 (0x100 * b.toNat + 0xC0 + l)) = chClass .chC0 b l := by decide

/-- A slot offset that names an operator gives its class (30_encoding R88). -/
theorem opClass_of_operatorAt {b : Bool} {off : Nat} {o : Fin 36} (h : operatorAt b off = some o)
    (mk : Fin 36 → RegClass) : opClass mk b off = mk o := by
  simp only [opClass, h]

/-- A slot offset that names no operator gives the unassigned class (30_encoding R88). -/
theorem opClass_of_invalid {off : Nat} (h : ¬ (off / 8 ≤ 2 ∧ off % 8 ≤ 5)) (mk : Fin 36 → RegClass)
    (b : Bool) : opClass mk b off = .unassigned := by
  simp only [opClass, operatorAt, dif_neg h]

/-- An offset that names a channel gives its class (30_encoding R90). -/
theorem chClass_of_channelAt {b : Bool} {l : Nat} {ch : Fin 18} (h : channelAt b l = some ch)
    (mk : Fin 18 → RegClass) : chClass mk b l = mk ch := by
  simp only [chClass, h]

/-- An offset beyond 8 gives the unassigned class (30_encoding R90). -/
theorem chClass_of_gt {l : Nat} (h : 8 < l) (mk : Fin 18 → RegClass) (b : Bool) :
    chClass mk b l = .unassigned := by
  simp only [chClass, channelAt, dif_neg (Nat.not_le.mpr h)]

/-- The word of an address of the unassigned class decodes to the unassigned write (30_encoding R87). -/
theorem decode_wordW_unassigned {a : Nat} (ha : a < 512) (hclass : classOf (BitVec.ofNat 9 a) = .unassigned)
    (v : Byte) : decode [wordW a v] = .ok (.wrUnassigned (BitVec.ofNat 9 a) v, []) := by
  rw [decode_wordW a v [] ha, writeInstr, hclass]

/-- Settles O6: the five ranges are the operator classes of `operatorAt`, whose formula is the rule's. -/
theorem slotOffsetNamesOperator : Obligations.SlotOffsetNamesOperator := by
  intro b off v hoff
  have hb := Bool.toNat_le b
  obtain ⟨h20, h40, h60, h80, hE0⟩ := classOf_operatorRange b ⟨off, hoff⟩
  constructor
  · intro hvalid
    obtain ⟨o, ho⟩ : ∃ o, operatorAt b off = some o := ⟨_, dif_pos hvalid⟩
    have hval : o.val = 2 * (9 * b.toNat + (3 * (off / 8) + off % 8 % 3)) + off % 8 / 3 := by
      rw [operatorAt, dif_pos hvalid, Option.some.injEq] at ho
      rw [← ho]
    simp only [opClass_of_operatorAt ho] at h20 h40 h60 h80 hE0
    refine ⟨o, hval, ?_, ?_, ?_, ?_, ?_⟩ <;>
      simp (disch := omega) only [decode_wordW, writeInstr, h20, h40, h60, h80, hE0]
  · intro hinvalid base hbase
    simp only [opClass_of_invalid hinvalid] at h20 h40 h60 h80 hE0
    simp only [List.mem_cons, List.not_mem_nil, or_false] at hbase
    refine decode_wordW_unassigned (by omega) ?_ v
    rcases hbase with rfl | rfl | rfl | rfl | rfl
    exacts [h20, h40, h60, h80, hE0]

/-- The class of the addresses outside the operator and channel ranges (30_encoding R87, R166). -/
theorem classOf_outside_ranges {a : BitVec 9} (hop : a.toNat % 256 / 32 ∉ [1, 2, 3, 4, 7])
    (hch : a.toNat % 256 / 16 ∉ [10, 11, 12]) :
    classOf a =
      if a.toNat = 0x001 then .wse
      else if a.toNat = 0x002 then .timer1
      else if a.toNat = 0x003 then .timer2
      else if a.toNat = 0x004 then .timerControl
      else if a.toNat = 0x008 then .csmNts
      else if a.toNat = 0x104 then .connection
      else if a.toNat = 0x105 then .newMode
      else .unassigned := by
  simp only [List.mem_cons, List.not_mem_nil, or_false, not_or] at hop hch
  have hrhythm : a.toNat ≠ 0x0BD := by omega
  unfold classOf
  simp only [if_neg hrhythm]
  split
  case h_6 =>
    iterate 7 refine if_congr Iff.rfl rfl ?_
    split
    case h_4 => rfl
    all_goals omega
  all_goals omega

/-- Settles O8: outside the ranges the address map is a short list of global registers. -/
theorem globalAddressesDecode : Obligations.GlobalAddressesDecode := by
  intro a v hop hch
  rw [decode_wordW _ _ _ a.isLt, BitVec.ofNat_toNat, BitVec.setWidth_eq, writeInstr, classOf_outside_ranges hop hch]
  split_ifs <;> rfl

end Sys2Proof

namespace Sys2Proof.Machine

/-- An unassigned write only stores its byte (30_encoding R90, R166). -/
theorem exec_wrUnassigned_only_stores {a : BitVec 9} (hclass : classOf a = .unassigned) (v : Byte) (s : State) :
    exec (.wrUnassigned a v) s = .next { s with chip := { s.chip with regs := s.chip.regs.write a.toNat v } } := by
  have hwf : WellFormed (.wrUnassigned a v) = true := by simp [WellFormed, hclass]
  rw [exec_of_regWrite rfl, writeRegister_keyFree (keyFree_of_regWrite hwf rfl rfl)]

/-- Settles O7: the three ranges are the channel classes of `channelAt`, but for 0x0BD. -/
theorem channelOffsetNamesChannel : Obligations.ChannelOffsetNamesChannel := by
  intro b l v hl
  have hb := Bool.toNat_le b
  obtain ⟨hA0, hB0, hC0⟩ := classOf_channelRange b ⟨l, hl⟩
  constructor
  · intro hle
    obtain ⟨ch, hchannel⟩ : ∃ ch, channelAt b l = some ch := ⟨_, dif_pos hle⟩
    have hval : ch.val = 9 * b.toNat + l := by
      rw [channelAt, dif_pos hle, Option.some.injEq] at hchannel
      rw [← hchannel]
    have hne : ¬ (b = false ∧ l = 13) := by omega
    simp only [chClass_of_channelAt hchannel, if_neg hne] at hA0 hB0 hC0
    refine ⟨ch, hval, ?_, ?_, ?_⟩ <;>
      simp (disch := omega) only [decode_wordW, writeInstr, hA0, hB0, hC0]
  · intro hgt base hbase
    simp only [chClass_of_gt hgt] at hA0 hB0 hC0
    simp only [List.mem_cons, List.not_mem_nil, or_false] at hbase
    have hlt : 0x100 * b.toNat + base + l < 512 := by omega
    split
    case isTrue hBD =>
      obtain ⟨rfl, hBD⟩ := hBD
      rw [decode_wordW _ _ _ hlt, show 0x100 * false.toNat + base + l = 0xBD by simpa using hBD]
      rfl
    case isFalse hne =>
      have hclass : classOf (BitVec.ofNat 9 (0x100 * b.toNat + base + l)) = .unassigned := by
        rcases hbase with rfl | rfl | rfl
        · exact hA0
        · rwa [if_neg (fun ⟨hbank, heq⟩ => hne ⟨hbank, by omega⟩)] at hB0
        · exact hC0
      exact ⟨decode_wordW_unassigned hlt hclass v, exec_wrUnassigned_only_stores hclass v⟩

end Sys2Proof.Machine
end

section
/-! PROOFS. What a register write does to the machine, reached from its instruction and from its word (30_encoding R85,
R86). -/

namespace Sys2Proof.Machine

/-- Settles O13: a register write is `Chip.writeReg`, whose key events keep the attenuations. -/
theorem registerWriteStoresItsByte : Obligations.RegisterWriteStoresItsByte := by
  intro i a v s h
  refine ⟨_, exec_regWrite h s, RegFile.read_write_same _ a v, fun b hb => RegFile.read_write_other _ v hb,
    rfl, rfl, rfl, rfl, rfl, fun o => ?_, rfl, rfl, rfl⟩
  simp

/-- A word of format W decodes to the write of the low nine address bits, whatever its ignored bits (30_encoding R81,
R85). -/
theorem decode_writeWord (ignored : BitVec 4) (addr : BitVec 16) (val : Byte) (ws : List Word) :
    decode (BitVec.ofNat 32 (ignored.toNat * 2 ^ 24 + addr.toNat * 2 ^ 8 + val.toNat) :: ws) =
      .ok (writeInstr (BitVec.ofNat 9 addr.toNat) val, ws) := by
  have hignored := ignored.isLt
  have haddr := addr.isLt
  have hval := val.isLt
  have hword : (BitVec.ofNat 32 (ignored.toNat * 2 ^ 24 + addr.toNat * 2 ^ 8 + val.toNat)).toNat =
      ignored.toNat * 2 ^ 24 + addr.toNat * 2 ^ 8 + val.toNat := by
    rw [BitVec.toNat_ofNat]
    omega
  generalize BitVec.ofNat 32 (ignored.toNat * 2 ^ 24 + addr.toNat * 2 ^ 8 + val.toNat) = w at hword
  have hcode : bitsOf w.toNat 31 28 = 0 := by unfold bitsOf; omega
  have hfield : bitsOf w.toNat 23 8 = addr.toNat := by unfold bitsOf; omega
  have hbyte : bitsOf w.toNat 7 0 = val.toNat := by unfold bitsOf; omega
  rw [decode_of_code_zero hcode, decodeW, hfield, hbyte, BitVec.ofNat_toNat 8 val, BitVec.setWidth_eq]

/-- Settles O5: the decoder cuts the address to nine bits, and the transaction of a nine-bit address writes that
address. -/
theorem writeAddressUsesNineBits : Obligations.WriteAddressUsesNineBits := by
  intro ignored addr val ws
  refine ⟨_, decode_writeWord ignored addr val ws, fun s => ?_⟩
  obtain ⟨t, hexec, hsame, hother, -, -, -, -, -, -, hmixer, hparams, hhost⟩ := registerWriteStoresItsByte _ _ _ s
    (regWrite_writeInstr (BitVec.ofNat 9 addr.toNat) val)
  rw [BitVec.toNat_ofNat] at hsame hother
  exact ⟨t, hexec, hsame, hother, hmixer, hparams, hhost⟩

end Sys2Proof.Machine
end

section
/-! PROOFS. The pseudo-transactions (30_encoding R96) and words written out from the formats (30_encoding R81). -/

namespace Sys2Proof.Machine

/-- `wr` of an address of the register space encodes to that address's word (30_encoding R95). -/
theorem encode_asmWr {a : Nat} (ha : a < 512) (v : Byte) : encode (asmWr a v) = [wordW a v] := by
  rw [asmWr, encode_writeInstr, BitVec.toNat_ofNat, Nat.mod_eq_of_lt ha]

/-- The slot offset of a channel's operator (30_encoding R89). -/
theorem opOffset_slot (ch : Fin 18) (slot : Fin 2) :
    opOffset (if slot = 0 then firstOp ch else secondOp ch) =
      8 * (ch.val % 9 / 3) + ch.val % 9 % 3 + 3 * slot.val := by
  have hdiv : (2 * ch.val + 1) / 2 = ch.val := by omega
  fin_cases slot
  · simp [opOffset, firstOp]
  · simp [opOffset, secondOp, hdiv]

/-- Settles O9: each expansion is a list of `wr` lines at addresses of the register space. -/
theorem pseudoTransactionsExpand : Obligations.PseudoTransactionsExpand := by
  refine ⟨fun ch f blk => ?_, fun base hbase ch slot val => ?_, by decide, fun _ _ => rfl⟩
  · have hA0 : 0x100 * (ch.val / 9) + 0xA0 + ch.val % 9 < 512 := chAddr_lt 0xA0 ch (by decide)
    have hB0 : 0x100 * (ch.val / 9) + 0xB0 + ch.val % 9 < 512 := chAddr_lt 0xB0 ch (by decide)
    simp [issue, issueWords, keyonPseudo, keyoffPseudo, encode_asmWr hA0, encode_asmWr hB0]
  · have hch := ch.isLt
    have hslot := slot.isLt
    have hlt : 0x100 * (ch.val / 9) + base + (8 * (ch.val % 9 / 3) + ch.val % 9 % 3 + 3 * slot.val) < 512 := by
      simp only [List.mem_cons, List.not_mem_nil, or_false] at hbase
      omega
    simp only [issue, issueWords, opwrPseudo, opOffset_slot, List.flatMap_singleton, encode_asmWr hlt,
      List.map_singleton]

/-- Settles O1: each word is decoded by evaluation. -/
theorem specWordsDecode : Obligations.SpecWordsDecode :=
  ⟨rfl, rfl, rfl, rfl, rfl, rfl, rfl, rfl, rfl, rfl, rfl, rfl, rfl, rfl, rfl, rfl, rfl⟩

end Sys2Proof.Machine
end

section
/-! PROOFS. The combined attenuation of an operator (43_operator_engine R203, R204): the total level, the key-scale level
and the tremolo. -/

namespace Sys2Proof.Machine

/-- BLOCK is a three-bit field (41_channel_regs R129). -/
theorem block_le (m : RegFile) (ch : Fin 18) : block m ch ≤ 7 := Nat.le_of_lt_succ (bitsOf_lt _ 4 2)

/-- The key-scale base over the integers: the rule's difference, cut at 0 (43_operator_engine R203). -/
theorem kslBase_cast (m : RegFile) (ch : Fin 18) :
    (kslBase m ch : Int) = max 0 ((entry kslRom (fnum m ch / 64) : Int) * 4 - (8 - (block m ch : Int)) * 32) := by
  have hblock := block_le m ch
  simp only [kslBase, Nat.reducePow]
  omega

/-- The key-scale base is largest, 224, at BLOCK 7 and the last entry of KSLROM (43_operator_engine R203). -/
theorem kslBase_le (m : RegFile) (ch : Fin 18) : kslBase m ch ≤ 224 := by
  have hblock := block_le m ch
  have hrom : entry kslRom (fnum m ch / 2 ^ 6) ≤ 64 := entry_le (by decide) _
  unfold kslBase
  omega

/-- The combined attenuation over the integers (43_operator_engine R204). -/
theorem totalAtt_cast (m : RegFile) (pos : Nat) (o : Fin 36) (att : Nat) :
    (totalAtt m pos o att : Int) =
      min 511 ((att : Int) + 4 * (tl m o : Int) + (kslBase m (chanOf o) : Int) / 2 ^ entry kslShift (ksl m o) +
        if am m o then (tremolo m pos : Int) else 0) := by
  simp [totalAtt, kslAtt, Config.envMax]

/-- Settles O43: the model's natural numbers are the rule's integers, as the base is cut at 0 before it is shifted. -/
theorem combinedAttenuation : Obligations.CombinedAttenuation := by
  intro m pos o att rom base shift
  have hbase : base = kslBase m (chanOf o) := (kslBase_cast m (chanOf o)).symm
  rw [hbase]
  exact ⟨by exact_mod_cast kslBase_le m (chanOf o), totalAtt_cast m pos o att⟩

end Sys2Proof.Machine
end

section
/-! PROOFS. The register writes outside the key registers (40_operator_regs R110 to R118, 41_channel_regs R130 and R134,
42_global_regs R150 to R154 and R166), and the fields an operator's registers hold after them. -/

namespace Sys2Proof.Machine

/-- Settles O15: such a write is at a key-free address, where no key event follows. -/
theorem plainRegisterWriteOnlyStores : Obligations.PlainRegisterWriteOnlyStores := by
  intro i a v s hwf hkeys h
  rw [exec_of_regWrite h, writeRegister_keyFree (keyFree_of_regWrite hwf hkeys h)]

/-- An operator's register reads as the byte last written to it (30_encoding R92). -/
@[simp] theorem opreg_write_same (m : RegFile) (o : Fin 36) (base : Nat) (v : Byte) :
    opreg (m.write (opAddr base o) v) o base = v := RegFile.read_write_same _ _ _

/-- A field that ends at a byte's top bit needs no mask. -/
theorem bitsOf_top (v : Byte) {lo : Nat} (hlo : lo ≤ 8) : bitsOf v.toNat 7 lo = v.toNat / 2 ^ lo := by
  refine Nat.mod_eq_of_lt (Nat.div_lt_of_lt_mul ?_)
  rw [← pow_add, Nat.add_sub_cancel' hlo]
  exact v.isLt

/-- Settles O16: each field is the named bits of the register's byte, which is the byte written. -/
theorem operatorFieldsAfterWrite : Obligations.OperatorFieldsAfterWrite := by
  intro s o v
  refine ⟨⟨_, exec_regWrite rfl s, ?_⟩, ⟨_, exec_regWrite rfl s, ?_⟩, ⟨_, exec_regWrite rfl s, ?_⟩,
    ⟨_, exec_regWrite rfl s, ?_⟩⟩
  · simp [am, vib, egt, ksr, mult, bitOf_eq_getLsbD, bitsOf_low]
  · simp [ksl, tl, bitsOf_top, bitsOf_low]
  · simp [ar, dr, bitsOf_top, bitsOf_low]
  · simp [sl, rr, bitsOf_top, bitsOf_low]

/-- The waveform in use is the low bits of the operator's 0xE0 byte that NEW and WSE let through (40_operator_regs
R118). -/
theorem wsel_eq (m : RegFile) (o : Fin 36) : wsel m o =
    if (m.read 0x105).getLsbD 0 then (m.read (opAddr 0xE0 o)).toNat % 8
    else if (m.read 0x001).getLsbD 5 then (m.read (opAddr 0xE0 o)).toNat % 4
    else 0 := by
  simp only [wsel, opreg, newMode_eq_getLsbD, wse, bitOf_eq_getLsbD, bitsOf_low, Nat.reduceAdd, Nat.reducePow]

/-- Settles O17: the write is one outside the key registers, and the masks are read from the registers as they stand. -/
theorem waveformSelectIsMasked : Obligations.WaveformSelectIsMasked :=
  ⟨fun s o v => ⟨_, plainRegisterWriteOnlyStores (.wrOpE0 o v) _ v s rfl rfl rfl, rfl, RegFile.read_write_same _ _ v⟩,
    wsel_eq⟩

end Sys2Proof.Machine
end

section
/-! PROOFS. The frequency channel of a channel, the fields it gives, and the phase increment formed from them
(41_channel_regs R129, 43_operator_engine R196). -/

namespace Sys2Proof.Machine

/-- The frequency channel of the second channel of an active pair is the pair's first channel. -/
theorem freqChan_of_activeSecond {m : RegFile} {ch : Fin 18} {k : Fin 6} (h : activeSecond m ch = some k) :
    freqChan m ch = pairFirst k := by
  simp only [freqChan, h]

/-- A channel that is not the second one of an active pair is its own frequency channel. -/
theorem freqChan_of_no_activeSecond {m : RegFile} {ch : Fin 18} (h : activeSecond m ch = none) :
    freqChan m ch = ch := by
  simp only [freqChan, h]

/-- The two cases of the frequency channel, with the active pairs read from NEW and CONN (41_channel_regs R129,
44_channel_synthesis R232). -/
theorem freqChan_cases (m : RegFile) (ch : Fin 18) :
    (∃ k : Fin 6, pairSecond k = ch ∧ (m.read 0x105).getLsbD 0 = true ∧ (m.read 0x104).getLsbD k.val = true ∧
        freqChan m ch = pairFirst k) ∨
      ((∀ k : Fin 6, pairSecond k = ch →
        ¬ ((m.read 0x105).getLsbD 0 = true ∧ (m.read 0x104).getLsbD k.val = true)) ∧ freqChan m ch = ch) := by
  cases hsecond : activeSecond m ch with
  | some k =>
    obtain ⟨hch, hactive⟩ := activeSecond_some hsecond
    obtain ⟨hnew, hconn⟩ := (pairActive_iff m k).mp hactive
    exact .inl ⟨k, hch, hnew, hconn, freqChan_of_activeSecond hsecond⟩
  | none =>
    refine .inr ⟨fun k hch hactive => ?_, freqChan_of_no_activeSecond hsecond⟩
    have hinactive := activeSecond_none.mp hsecond k hch
    rw [(pairActive_iff m k).mpr hactive] at hinactive
    cases hinactive

/-- F-number: the 0xA0 byte below the two low bits of the 0xB0 byte (41_channel_regs R129). -/
theorem fnum_eq_bytes (m : RegFile) (ch : Fin 18) :
    fnum m ch = (m.read (chAddr 0xA0 (freqChan m ch))).toNat +
      (m.read (chAddr 0xB0 (freqChan m ch))).toNat % 4 * 256 := by
  simp only [fnum, chreg, bitsOf_low, Nat.reduceAdd, Nat.reducePow]

/-- F-number is a ten-bit field (41_channel_regs R129). -/
theorem fnum_lt (m : RegFile) (ch : Fin 18) : fnum m ch < 1024 := by
  have hlow := (m.read (chAddr 0xA0 (freqChan m ch))).isLt
  rw [fnum_eq_bytes]
  omega

/-- The phase increment of an operator, from the fields of its channel and the vibrato depth (43_operator_engine R196,
R197). -/
theorem phaseInc_eq_scaledInc (m : RegFile) (pos : Nat) (o : Fin 36) :
    phaseInc m pos o = BitVec.ofInt 32 (scaledInc (nativeInc
      ((fnum m (chanOf o) : Int) +
        if vib m o then vibOffset (fnum m (chanOf o)) pos ((m.read 0x0BD).getLsbD 6) else 0)
      (block m (chanOf o)) (mult m o))) := by
  rw [phaseInc, vibDelta, dvb_eq_getLsbD]

/-- Settles O18: the frequency channel is the model's `freqChan`, and an operator's channel is the one its increment
reads. -/
theorem frequencyFieldsOfChannel : Obligations.FrequencyFieldsOfChannel := by
  intro m ch
  refine ⟨freqChan m ch, freqChan_cases m ch, fnum_eq_bytes m ch, rfl, bitOf_eq_getLsbD _ _, fnum_lt m ch,
    fun o ho pos => ?_⟩
  have hchan : chanOf o = ch := Fin.ext ho
  rw [phaseInc_eq_scaledInc, hchan]

end Sys2Proof.Machine
end

section
/-! PROOFS. The bytes that no rule reads are never observed (42_global_regs R152, R166): a chip whose register file is
replaced by one that agrees wherever some rule reads does in every transaction what it did before. -/

namespace Sys2Proof.Machine

/-- A relation of chips that a sample step keeps, and under which a sample adds the same to every frame, is kept by a run
of samples, which leaves the same buffer (46_generate_and_mixer R280). -/
theorem generate_sim {R : Chip → Chip → Prop} (hstep : ∀ c c', R c c' → R c.nextSample c'.nextSample)
    (hadd : ∀ c c', R c c' → addSample c = addSample c') (n : Nat) {c c' : Chip} (h : R c c') (buf : List AccFrame) :
    R (generate n c buf).1 (generate n c' buf).1 ∧ (generate n c buf).2 = (generate n c' buf).2 := by
  induction n generalizing c c' buf with
  | zero => exact ⟨h, rfl⟩
  | succ n ih =>
    obtain ⟨hchip, hbuf⟩ := ih (hstep c c' h) buf.tail
    exact ⟨hchip, by simp only [generate, hadd c c' h, hbuf]⟩

/-- The register files agree on every byte that some rule reads. -/
def AgreeWhereRead (m m' : RegFile) : Prop := ∀ a, ¬ readByNoRule a → m.read a = m'.read a

/-- Writing the same byte into both files keeps their agreement. -/
theorem AgreeWhereRead.write {m m' : RegFile} (h : AgreeWhereRead m m') (a : Nat) (v : Byte) :
    AgreeWhereRead (m.write a v) (m'.write a v) := by
  intro b hb
  rw [RegFile.read_write, RegFile.read_write, h b hb]

/-- A byte that no rule reads is not one of those that key levels read (44_channel_synthesis R236). -/
theorem keyFree_of_readByNoRule {a : Nat} (h : readByNoRule a) : KeyFree a := by
  refine ⟨fun ch heq => ?_, fun heq => ?_, fun heq => ?_, fun heq => ?_⟩
  · exact chAddr_is_read (by decide) (heq ▸ h)
  all_goals exact global_is_read (by decide) (heq ▸ h)

/-- The chip with another register file. -/
def Chip.withRegs (c : Chip) (m : RegFile) : Chip := { c with regs := m }

@[simp] theorem Chip.withRegs_regs (c : Chip) (m : RegFile) : (c.withRegs m).regs = m := rfl

/-- States that differ in unread bytes only are one state with two register files. -/
theorem sameButUnread_iff {s s' : State} :
    SameButUnread s s' ↔ ∃ m, AgreeWhereRead s.chip.regs m ∧ s' = s.withChip (s.chip.withRegs m) := by
  constructor
  · intro h
    obtain ⟨params', ⟨regs', ops', fb', sampleCounter', tremPos', vibPos', noise'⟩, mixer', host'⟩ := s'
    obtain ⟨rfl, rfl, rfl, rfl, rfl, rfl, rfl, rfl, rfl, hregs⟩ := h
    exact ⟨regs', hregs, rfl⟩
  · rintro ⟨m, hregs, rfl⟩
    exact ⟨rfl, rfl, rfl, rfl, rfl, rfl, rfl, rfl, rfl, hregs⟩

/-- The key events of a write depend on the views before and after it only (44_channel_synthesis R237, R238). -/
theorem SameViews.keyEvent_eq {m₁ m₁' m₂ m₂' : RegFile} (h₁ : SameViews m₁ m₁') (h₂ : SameViews m₂ m₂')
    (p : Params) : keyEvent p m₁ m₂ = keyEvent p m₁' m₂' := by
  funext o op
  simp only [keyEvent, keyOn, h₁.keyLevel_eq, h₂.keyLevel_eq, h₂.rhy_eq]

/-- A register write does on another register file with the same views what it does on this one. -/
theorem Chip.writeReg_withRegs {c : Chip} {m : RegFile} {a : Nat} {v : Byte} (h : SameViews c.regs m)
    (hwrite : SameViews (c.regs.write a v) (m.write a v)) (p : Params) :
    (c.withRegs m).writeReg p a v = (c.writeReg p a v).withRegs (m.write a v) := by
  simp only [Chip.writeReg, Chip.withRegs, h.keyEvent_eq hwrite]

section sameViews

variable {c : Chip} {m : RegFile} (h : SameViews c.regs m)
include h

theorem opOut_withRegs : opOut (c.withRegs m) = opOut c := by
  funext o mod
  rw [opOut, opOut, lookupPhase, lookupPhase, h.wsel_eq, h.totalAtt_eq, h.rhy_eq]
  rfl

theorem fbMod_withRegs : fbMod (c.withRegs m) = fbMod c := by
  funext ch
  rw [fbMod, fbMod, h.fbAmount_eq]
  rfl

theorem fourOpOut_withRegs : fourOpOut (c.withRegs m) = fourOpOut c := by
  funext k
  simp only [fourOpOut, opOut_withRegs h, fbMod_withRegs h, Chip.withRegs_regs, h.cnt_eq]

theorem unitOut_withRegs : unitOut (c.withRegs m) = unitOut c := by
  funext u
  cases u <;> simp only [unitOut, twoOpOut, bassDrumOut, fourOpOut_withRegs h, opOut_withRegs h, fbMod_withRegs h,
    Chip.withRegs_regs, h.cnt_eq]

theorem firstOut_withRegs : firstOut (c.withRegs m) = firstOut c := by
  funext ch
  simp only [firstOut, fourOpOut_withRegs h, opOut_withRegs h, fbMod_withRegs h, Chip.withRegs_regs,
    h.activeSecond_eq, h.rhy_eq]

theorem addSample_withRegs : addSample (c.withRegs m) = addSample c := by
  funext f
  simp only [addSample, leftSum, rightSum, unitOut_withRegs h, Chip.withRegs_regs, h.unitsOf_eq, h.routesLeft_eq,
    h.routesRight_eq]

theorem nextFeedback_withRegs : nextFeedback (c.withRegs m) = nextFeedback c := by
  funext ch
  rw [nextFeedback, nextFeedback, firstOut_withRegs h, h.synthesised_eq]
  rfl

theorem nextOp_withRegs : nextOp (c.withRegs m) = nextOp c := by
  funext o
  rw [nextOp, nextOp, stepPhase, stepPhase, h.synthesised_eq, h.stepEnvelope_eq, h.phaseInc_eq]
  rfl

theorem nextSample_withRegs : (c.withRegs m).nextSample = c.nextSample.withRegs m := by
  rw [Chip.nextSample, nextFeedback_withRegs h, nextOp_withRegs h]
  rfl

/-- A run of samples does on another register file with the same views what it does on this one, and leaves both files
as they are. -/
theorem generate_withRegs (n : Nat) (buf : List AccFrame) :
    generate n (c.withRegs m) buf = ((generate n c buf).1.withRegs m, (generate n c buf).2) := by
  obtain ⟨⟨hchip, -⟩, hbuf⟩ := generate_sim (R := fun c c' => c' = c.withRegs m ∧ SameViews c.regs m)
    (fun c _ ⟨heq, hviews⟩ => ⟨heq ▸ nextSample_withRegs hviews, hviews⟩)
    (fun c _ ⟨heq, hviews⟩ => heq ▸ (addSample_withRegs hviews).symm) n ⟨rfl, h⟩ buf
  exact Prod.ext hchip hbuf.symm

end sameViews

/-- A transaction completes alike on two register files that agree wherever some rule reads, and they go on agreeing
there. -/
theorem exec_withRegs (i : Instr) {s : State} {m : RegFile} (h : AgreeWhereRead s.chip.regs m) :
    ∃ t m', exec i s = .next t ∧ AgreeWhereRead t.chip.regs m' ∧
      exec i (s.withChip (s.chip.withRegs m)) = .next (t.withChip (t.chip.withRegs m')) := by
  have hviews := sameViews_of_read h
  rcases instr_kinds i with ⟨a, v, hw⟩ | hi | ⟨n, rfl⟩ | rfl | rfl
  · refine ⟨_, m.write a v, exec_regWrite hw s, h.write a v, ?_⟩
    rw [exec_regWrite hw, State.withChip_chip, Chip.writeReg_withRegs hviews (sameViews_of_read (h.write a v))]
    rfl
  · obtain ⟨t, ht, hchip, -, -, hc⟩ := exec_mixer hi s
    exact ⟨t, m, ht, hchip ▸ h, hchip ▸ hc _⟩
  · refine ⟨_, m, rfl, ?_, ?_⟩
    · simpa [generate_chip] using h
    · simp only [exec, execGen, State.withChip_chip, State.withChip_host, generate_withRegs hviews]
      rfl
  · exact ⟨_, Chip.reset.regs, rfl, fun _ _ => rfl, rfl⟩
  · exact ⟨_, m, rfl, h, rfl⟩

/-- Settles O58: an unread byte is key-free, so its write only stores it; and every view of the register file, hence
every transaction, takes the same value on two files that agree on the bytes some rule reads. -/
theorem unreadRegistersAreNeverObserved : Obligations.UnreadRegistersAreNeverObserved := by
  refine ⟨fun i a v s _ hw ha => ?_, fun i s s' hsame => ?_⟩
  · rw [exec_of_regWrite hw, writeRegister_keyFree (keyFree_of_readByNoRule ha)]
  · obtain ⟨m, hregs, rfl⟩ := sameButUnread_iff.mp hsame
    obtain ⟨t, m', ht, hregs', ht'⟩ := exec_withRegs i hregs
    exact ⟨t, _, ht, ht', sameButUnread_iff.mpr ⟨m', hregs', rfl⟩⟩

end Sys2Proof.Machine
end

section
/-! PROOFS. A change of CONN and the key levels of a 4-operator pair (42_global_regs R160, 44_channel_synthesis R236 to
R238). -/

namespace Sys2Proof.Machine

/-- Outside operators 12 to 17 there is no rhythm key (44_channel_synthesis R236). -/
theorem rhythmKey_of_not_rhythm {o : Fin 36} (h : ¬ (12 ≤ o.val ∧ o.val ≤ 17)) (m : RegFile) :
    rhythmKey m o = false := by
  unfold rhythmKey
  split
  case h_7 => exact Bool.and_false _
  all_goals omega

/-- Outside operators 12 to 17 the key level is KON of the operator's channel. -/
theorem keyLevel_of_not_rhythm {o : Fin 36} (h : ¬ (12 ≤ o.val ∧ o.val ≤ 17)) (m : RegFile) :
    keyLevel m o = kon m (chanOf o) := by
  rw [keyLevel, rhythmKey_of_not_rhythm h, Bool.or_false]

/-- No operator of a pair is one of operators 12 to 17 (44_channel_synthesis R231). -/
theorem not_rhythm_of_pair {o : Fin 36} {k : Fin 6} (h : chanOf o = pairFirst k ∨ chanOf o = pairSecond k) :
    ¬ (12 ≤ o.val ∧ o.val ≤ 17) := by
  obtain ⟨hfirst, hsecond⟩ := pair_not_rhythm k
  have hval : (chanOf o).val = o.val / 2 := rfl
  rcases h with h | h
  · rw [← h] at hfirst
    omega
  · rw [← h] at hsecond
    omega

/-- Outside operators 12 to 17 a key-on starts the phase at 0, whatever PERC_NO_PHASE_RESET is (44_channel_synthesis
R238). -/
theorem keyOn_of_not_rhythm {o : Fin 36} (h : ¬ (12 ≤ o.val ∧ o.val ≤ 17)) (p : Params) (m : RegFile) (op : OpState) :
    keyOn p m o op = ⟨.attack, op.att, 0⟩ := by
  simp [keyOn, h]

/-- A rising key level is a key-on (44_channel_synthesis R237). -/
theorem keyEvent_of_rise {m m' : RegFile} {o : Fin 36} (hlow : keyLevel m o = false) (hhigh : keyLevel m' o = true)
    (p : Params) (op : OpState) : keyEvent p m m' o op = keyOn p m' o op := by
  simp only [keyEvent, hlow, hhigh]

/-- A falling key level is a key-off (44_channel_synthesis R237). -/
theorem keyEvent_of_fall {m m' : RegFile} {o : Fin 36} (hhigh : keyLevel m o = true) (hlow : keyLevel m' o = false)
    (p : Params) (op : OpState) : keyEvent p m m' o op = keyOff op := by
  simp only [keyEvent, hlow, hhigh]

/-- A pair's first channel is its own frequency channel, active or not (41_channel_regs R129). -/
theorem freqChan_pairFirst (m : RegFile) (k : Fin 6) : freqChan m (pairFirst k) = pairFirst k :=
  freqChan_of_no_activeSecond
    (activeSecond_none.mpr fun k' heq => absurd heq.symm (pairFirst_ne_pairSecond k k'))

/-- The second channel of an active pair is keyed with the first (41_channel_regs R129). -/
theorem kon_pairSecond_of_active {m : RegFile} {k : Fin 6} (h : pairActive m k = true) :
    kon m (pairSecond k) = kon m (pairFirst k) := by
  rw [kon, kon, freqChan_of_activeSecond (activeSecond_of_active h), freqChan_pairFirst]

/-- A write of CONN leaves the key of a pair's first channel (42_global_regs R160). -/
theorem kon_pairFirst_write104 (m : RegFile) (k : Fin 6) (v : Byte) :
    kon (m.write 0x104 v) (pairFirst k) = kon m (pairFirst k) := by
  have haddr : chAddr 0xB0 (pairFirst k) ≠ 0x104 := by revert k; decide
  rw [kon, kon, freqChan_pairFirst, freqChan_pairFirst, chreg, chreg, RegFile.read_write_other _ _ haddr]

/-- With NEW = 1 a write of CONN with bit `k` set makes pair `k` active (42_global_regs R160). -/
theorem pairActive_write104 {m : RegFile} {k : Fin 6} {v : Byte} (hnew : newMode m = true)
    (hv : v.getLsbD k.val = true) : pairActive (m.write 0x104 v) k = true := by
  rw [pairActive_iff, RegFile.read_write_same, RegFile.read_write_other _ _ (by decide), ← newMode_eq_getLsbD]
  exact ⟨hnew, hv⟩

/-- Settles O21: the write makes the first channel's key that of the second channel, which rises, and is no change to the
first channel itself. -/
theorem formingPairKeysSecondChannel : Obligations.FormingPairKeysSecondChannel := by
  intro s v k hnew _ hv hfirst hsecond
  refine ⟨_, exec_regWrite rfl s, fun o ho => ?_, fun o ho => ?_⟩ <;>
    simp only [Fin.getElem_fin, State.withChip_chip, Chip.writeReg_ops]
  · have hrhythm := not_rhythm_of_pair (.inr ho)
    have hlow : keyLevel s.chip.regs o = false := by rw [keyLevel_of_not_rhythm hrhythm, ho, hsecond]
    have hhigh : keyLevel (s.chip.regs.write 0x104 v) o = true := by
      rw [keyLevel_of_not_rhythm hrhythm, ho, kon_pairSecond_of_active (pairActive_write104 hnew hv),
        kon_pairFirst_write104, hfirst]
    rw [keyEvent_of_rise hlow hhigh, keyOn_of_not_rhythm hrhythm]
  · have hrhythm := not_rhythm_of_pair (.inl ho)
    refine keyEvent_eq_self _ ?_
    rw [keyLevel_of_not_rhythm hrhythm, keyLevel_of_not_rhythm hrhythm, ho, kon_pairFirst_write104]

end Sys2Proof.Machine
end

section
/-! PROOFS. OPL2 mode (42_global_regs R163): channels 9 to 17 are frozen and silent, and their key events work. -/

namespace Sys2Proof.Machine

/-- With NEW = 0 the channels from 9 up are not synthesised. -/
theorem synthesised_opl2_upper {m : RegFile} (hnew : newMode m = false) {ch : Fin 18} (h : 9 ≤ ch.val) :
    synthesised m ch = false := by
  simp [synthesised, hnew, h]

/-- With NEW = 0 a sample step keeps the operators of channels 9 to 17. -/
theorem Chip.nextSample_ops_upper {c : Chip} (hnew : newMode c.regs = false) {o : Fin 36} (h : 18 ≤ o.val) :
    c.nextSample.ops[o] = c.ops[o] := by
  have hchan : 9 ≤ (chanOf o).val := by show 9 ≤ o.val / 2; omega
  rw [Fin.getElem_fin, Chip.nextSample_ops, nextOp_frozen (synthesised_opl2_upper hnew hchan)]

/-- With NEW = 0 a sample step keeps the feedback histories of channels 9 to 17. -/
theorem Chip.nextSample_fb_upper {c : Chip} (hnew : newMode c.regs = false) {ch : Fin 18} (h : 9 ≤ ch.val) :
    c.nextSample.fb[ch] = c.fb[ch] := by
  simp [nextFeedback, synthesised_opl2_upper hnew h]

/-- With NEW = 0 a run of samples keeps the operators and the feedback histories of channels 9 to 17. -/
theorem iterate_nextSample_upper {c : Chip} (hnew : newMode c.regs = false) (n : Nat) :
    (∀ o : Fin 36, 18 ≤ o.val → (Chip.nextSample^[n] c).ops[o] = c.ops[o]) ∧
    (∀ ch : Fin 18, 9 ≤ ch.val → (Chip.nextSample^[n] c).fb[ch] = c.fb[ch]) := by
  induction n generalizing c with
  | zero => exact ⟨fun _ _ => rfl, fun _ _ => rfl⟩
  | succ n ih =>
    obtain ⟨hops, hfb⟩ := ih (c := c.nextSample) hnew
    simp only [Function.iterate_succ_apply]
    exact ⟨fun o h => (hops o h).trans (Chip.nextSample_ops_upper hnew h),
      fun ch h => (hfb ch h).trans (Chip.nextSample_fb_upper hnew h)⟩

/-- With NEW = 0 a unit is a 2-operator channel below 9 or a rhythm unit (44_channel_synthesis R230, R231). -/
theorem unitsOf_opl2 {m : RegFile} (hnew : newMode m = false) {u : SynthUnit} (hu : u ∈ unitsOf m) :
    (∃ ch : Fin 18, ch.val < 9 ∧ u = .twoOp ch) ∨ u = .bassDrum ∨ u = .hatSnare ∨ u = .tomCymbal := by
  simp only [unitsOf, List.mem_filterMap, List.mem_filter] at hu
  obtain ⟨ch, ⟨-, hsynth⟩, hunit⟩ := hu
  have hch : ch.val < 9 := by simpa [synthesised, hnew] using hsynth
  simp only [unitOf, activeFirst_opl2 hnew, activeSecond_opl2 hnew] at hunit
  split at hunit
  · split at hunit <;> cases hunit
    · exact .inr (.inl rfl)
    · exact .inr (.inr (.inl rfl))
    · exact .inr (.inr (.inr rfl))
    · exact .inl ⟨ch, hch, rfl⟩
  · cases hunit
    exact .inl ⟨ch, hch, rfl⟩

/-- Two chips in OPL2 mode that differ at most in the operators and feedback histories of channels 9 to 17. -/
structure SameLower (c c' : Chip) : Prop where
  opl2 : newMode c.regs = false
  regs : c'.regs = c.regs
  ops : ∀ o : Fin 36, o.val < 18 → c'.ops[o] = c.ops[o]
  fb : ∀ ch : Fin 18, ch.val < 9 → c'.fb[ch] = c.fb[ch]
  sampleCounter : c'.sampleCounter = c.sampleCounter
  tremPos : c'.tremPos = c.tremPos
  vibPos : c'.vibPos = c.vibPos
  noise : c'.noise = c.noise

namespace SameLower

variable {c c' : Chip} (h : SameLower c c')
include h

/-- The phases of operators 0 to 17, the rhythm phases among them, are formed from operators 0 to 17
(44_channel_synthesis R245). -/
theorem lookupPhase_eq {o : Fin 36} (ho : o.val < 18) : lookupPhase c' o = lookupPhase c o := by
  have hhat : c'.ops[14] = c.ops[14] := h.ops 14 (by decide)
  have hcymbal : c'.ops[17] = c.ops[17] := h.ops 17 (by decide)
  simp only [lookupPhase, h.regs, h.noise, hhat, hcymbal, h.ops o ho]

theorem opOut_eq {o : Fin 36} (ho : o.val < 18) (mod : Int) : opOut c' o mod = opOut c o mod := by
  simp only [opOut, h.lookupPhase_eq ho, h.regs, h.tremPos, h.ops o ho]

theorem fbMod_eq {ch : Fin 18} (hch : ch.val < 9) : fbMod c' ch = fbMod c ch := by
  simp only [fbMod, h.regs, h.fb ch hch]

theorem twoOpOut_eq {ch : Fin 18} (hch : ch.val < 9) : twoOpOut c' ch = twoOpOut c ch := by
  have hfirst : (firstOp ch).val < 18 := by simp only [firstOp]; omega
  have hsecond : (secondOp ch).val < 18 := by simp only [secondOp]; omega
  simp only [twoOpOut, h.fbMod_eq hch, h.opOut_eq hfirst, h.opOut_eq hsecond, h.regs]

theorem bassDrumOut_eq : bassDrumOut c' = bassDrumOut c := by
  simp only [bassDrumOut, h.fbMod_eq (ch := 6) (by decide), h.opOut_eq (o := 12) (by decide),
    h.opOut_eq (o := 13) (by decide), h.regs]

theorem firstOut_eq {ch : Fin 18} (hch : ch.val < 9) : firstOut c' ch = firstOut c ch := by
  have hfirst : (firstOp ch).val < 18 := by simp only [firstOp]; omega
  simp only [firstOut, h.regs, activeSecond_opl2 h.opl2, h.fbMod_eq hch, h.opOut_eq hfirst]

/-- The units of a sample sound alike on both chips: their operators are all below 18. -/
theorem unitOut_eq {u : SynthUnit} (hu : u ∈ unitsOf c.regs) : unitOut c' u = unitOut c u := by
  rcases unitsOf_opl2 h.opl2 hu with ⟨ch, hch, rfl⟩ | rfl | rfl | rfl
  · exact h.twoOpOut_eq hch
  · exact h.bassDrumOut_eq
  · simp only [unitOut, h.opOut_eq (o := 14) (by decide), h.opOut_eq (o := 15) (by decide)]
  · simp only [unitOut, h.opOut_eq (o := 16) (by decide), h.opOut_eq (o := 17) (by decide)]

theorem addSample_eq : addSample c = addSample c' := by
  have hleft : leftSum c' = leftSum c := by
    unfold leftSum
    rw [h.regs, List.map_congr_left fun u hu => by rw [h.unitOut_eq hu]]
  have hright : rightSum c' = rightSum c := by
    unfold rightSum
    rw [h.regs, List.map_congr_left fun u hu => by rw [h.unitOut_eq hu]]
  funext f
  simp only [addSample, hleft, hright]

/-- A sample step keeps the agreement of the two chips. -/
theorem nextSample : SameLower c.nextSample c'.nextSample where
  opl2 := h.opl2
  regs := h.regs
  ops o ho := by
    simp only [Fin.getElem_fin, Chip.nextSample_ops]
    simp only [nextOp, h.regs, h.vibPos, h.sampleCounter, h.ops o ho]
  fb ch hch := by
    simp only [Fin.getElem_fin, Chip.nextSample_fb]
    simp only [nextFeedback, h.regs, h.firstOut_eq hch, h.fb ch hch]
  sampleCounter := by simp only [Chip.nextSample_sampleCounter, h.sampleCounter]
  tremPos := by simp only [Chip.nextSample_tremPos, Chip.advance_tremPos, h.sampleCounter, h.tremPos]
  vibPos := by simp only [Chip.nextSample_vibPos, Chip.advance_vibPos, h.sampleCounter, h.vibPos]
  noise := by simp only [Chip.nextSample_noise, h.noise]

/-- A run of samples leaves the same buffer on both chips. -/
theorem generate_buf_eq (n : Nat) (buf : List AccFrame) : (generate n c' buf).2 = (generate n c buf).2 :=
  (generate_sim (fun _ _ hsame => hsame.nextSample) (fun _ _ hsame => hsame.addSample_eq) n h buf).2.symm

end SameLower

/-- Settles O25: in OPL2 mode no sample step touches channels 9 to 17 and no unit reads them, while a register write
raises the key events of every operator. -/
theorem opl2ModeFreezesUpperChannels : Obligations.Opl2ModeFreezesUpperChannels := by
  refine ⟨fun n s hnew => ?_, fun n s s' hnew hregs hops hfb hcounter htrem hvib hnoise hhost => ?_,
    fun i a v s _ hw => ?_, fun m ch hnew => ?_⟩
  · obtain ⟨t, ht, hchip, -⟩ := exec_gen n s
    exact ⟨t, ht, hchip ▸ iterate_nextSample_upper hnew n⟩
  · have hsame : SameLower s.chip s'.chip := ⟨hnew, hregs, hops, hfb, hcounter, htrem, hvib, hnoise⟩
    refine ⟨_, _, rfl, rfl, ?_⟩
    simp only [State.answer, hhost, hsame.generate_buf_eq]
  · refine ⟨_, exec_regWrite hw s, RegFile.read_write_same _ a v, fun o _ => ?_⟩
    simp only [Fin.getElem_fin, State.withChip_chip, Chip.writeReg_ops, Chip.writeReg_regs]
    exact ⟨fun hlow hhigh => by rw [keyEvent_of_rise hlow hhigh, keyOn_env],
      fun hhigh hlow => by rw [keyEvent_of_fall hhigh hlow, keyOff_env]⟩
  · simp [synthesised, hnew]

end Sys2Proof.Machine
end

section
/-! PROOFS. The envelope rates (43_operator_engine R183, R184): the effective rate of an operator and the increment it
gives at a counter value. -/

namespace Sys2Proof.Machine

/-- The key code is the block and one bit of the F-number, bit 9 or, under NTS, bit 8 (43_operator_engine R183). -/
theorem keycode_eq (m : RegFile) (ch : Fin 18) : keycode m ch = block m ch * 2 +
    if (m.read 0x008).getLsbD 6 then fnum m ch / 256 % 2 else fnum m ch / 512 % 2 := by
  simp only [keycode, nts, bitOf_eq_getLsbD, bitsOf, Nat.reduceAdd, Nat.reduceSub, Nat.reducePow]

/-- The key code is a four-bit number (43_operator_engine R183). -/
theorem keycode_le (m : RegFile) (ch : Fin 18) : keycode m ch ≤ 15 := by
  have hblock := block_le m ch
  rw [keycode_eq]
  split <;> omega

/-- Settles O30: `code` is the model's key code, and `ks` its key-scale-rate offset. -/
theorem effectiveRate : Obligations.EffectiveRate := by
  intro m o field code ks
  have hcode : keycode m (chanOf o) = code := keycode_eq m (chanOf o)
  exact ⟨hcode ▸ keycode_le m (chanOf o), by rw [effRate, ksOffset, hcode]⟩

/-! The rows of EGROW at a counter's low three bits (48_reference_tables R324). -/

theorem egRow_eq_getElem? {row : Nat} (hrow : row < 13) (k : Nat) :
    some (egRow row (k % 8)) = (egRows.getD row [])[k % 8]? := by
  have hrows : ∀ (row : Fin 13) (j : Fin 8), some (egRow row j) = (egRows.getD row [])[j.val]? := by decide
  exact hrows ⟨row, hrow⟩ ⟨k % 8, Nat.mod_lt _ (by decide)⟩

theorem egRow_mem {row : Nat} (hrow : row < 13) (k : Nat) : egRow row (k % 8) ∈ [0, 1, 2, 4] := by
  have hrows : ∀ (row : Fin 13) (j : Fin 8), egRow row j ∈ [0, 1, 2, 4] := by decide
  exact hrows ⟨row, hrow⟩ ⟨k % 8, Nat.mod_lt _ (by decide)⟩

theorem egRow_last (k : Nat) : egRow 12 (k % 8) = 4 := by
  have hrow : ∀ j : Fin 8, egRow 12 j = 4 := by decide
  exact hrow ⟨k % 8, Nat.mod_lt _ (by decide)⟩

section egInc

variable {r : Nat} (c : Nat)

/-- A rate of zero never moves the envelope (43_operator_engine R184). -/
theorem egInc_of_rate_zero (h : r / 4 = 0) : egInc r c = 0 := by
  simp only [egInc, h, if_true]

/-- The rates up to 12 move the envelope on one sample in `2 ^ (13 - Rh)` only (43_operator_engine R184). -/
theorem egInc_of_slow (h1 : 1 ≤ r / 4) (h12 : r / 4 ≤ 12) : egInc r c =
    if c % 2 ^ (13 - r / 4) = 0 then egRow (r % 4) (c / 2 ^ (13 - r / 4) % 8) else 0 := by
  simp only [egInc, if_neg (show ¬ r / 4 = 0 by omega), if_pos h12]

theorem egInc_of_thirteen (h : r / 4 = 13) : egInc r c = egRow (4 + r % 4) (c % 8) := by
  simp [egInc, h]

theorem egInc_of_fourteen (h : r / 4 = 14) : egInc r c = egRow (8 + r % 4) (c % 8) := by
  simp [egInc, h]

theorem egInc_of_fifteen (h : r / 4 = 15) : egInc r c = egRow 12 (c % 8) := by
  simp [egInc, h]

end egInc

/-- Every increment is 0, 1, 2 or 4: a row entry, or none on the samples between two ticks (43_operator_engine R184). -/
theorem egInc_mem {r : Nat} (hr : r < 64) (c : Nat) : egInc r c ∈ [0, 1, 2, 4] := by
  obtain h | ⟨h1, h12⟩ | h | h | h : r / 4 = 0 ∨ (1 ≤ r / 4 ∧ r / 4 ≤ 12) ∨ r / 4 = 13 ∨ r / 4 = 14 ∨ r / 4 = 15 := by
    omega
  · rw [egInc_of_rate_zero c h]
    decide
  · rw [egInc_of_slow c h1 h12]
    split
    · exact egRow_mem (by omega) _
    · decide
  · rw [egInc_of_thirteen c h]
    exact egRow_mem (by omega) _
  · rw [egInc_of_fourteen c h]
    exact egRow_mem (by omega) _
  · rw [egInc_of_fifteen c h]
    exact egRow_mem (by omega) _

/-- Settles O31: each range of `Rh` has its equation, and the rows it reads are those of EGROW. -/
theorem envelopeIncrementValues : Obligations.EnvelopeIncrementValues := by
  intro r c hr egrow
  refine ⟨egInc_mem hr c, egInc_of_rate_zero c, fun h1 h12 hidle => ?_, fun h1 h12 htick => ?_, fun h => ?_,
    fun h => ?_, fun h => ?_⟩
  · rw [egInc_of_slow c h1 h12, if_neg hidle]
  · rw [egInc_of_slow c h1 h12, if_pos htick]
    exact egRow_eq_getElem? (by omega) _
  · rw [egInc_of_thirteen c h]
    exact egRow_eq_getElem? (by omega) c
  · rw [egInc_of_fourteen c h]
    exact egRow_eq_getElem? (by omega) c
  · rw [egInc_of_fifteen c h, egRow_last]

end Sys2Proof.Machine
end

section
/-! PROOFS. The envelope step (43_operator_engine R185 to R192): the rule of each state, its monotonicity, and the
arrows of the state machine (R180). -/

namespace Sys2Proof.Machine

/-- `gen 1` is one sample step (46_generate_and_mixer R280). -/
theorem exec_gen_one (s : State) : ∃ t, exec (.gen 1) s = .next t ∧ t.chip = s.chip.nextSample := by
  obtain ⟨t, ht, hchip, -⟩ := exec_gen 1 s
  exact ⟨t, ht, hchip⟩

/-- A sample step leaves an operator alone or gives it its envelope step and its phase step (R185, R198, R163). -/
theorem nextOp_cases (c : Chip) (o : Fin 36) : nextOp c o = c.ops[o] ∨
    nextOp c o = stepPhase c.regs c.vibPos o (stepEnvelope c.regs c.sampleCounter.toNat o c.ops[o]) := by
  cases hs : synthesised c.regs (chanOf o) with
  | false => exact .inl (nextOp_frozen hs)
  | true => exact .inr (nextOp_synthesised hs)

section byState

variable (m : RegFile) (c : Nat) (o : Fin 36) {op : OpState}

theorem stepEnvelope_attack (h : op.env = .attack) :
    stepEnvelope m c o op = stepAttack (effRate m o (ar m o)) c op := by simp only [stepEnvelope, h]

theorem stepEnvelope_decay (h : op.env = .decay) :
    stepEnvelope m c o op = stepDecay (effRate m o (dr m o)) c (slAtt (sl m o)) op := by simp only [stepEnvelope, h]

/-- EGT is read at every step of SUSTAIN (43_operator_engine R188, R189). -/
theorem stepEnvelope_sustain (h : op.env = .sustain) :
    stepEnvelope m c o op = if egt m o then op else stepFall (effRate m o (rr m o)) c op := by
  simp only [stepEnvelope, h]

theorem stepEnvelope_release (h : op.env = .release) :
    stepEnvelope m c o op = stepFall (effRate m o (rr m o)) c op := by simp only [stepEnvelope, h]

theorem stepEnvelope_off (h : op.env = .off) : stepEnvelope m c o op = { op with att := 511 } := by
  simp only [stepEnvelope, h, Config.envMax]

end byState

/-- The ATTACK step over the integers (43_operator_engine R186). -/
theorem attackLevel_cast (r inc att : Nat) : (attackLevel r inc att : Int) =
    if att = 0 then 0
    else if 60 ≤ r then 0
    else max 0 ((att : Int) + ((-(att : Int) - 1) * (inc : Int)) / 8) := by
  unfold attackLevel
  split
  · rfl
  · split
    · rfl
    · rw [Int.toNat_of_nonneg (le_max_left _ _)]
      rfl

/-- Settles O28: a synthesised operator's attenuation and state are those of `stepEnvelope`, whose rule for each state is
the stated one. -/
theorem envelopeStepByState : Obligations.EnvelopeStepByState := by
  intro s
  obtain ⟨t, ht, hchip⟩ := exec_gen_one s
  refine ⟨t, ht, fun o ho => ?_⟩
  intro m c op op' sus incR
  have hop : op' = stepPhase m s.chip.vibPos o (stepEnvelope m c o op) := by
    simp only [op', hchip, Fin.getElem_fin, Chip.nextSample_ops]
    exact nextOp_synthesised (synthesised_chanOf ho)
  have hatt : op'.att = (stepEnvelope m c o op).att := by rw [hop, stepPhase_att]
  have henv : op'.env = (stepEnvelope m c o op).env := by rw [hop, stepPhase_env]
  rw [henv, hatt]
  cases hstate : op.env with
  | attack =>
    rw [stepEnvelope_attack m c o hstate]
    exact ⟨attackLevel_cast _ _ _, rfl⟩
  | decay =>
    rw [stepEnvelope_decay m c o hstate]
    exact ⟨rfl, rfl⟩
  | sustain =>
    rw [stepEnvelope_sustain m c o hstate]
    dsimp only
    split
    · exact ⟨rfl, hstate⟩
    · exact ⟨rfl, by rw [← hstate]; rfl⟩
  | release =>
    rw [stepEnvelope_release m c o hstate]
    exact ⟨rfl, by rw [← hstate]; rfl⟩
  | off =>
    rw [stepEnvelope_off m c o hstate]
    exact ⟨rfl, hstate⟩

theorem le_stepDecay_att {op : OpState} (h : op.att ≤ 511) (r c level : Nat) :
    op.att ≤ (stepDecay r c level op).att := by
  simp only [stepDecay, Config.envMax]
  split <;> omega

theorem le_stepFall_att {op : OpState} (h : op.att ≤ 511) (r c : Nat) : op.att ≤ (stepFall r c op).att := by
  simp only [stepFall, Config.envMax]
  omega

/-- The ATTACK step never raises the attenuation (43_operator_engine R186, R192). -/
theorem stepEnvelope_att_le_of_attack {op : OpState} (h : op.env = .attack) (m : RegFile) (c : Nat) (o : Fin 36) :
    (stepEnvelope m c o op).att ≤ op.att := by
  rw [stepEnvelope_attack m c o h]
  exact attackLevel_le _ _ _

/-- Outside ATTACK the envelope step never lowers the attenuation (43_operator_engine R187 to R192). -/
theorem le_stepEnvelope_att {op : OpState} (hatt : op.att ≤ 511) (h : op.env ≠ .attack) (m : RegFile) (c : Nat)
    (o : Fin 36) : op.att ≤ (stepEnvelope m c o op).att := by
  cases hstate : op.env with
  | attack => exact absurd hstate h
  | decay =>
    rw [stepEnvelope_decay m c o hstate]
    exact le_stepDecay_att hatt _ _ _
  | sustain =>
    rw [stepEnvelope_sustain m c o hstate]
    split
    · exact le_refl _
    · exact le_stepFall_att hatt _ _
  | release =>
    rw [stepEnvelope_release m c o hstate]
    exact le_stepFall_att hatt _ _
  | off =>
    rw [stepEnvelope_off m c o hstate]
    exact hatt

/-- The envelope step keeps attenuations in 0..511, whatever an operator in OFF holds (43_operator_engine R181). -/
theorem stepEnvelope_att_le {op : OpState} (hatt : op.att ≤ 511) (m : RegFile) (c : Nat) (o : Fin 36) :
    (stepEnvelope m c o op).att ≤ 511 := by
  by_cases hoff : op.env = .off
  · rw [stepEnvelope_off m c o hoff]
  · exact (stepEnvelope_opInv ⟨hatt, fun h => absurd h hoff⟩ m c o).att

/-- Settles O29: a frozen operator keeps its attenuation, and a synthesised one moves as the step of its state does. -/
theorem envelopeIsMonotone : Obligations.EnvelopeIsMonotone := by
  intro s hatt
  obtain ⟨t, ht, hchip⟩ := exec_gen_one s
  refine ⟨t, ht, fun o => ?_⟩
  simp only [hchip, Fin.getElem_fin, Chip.nextSample_ops]
  rcases nextOp_cases s.chip o with heq | heq
  · rw [heq]
    exact ⟨hatt o, fun _ => le_refl _, fun _ => le_refl _⟩
  · rw [heq, stepPhase_att]
    refine ⟨stepEnvelope_att_le (hatt o) _ _ _, fun h => stepEnvelope_att_le_of_attack h _ _ _,
      fun h => le_stepEnvelope_att (hatt o) (fun hattack => ?_) _ _ _⟩
    rw [Fin.getElem_fin] at hattack
    simp [hattack] at h

/-- The machine allows every state to stay as it is (43_operator_engine R180). -/
theorem mem_envNext_self (e : Env) : e ∈ envNext e := by cases e <;> decide

/-- Each end of a two-way arrow is allowed where both are. -/
theorem ite_mem_of_mem {p : Prop} [Decidable p] {e e' : Env} {l : List Env} (h : e ∈ l) (h' : e' ∈ l) :
    (if p then e else e') ∈ l := by
  split
  · exact h
  · exact h'

/-- The envelope step follows the machine's arrows (43_operator_engine R186 to R191). -/
theorem stepEnvelope_env_mem (m : RegFile) (c : Nat) (o : Fin 36) (op : OpState) :
    (stepEnvelope m c o op).env ∈ envNext op.env := by
  cases hstate : op.env with
  | attack =>
    rw [stepEnvelope_attack m c o hstate]
    exact ite_mem_of_mem (by decide) (by decide)
  | decay =>
    rw [stepEnvelope_decay m c o hstate]
    exact ite_mem_of_mem (by decide) (by decide)
  | sustain =>
    rw [stepEnvelope_sustain m c o hstate]
    split
    · exact hstate ▸ mem_envNext_self op.env
    · exact ite_mem_of_mem (by decide) (hstate ▸ mem_envNext_self op.env)
  | release =>
    rw [stepEnvelope_release m c o hstate]
    exact ite_mem_of_mem (by decide) (hstate ▸ mem_envNext_self op.env)
  | off =>
    rw [stepEnvelope_off m c o hstate]
    exact hstate ▸ mem_envNext_self op.env

/-- A sample step takes every operator along an arrow of the machine. -/
theorem nextOp_env_mem (c : Chip) (o : Fin 36) : (nextOp c o).env ∈ envNext c.ops[o].env := by
  rcases nextOp_cases c o with heq | heq <;> rw [heq]
  · exact mem_envNext_self _
  · exact stepEnvelope_env_mem _ _ _ _

/-- What a run of samples from state `e` to state `e'` cannot do: enter ATTACK, enter RELEASE, or leave OFF. -/
def EnvRun (e e' : Env) : Prop :=
  (e' = .attack → e = .attack) ∧ (e' = .release → e = .release) ∧ (e = .off → e' = .off)

/-- No arrow of the machine enters ATTACK or RELEASE or leaves OFF. -/
theorem envRun_of_mem_envNext : ∀ {e e' : Env}, e' ∈ envNext e → EnvRun e e' := by
  intro e e'
  unfold EnvRun
  cases e <;> cases e' <;> decide

theorem EnvRun.trans {e e' e'' : Env} (h : EnvRun e e') (h' : EnvRun e' e'') : EnvRun e e'' := by
  obtain ⟨hattack, hrelease, hoff⟩ := h
  obtain ⟨hattack', hrelease', hoff'⟩ := h'
  exact ⟨hattack ∘ hattack', hrelease ∘ hrelease', hoff' ∘ hoff⟩

/-- A run of samples never enters ATTACK or RELEASE and never leaves OFF (43_operator_engine R180). -/
theorem envRun_iterate_nextSample (n : Nat) (c : Chip) (o : Fin 36) :
    EnvRun c.ops[o].env (Chip.nextSample^[n] c).ops[o].env := by
  refine iterate_nextSample_inv (P := fun c' => EnvRun c.ops[o].env c'.ops[o].env)
    (fun c' h => h.trans (envRun_of_mem_envNext ?_)) n ⟨id, id, id⟩
  simpa using nextOp_env_mem c' o

/-- What a transaction other than `gen` and `reset` can do to an operator: nothing, or the key event of a register write
that moves its key level (44_channel_synthesis R237). -/
theorem exec_op_cases {i : Instr} {s t : State} (hgen : ∀ n, i ≠ .gen n) (hreset : i ≠ .reset) (h : exec i s = .next t)
    (o : Fin 36) : t.chip.ops[o] = s.chip.ops[o] ∨
    ((regWrite i).isSome = true ∧ keyLevel s.chip.regs o = false ∧ keyLevel t.chip.regs o = true ∧
      t.chip.ops[o] = keyOn s.params t.chip.regs o s.chip.ops[o]) ∨
    ((regWrite i).isSome = true ∧ keyLevel s.chip.regs o = true ∧ keyLevel t.chip.regs o = false ∧
      t.chip.ops[o] = keyOff s.chip.ops[o]) := by
  rcases exec_chip_cases hgen hreset h with ⟨a, v, hw, rfl⟩ | ⟨hchip, -⟩
  · simp only [Fin.getElem_fin, State.withChip_chip, Chip.writeReg_ops, Chip.writeReg_regs, hw, Option.isSome_some,
      true_and]
    exact (keyEvent_cases s.params s.chip.regs (s.chip.regs.write a v) o s.chip.ops[o]).imp_left And.right
  · exact .inl (by rw [hchip])

/-- Settles O32: a sample follows `envNext`, a run of samples composes its arrows, and of the rest only the key events of
a register write set an envelope state. -/
theorem envelopeFollowsStateMachine : Obligations.EnvelopeFollowsStateMachine := by
  refine ⟨fun s t o h => ?_, fun n s t o h => ?_, fun i s t o hgen hreset h => ?_⟩
  · obtain ⟨t', ht, hchip⟩ := exec_gen_one s
    cases h.symm.trans ht
    simpa [hchip] using nextOp_env_mem s.chip o
  · obtain ⟨t', ht, hchip, -⟩ := exec_gen n s
    cases h.symm.trans ht
    rw [hchip]
    exact envRun_iterate_nextSample n s.chip o
  · rcases exec_op_cases hgen hreset h o with hsame | ⟨hw, hlow, hhigh, hop⟩ | ⟨hw, hhigh, hlow, hop⟩
    · exact .inl (by rw [hsame])
    · exact .inr (.inl ⟨hw, hlow, hhigh, by rw [hop, keyOn_env]⟩)
    · exact .inr (.inr ⟨hw, hhigh, hlow, by rw [hop, keyOff_env]⟩)

end Sys2Proof.Machine
end

section
/-! PROOFS. The phase step (43_operator_engine R196 to R199): what a sample adds to an accumulator, and what else writes
one. -/

namespace Sys2Proof.Machine

/-- Adding an integer's low 32 bits to an accumulator is adding the integer mod 2^32 (00_scope R11). -/
theorem toNat_add_ofInt (x : BitVec 32) (i : Int) :
    ((x + BitVec.ofInt 32 i).toNat : Int) = ((x.toNat : Int) + i) % 2 ^ 32 := by
  rw [BitVec.toNat_add, BitVec.toNat_ofInt]
  omega

/-- The increment written out, before reduction mod 2^32 (43_operator_engine R196). -/
theorem scaledInc_nativeInc (f : Int) (blk mlt : Nat) : scaledInc (nativeInc f blk mlt) =
    (f * 2 ^ blk / 2) * (entry multTable mlt : Int) / 2 * 2 ^ 13 * 49716 / 44100 := by
  simp [scaledInc, nativeInc, asr, Config.nativeRate, Config.sampleRate]

/-- A sample step adds its increment to a synthesised operator's accumulator (43_operator_engine R198). -/
theorem Chip.nextSample_acc {c : Chip} {o : Fin 36} (h : newMode c.regs = true ∨ o.val < 18) :
    c.nextSample.ops[o].acc = c.ops[o].acc + phaseInc c.regs c.vibPos o := by
  rw [Fin.getElem_fin, Chip.nextSample_ops, nextOp_synthesised (synthesised_chanOf h), stepPhase_acc, stepEnvelope_acc]

/-- Settles O33: the increment is `phaseInc`, written out over the integers. -/
theorem phaseStepAddsIncrement : Obligations.PhaseStepAddsIncrement := by
  intro s
  obtain ⟨t, ht, hchip⟩ := exec_gen_one s
  refine ⟨t, ht, fun o ho => ?_⟩
  rw [hchip, Chip.nextSample_acc ho, phaseInc_eq_scaledInc, toNat_add_ofInt, scaledInc_nativeInc]
  rfl

/-- A key-on keeps the phase or sets it to 0 (44_channel_synthesis R238). -/
theorem keyOn_acc_cases (p : Params) (m : RegFile) (o : Fin 36) (op : OpState) :
    (keyOn p m o op).acc = op.acc ∨ (keyOn p m o op).acc = 0 := by
  unfold keyOn
  dsimp only
  split
  · exact .inl rfl
  · exact .inr rfl

/-- Settles O34: outside `gen` and `reset` only a register write reaches the operators, and of its key events only a
key-on writes the phase. -/
theorem onlyKeyOnResetsPhase : Obligations.OnlyKeyOnResetsPhase := by
  intro i s t o hgen hreset h
  rcases exec_op_cases hgen hreset h o with hsame | ⟨hw, hlow, hhigh, hop⟩ | ⟨-, -, -, hop⟩
  · exact .inl (by rw [hsame])
  · rw [hop]
    exact (keyOn_acc_cases _ _ _ _).imp_right fun hacc => ⟨hw, hlow, hhigh, hacc⟩
  · exact .inl (by rw [hop, keyOff_acc])

end Sys2Proof.Machine
end

section
/-! PROOFS. The waveforms (43_operator_engine R205, R211, R212): their values over the printed tables, their range,
silence and monotonicity, and how they relate. -/

namespace Sys2Proof.Machine

/-- A magnitude with its sign. -/
def signed (negative : Bool) (v : Int) : Int := if negative then -v else v

/-- A waveform's value is its level's exponential with the waveform's sign (43_operator_engine R211). -/
theorem wave_eq_signed (ws p att : Nat) :
    wave ws p att = signed (waveNegative ws p) (expValue (waveLevel ws p + 8 * att) : Nat) := by
  rw [wave, signed, Nat.mul_comm 8 att]

theorem abs_signed (b : Bool) (v : Nat) : |signed b v| = v := by
  cases b <;> simp [signed]

/-- The magnitude of a waveform is its level's exponential. -/
theorem abs_wave (ws p att : Nat) : |wave ws p att| = (expValue (waveLevel ws p + 8 * att) : Nat) := by
  rw [wave_eq_signed, abs_signed]

/-- A level that with the attenuation is beyond the exponential's range is silence (43_operator_engine R212). -/
theorem wave_silent {ws p att : Nat} (h : 4088 ≤ waveLevel ws p + 8 * att) : wave ws p att = 0 := by
  rw [← abs_eq_zero, abs_wave, expValue_silent h]
  rfl

/-- Attenuation 511 is silence in every waveform (43_operator_engine R212). -/
theorem wave_att_511 (ws p : Nat) : wave ws p 511 = 0 := wave_silent (by omega)

/-- An operator at attenuation 511 outputs 0, whatever modulates it (43_operator_engine R204, R212). -/
theorem opOut_silent {c : Chip} {o : Fin 36} (h : c.ops[o].att = 511) (mod : Int) : opOut c o mod = 0 := by
  have htotal : totalAtt c.regs c.tremPos o c.ops[o].att = 511 := by
    simp only [totalAtt, Config.envMax, h]
    omega
  rw [opOut, htotal, wave_att_511]

/-- Settles O40: the range is that of the exponential, and 511 attenuation steps are beyond its last nonzero level. -/
theorem waveRangeAndSilence : Obligations.WaveRangeAndSilence :=
  ⟨fun ws p att _ _ _ => wave_inRange ws p att, by decide, fun ws p _ _ => wave_att_511 ws p,
    fun _ _ mod h => opOut_silent h mod⟩

/-- The exponential falls as its level grows (43_operator_engine R205). -/
theorem expValue_antitone : Antitone expValue := antitone_nat_of_succ_le expValue_succ

/-- No waveform grows with the attenuation. -/
theorem abs_wave_succ_le (ws p att : Nat) : |wave ws p (att + 1)| ≤ |wave ws p att| := by
  rw [abs_wave, abs_wave]
  exact_mod_cast expValue_antitone (by omega)

/-- A table in rows of sixteen is its rows joined. -/
theorem entry16_eq_flatten {rows : List (List Nat)} (h : ∀ row ∈ rows, row.length = 16) (i : Nat) :
    entry16 rows i = rows.flatten.getD i 0 := by
  induction rows generalizing i with
  | nil => rfl
  | cons row rows ih =>
    have hlen : row.length = 16 := h row (List.mem_cons_self ..)
    have ih := ih (fun row' hmem => h row' (List.mem_cons_of_mem _ hmem))
    rw [List.flatten_cons]
    by_cases hi : i < 16
    · rw [List.getD_append _ _ _ _ (by omega), entry16, Nat.div_eq_of_lt hi, Nat.mod_eq_of_lt hi]
      rfl
    · obtain ⟨j, rfl⟩ : ∃ j, i = j + 16 := ⟨i - 16, by omega⟩
      rw [List.getD_append_right _ _ _ _ (by omega), hlen, Nat.add_sub_cancel, ← ih j, entry16, entry16,
        Nat.add_div_right _ (by decide), Nat.add_mod_right]
      rfl

/-- LOGSIN as one list (48_reference_tables R321). -/
theorem logsin_eq_flatten (i : Nat) : logsinRows.flatten.getD i 0 = logsin i :=
  (entry16_eq_flatten (by decide) i).symm

/-- EXP as one list (48_reference_tables R322). -/
theorem expEntry_eq_flatten (i : Nat) : expRows.flatten.getD i 0 = expEntry i :=
  (entry16_eq_flatten (by decide) i).symm

/-! Bits 8 and 9 of a phase, and the folds and levels at the phase half a wave on (43_operator_engine R211). -/

/-- Bit 9 is clear in the first half of the wave. -/
theorem testBit_nine_of_lt {p : Nat} (h : p < 512) : p.testBit 9 = false := Nat.testBit_lt_two_pow h

/-- Bit 9 is set in the second half of the wave. -/
theorem testBit_nine_of_ge {p : Nat} (hp : p < 1024) (h : 512 ≤ p) : p.testBit 9 = true := by
  rw [Nat.testBit_eq_decide_div_mod_eq]
  exact decide_eq_true (by omega)

/-- Bit 8 tells the falling quarter of each half. -/
theorem testBit_eight (p : Nat) : p.testBit 8 = decide (256 ≤ p % 512) := by
  rw [Nat.testBit_eq_decide_div_mod_eq]
  exact decide_eq_decide.mpr (by omega)

theorem quarterFold_add_half (p : Nat) : quarterFold (p + 512) = quarterFold p := by
  have hbit : (p + 512).testBit 8 = p.testBit 8 := by rw [testBit_eight, testBit_eight, Nat.add_mod_right]
  have hmod : (p + 512) % 256 = p % 256 := by omega
  rw [quarterFold, quarterFold, hbit, hmod]

section relations

variable {p : Nat} (att : Nat)

/-- The sine over the first half: not negative (43_operator_engine R211). -/
theorem sine_of_lt (h : p < 512) : wave 0 p att = (expValue (quarterFold p + 8 * att) : Nat) := by
  have hbit : p.testBit 9 = false := testBit_nine_of_lt h
  rw [wave_eq_signed]
  simp only [waveNegative, waveLevel, signed, hbit, Bool.false_eq_true, if_false]

/-- The sine over the second half: the first half negated (43_operator_engine R211). -/
theorem sine_add_half (h : p < 512) : wave 0 (p + 512) att = -wave 0 p att := by
  have hbit : (p + 512).testBit 9 = true := testBit_nine_of_ge (by omega) (by omega)
  rw [sine_of_lt att h, wave_eq_signed]
  simp only [waveNegative, waveLevel, signed, hbit, if_true, quarterFold_add_half]

/-- The square has one value in each half (43_operator_engine R211). -/
theorem square_of_lt (h : p < 512) : wave 6 p att = wave 6 0 att := by
  have hbit : p.testBit 9 = false := testBit_nine_of_lt h
  rw [wave_eq_signed, wave_eq_signed]
  simp [waveNegative, waveLevel, hbit]

theorem square_add_half (h : p < 512) : wave 6 (p + 512) att = -wave 6 0 att := by
  have hbit : (p + 512).testBit 9 = true := testBit_nine_of_ge (by omega) (by omega)
  rw [wave_eq_signed, wave_eq_signed]
  simp [waveNegative, waveLevel, signed, hbit]

/-- The derived square over the first half: not negative (43_operator_engine R211). -/
theorem derivedSquare_of_lt (h : p < 512) : wave 7 p att = (expValue (p * 8 + 8 * att) : Nat) := by
  have hbit : p.testBit 9 = false := testBit_nine_of_lt h
  rw [wave_eq_signed]
  simp only [waveNegative, waveLevel, signed, hbit, Bool.false_eq_true, if_false]

/-- The derived square's second half is its first half mirrored and negated (43_operator_engine R211). -/
theorem derivedSquare_mirror (h : p < 512) : wave 7 (1023 - p) att = -wave 7 p att := by
  have hbit : (1023 - p).testBit 9 = true := testBit_nine_of_ge (by omega) (by omega)
  have hmirror : 1023 - (1023 - p) = p := by omega
  rw [derivedSquare_of_lt att h, wave_eq_signed]
  simp only [waveNegative, waveLevel, signed, hbit, if_true, hmirror]

/-- The half-sine is the sine's positive part (43_operator_engine R211). -/
theorem halfSine_eq_max (hp : p < 1024) : wave 1 p att = max 0 (wave 0 p att) := by
  by_cases h : p < 512
  · have hbit : p.testBit 9 = false := testBit_nine_of_lt h
    rw [sine_of_lt att h, wave_eq_signed]
    simp [waveNegative, waveLevel, signed, hbit]
  · obtain ⟨q, rfl⟩ : ∃ q, p = q + 512 := ⟨p - 512, by omega⟩
    have hbit : (q + 512).testBit 9 = true := testBit_nine_of_ge hp (by omega)
    have hlevel : waveLevel 1 (q + 512) = 4096 := by simp [waveLevel, silentLevel, hbit]
    rw [wave_silent (by omega), sine_add_half att (by omega), sine_of_lt att (by omega)]
    omega

/-- The abs-sine is the sine's magnitude (43_operator_engine R211). -/
theorem absSine_eq_abs (p att : Nat) : wave 2 p att = |wave 0 p att| := by
  rw [abs_wave, wave_eq_signed]
  rfl

/-- The pulse-sine is the abs-sine on its rising quarters, silent on the others (43_operator_engine R211). -/
theorem pulseSine_eq_ite (p att : Nat) : wave 3 p att = if p % 512 < 256 then wave 2 p att else 0 := by
  by_cases h : p % 512 < 256
  · have hbit : p.testBit 8 = false := by rw [testBit_eight, decide_eq_false (by omega)]
    rw [if_pos h, wave_eq_signed, wave_eq_signed]
    simp [waveNegative, waveLevel, quarterFold, hbit]
  · have hbit : p.testBit 8 = true := by rw [testBit_eight, decide_eq_true (by omega)]
    have hlevel : waveLevel 3 p = 4096 := by simp [waveLevel, silentLevel, hbit]
    rw [if_neg h, wave_silent (by omega)]

/-- The abs-alternating waveform is the alternating one's magnitude (43_operator_engine R211). -/
theorem absAlternating_eq_abs (p att : Nat) : wave 5 p att = |wave 4 p att| := by
  rw [abs_wave, wave_eq_signed]
  rfl

/-- The alternating waveform is silent in the second half (43_operator_engine R211). -/
theorem alternating_silent (hp : p < 1024) (h : 512 ≤ p) : wave 4 p att = 0 := by
  have hbit : p.testBit 9 = true := testBit_nine_of_ge hp h
  have hlevel : waveLevel 4 p = 4096 := by simp [waveLevel, silentLevel, hbit]
  exact wave_silent (by omega)

end relations

/-- Settles O41: over the tables as single lists each value is the model's own formula, and the relations are those
between the waveforms' levels and signs. -/
theorem waveformRelations : Obligations.WaveformRelations := by
  intro p att hp _ logsinList expList bit expv z sq dq neg
  have hlogsin (i : Nat) : logsinList.getD i 0 = logsin i := by
    rw [← logsin_eq_flatten]
    simp only [logsinList, logsinRows, List.flatten_cons, List.flatten_nil, List.append_nil, List.append_assoc]
  have hexpList (i : Nat) : expList.getD i 0 = expEntry i := by
    rw [← expEntry_eq_flatten]
    simp only [expList, expRows, List.flatten_cons, List.flatten_nil, List.append_nil, List.append_assoc]
  have hsq : sq = quarterFold p := by simp only [sq, hlogsin, bit, quarterFold]
  have hdq : dq = doubleFold p := by simp only [dq, hlogsin, bit, doubleFold]
  have hexpv : expv = fun level => ((expValue level : Nat) : Int) := by
    funext level
    simp only [expv, hexpList]
    rfl
  have hvalue : ∀ ws, wave ws p att = neg (waveNegative ws p) (expv (waveLevel ws p + 8 * att)) :=
    fun ws => hexpv ▸ wave_eq_signed ws p att
  rw [hsq, hdq, hlogsin, Nat.mul_comm 8 (if bit 9 then 1023 - p else p)]
  exact ⟨hvalue 0, hvalue 1, hvalue 2, hvalue 3, hvalue 4, hvalue 5, Nat.zero_add (8 * att) ▸ hvalue 6, hvalue 7,
    fun h => ⟨sine_add_half att h, sine_of_lt att h ▸ Int.natCast_nonneg _, square_of_lt att h, square_add_half att h,
      derivedSquare_mirror att h, derivedSquare_of_lt att h ▸ Int.natCast_nonneg _⟩,
    halfSine_eq_max att hp, absSine_eq_abs p att, pulseSine_eq_ite p att, absAlternating_eq_abs p att,
    alternating_silent att hp, fun ws _ => abs_wave_succ_le ws p att⟩

end Sys2Proof.Machine
end

section
/-! PROOFS. The phase index an operator is looked up at (43_operator_engine R195, R210), the rhythm phases
(44_channel_synthesis R245), and the silence of a chip whose operators are all OFF (43_operator_engine R212). -/

namespace Sys2Proof.Machine

/-- A bit of the phase index is a bit of the accumulator's top ten (43_operator_engine R195). -/
theorem testBit_phaseIndex (op : OpState) (k : Nat) : (phaseIndex op).testBit k = op.acc.getLsbD (22 + k) := by
  rw [phaseIndex_eq, Nat.testBit_div_two_pow, BitVec.testBit_toNat, Nat.add_comm]

/-! The rhythm phases with their bits as choices (44_channel_synthesis R245). -/

theorem hatPhase_eq (h t : Nat) (nb : Bool) : hatPhase h t nb =
    (if rhythmX h t then 512 else 0) + if rhythmX h t ^^ nb then 0xD0 else 0x34 := by
  rw [hatPhase]
  cases rhythmX h t <;> rfl

theorem snarePhase_eq (h : Nat) (nb : Bool) : snarePhase h nb =
    (if h.testBit 8 then 512 else 0) + if h.testBit 8 ^^ nb then 256 else 0 := by
  rw [snarePhase]
  cases h.testBit 8 <;> cases nb <;> rfl

theorem cymbalPhase_eq (h t : Nat) : cymbalPhase h t = (if rhythmX h t then 512 else 0) + 0x80 := by
  rw [cymbalPhase]
  cases rhythmX h t <;> rfl

/-- Outside rhythm mode, and in it for all but three operators, the phase looked up is the operator's own
(44_channel_synthesis R245). -/
theorem lookupPhase_own {c : Chip} {o : Fin 36} (h : rhy c.regs = false ∨ (o ≠ 14 ∧ o ≠ 15 ∧ o ≠ 17)) :
    lookupPhase c o = phaseIndex c.ops[o] := by
  unfold lookupPhase
  split
  case isFalse => rfl
  case isTrue hrhy =>
    obtain ⟨h14, h15, h17⟩ := h.resolve_left (by simp [hrhy])
    split
    · exact absurd (Fin.ext ‹_›) h14
    · exact absurd (Fin.ext ‹_›) h15
    · exact absurd (Fin.ext ‹_›) h17
    · rfl

section rhythm

variable {c : Chip} (h : rhy c.regs = true)
include h

theorem lookupPhase_hat : lookupPhase c 14 =
    hatPhase (phaseIndex c.ops[14]) (phaseIndex c.ops[17]) (c.noise.getLsbD 0) := by
  rw [lookupPhase, if_pos h]
  rfl

theorem lookupPhase_snare : lookupPhase c 15 = snarePhase (phaseIndex c.ops[14]) (c.noise.getLsbD 0) := by
  rw [lookupPhase, if_pos h]
  rfl

theorem lookupPhase_cymbal : lookupPhase c 17 = cymbalPhase (phaseIndex c.ops[14]) (phaseIndex c.ops[17]) := by
  rw [lookupPhase, if_pos h]
  rfl

end rhythm

/-- Settles O42: the output looks its waveform up at `lookupPhase`, whose cases are the operator's own phase index and
the three rhythm phases. -/
theorem operatorOutputPhase : Obligations.OperatorOutputPhase := by
  intro c idx h t nb x value
  have hx : rhythmX (phaseIndex c.ops[14]) (phaseIndex c.ops[17]) = x := by
    simp only [rhythmX, testBit_phaseIndex]
    rfl
  have h8 : (phaseIndex c.ops[14]).testBit 8 = h 8 := testBit_phaseIndex _ 8
  have hvalue {o : Fin 36} {p0 : Nat} (hp0 : lookupPhase c o = p0) (mod : Int) : opOut c o mod = value o p0 mod :=
    hp0 ▸ rfl
  refine ⟨fun o => ?_, fun o mod hown => hvalue ?_ mod, fun hrhy mod => ?_, ⟨rfl, rfl⟩, ⟨rfl, rfl⟩,
    fun o ho => Chip.nextSample_acc (.inr ho)⟩
  · have hacc := c.ops[o].acc.isLt
    show c.ops[o].acc.toNat / 2 ^ 22 < 1024
    omega
  · rw [lookupPhase_own (rhy_eq_getLsbD c.regs ▸ hown), phaseIndex_eq]
  · rw [← rhy_eq_getLsbD] at hrhy
    refine ⟨hvalue ?_ mod, hvalue ?_ mod, hvalue ?_ mod⟩
    · rw [lookupPhase_hat hrhy, hatPhase_eq, hx]
    · rw [lookupPhase_snare hrhy, snarePhase_eq, h8]
    · rw [lookupPhase_cymbal hrhy, cymbalPhase_eq, hx]

/-- Every operator is in OFF and at silence. -/
def AllOff (c : Chip) : Prop := ∀ o : Fin 36, c.ops[o].env = .off ∧ c.ops[o].att = 511

/-- A sample step leaves operators that are OFF and silent so (43_operator_engine R191). -/
theorem AllOff.nextSample {c : Chip} (h : AllOff c) : AllOff c.nextSample := by
  intro o
  rw [Fin.getElem_fin, Chip.nextSample_ops]
  obtain ⟨hoff, hatt⟩ := h o
  rcases nextOp_cases c o with heq | heq <;> rw [heq]
  · exact ⟨hoff, hatt⟩
  · rw [stepPhase_env, stepPhase_att, stepEnvelope_off _ _ _ hoff]
    exact ⟨hoff, rfl⟩

/-- Where every operator is silent, so is every unit: a unit's output is a sum of operators' outputs. -/
theorem AllOff.unitOut {c : Chip} (h : AllOff c) (u : SynthUnit) : unitOut c u = 0 := by
  have hop (o : Fin 36) (mod : Int) : opOut c o mod = 0 := opOut_silent (h o).2 mod
  cases u with
  | twoOp ch => simp [Machine.unitOut, twoOpOut, hop]
  | fourOp k =>
    simp only [Machine.unitOut, fourOpOut, hop]
    split <;> rfl
  | bassDrum => simp [Machine.unitOut, bassDrumOut, hop]
  | hatSnare => simp [Machine.unitOut, hop]
  | tomCymbal => simp [Machine.unitOut, hop]

/-- A silent sample adds nothing to a frame (46_generate_and_mixer R280). -/
theorem AllOff.addSample {c : Chip} (h : AllOff c) (f : AccFrame) : addSample c f = f := by
  have hleft : leftSum c = 0 := by simp [leftSum, h.unitOut]
  have hright : rightSum c = 0 := by simp [rightSum, h.unitOut]
  simp only [Machine.addSample, hleft, hright, Int.add_zero, wrap32s, BitVec.ofInt_toInt]

/-- A run of silent samples keeps the buffer and fills it up with frames of zeros (46_generate_and_mixer R280; log
entry 6). -/
theorem AllOff.generate_buf (n : Nat) {c : Chip} (h : AllOff c) (buf : List AccFrame) :
    (generate n c buf).2 = buf ++ List.replicate (n - buf.length) AccFrame.zero := by
  induction n generalizing c buf with
  | zero => simp [generate]
  | succ n ih =>
    simp only [generate, ih h.nextSample, h.addSample]
    cases buf with
    | nil => rfl
    | cons f buf => simp

/-- Settles O27: the sample step keeps every operator OFF and silent, and a silent chip's samples add 0. -/
theorem allOperatorsOffIsSilence : Obligations.AllOperatorsOffIsSilence := by
  intro n s (h : AllOff s.chip)
  obtain ⟨t, ht, hchip, hbuf, -⟩ := exec_gen n s
  exact ⟨t, ht, hbuf.trans (h.generate_buf n _),
    hchip ▸ iterate_nextSample_inv (P := AllOff) (fun _ => AllOff.nextSample) n h⟩

end Sys2Proof.Machine
end

section
/-! PROOFS. Key levels and the key events of a register write (44_channel_synthesis R236 to R239). -/

namespace Sys2Proof.Machine

/-- The rhythm key of an operator is RHY and its own bit of 0x0BD (44_channel_synthesis R236). -/
theorem rhythmKey_iff (m : RegFile) (o : Fin 36) : rhythmKey m o = true ↔
    (m.read 0x0BD).getLsbD 5 = true ∧
      ((o.val = 12 ∨ o.val = 13) ∧ (m.read 0x0BD).getLsbD 4 = true ∨
        o.val = 14 ∧ (m.read 0x0BD).getLsbD 0 = true ∨
        o.val = 15 ∧ (m.read 0x0BD).getLsbD 3 = true ∨
        o.val = 16 ∧ (m.read 0x0BD).getLsbD 2 = true ∨
        o.val = 17 ∧ (m.read 0x0BD).getLsbD 1 = true) := by
  simp only [rhythmKey, rhy_eq_getLsbD, bitOf_eq_getLsbD, Bool.and_eq_true]
  refine and_congr_right fun _ => ?_
  split <;> simp_all

/-- Settles O19: the key level is the channel's KON or the rhythm key. -/
theorem keyLevelOfOperator : Obligations.KeyLevelOfOperator := by
  intro m o
  rw [keyLevel, Bool.or_eq_true, rhythmKey_iff]

/-- A key-on as a whole: ATTACK, the attenuation kept, the phase reset unless PERC_NO_PHASE_RESET keeps it
(44_channel_synthesis R238). -/
theorem keyOn_eq (p : Params) (m : RegFile) (o : Fin 36) (op : OpState) : keyOn p m o op = ⟨.attack, op.att,
    if p.percNoPhaseReset = true ∧ bitOf (m.read 0x0BD) 5 = true ∧ 12 ≤ o.val ∧ o.val ≤ 17 then op.acc else 0⟩ := by
  simp only [keyOn, rhy, Bool.and_eq_true, decide_eq_true_eq, and_assoc]

/-- Settles O14: a rise of the key level is a key-on, a fall a key-off, and without a change there is no event. -/
theorem keyEventsFollowKeyLevels : Obligations.KeyEventsFollowKeyLevels := by
  intro i a v s hw
  refine ⟨_, exec_regWrite hw s, fun o => ?_⟩
  simp only [Fin.getElem_fin, State.withChip_chip, Chip.writeReg_ops, Chip.writeReg_regs]
  refine ⟨fun hlow hhigh => ?_, fun hhigh hlow => ?_, fun hsame => keyEvent_eq_self _ hsame⟩
  · exact (keyEvent_of_rise hlow hhigh _ _).trans (keyOn_eq _ _ _ _)
  · exact keyEvent_of_fall hhigh hlow _ _

/-- A write of the byte an address holds leaves the chip as it is: no key level changes. -/
theorem Chip.writeReg_read_self {c : Chip} (hwf : c.regs.wf = true) {a : Nat} (ha : a < 512) (p : Params) :
    c.writeReg p a (c.regs.read a) = c := by
  have hregs : c.regs.write a (c.regs.read a) = c.regs := RegFile.write_read_self hwf ha
  have hops : tabulate 36 (fun o => keyEvent p c.regs c.regs o c.ops[o]) = c.ops :=
    Vector.ext fun o ho => by rw [tabulate_getElem, keyEvent_eq_self _ rfl, Fin.getElem_fin]
  rw [Chip.writeReg, hregs, hops]

/-- Settles O20: the register space holds what it held, so the chip does. -/
theorem rewriteOfHeldByteChangesNothing : Obligations.RewriteOfHeldByteChangesNothing := by
  intro i a s hwf hw
  rw [exec_regWrite hw, Chip.writeReg_read_self hwf (regWrite_lt hw)]
  rfl

end Sys2Proof.Machine
end

section
/-! PROOFS. What a synthesis unit outputs (44_channel_synthesis R240 to R244) and what a sample leaves in the feedback
histories (R241, R242). -/

namespace Sys2Proof.Machine

/-- The second channel of an active pair has the frequency channel of the first (41_channel_regs R129). -/
theorem freqChan_pairSecond_of_active {m : RegFile} {k : Fin 6} (h : pairActive m k = true) :
    freqChan m (pairSecond k) = freqChan m (pairFirst k) := by
  rw [freqChan_of_activeSecond (activeSecond_of_active h), freqChan_pairFirst]

section connections

variable {c : Chip} {k : Fin 6}

/-! The 4-operator unit under each setting of the connection bits of its two channels (44_channel_synthesis R243). -/

theorem fourOpOut_serial (ha : cnt c.regs (pairFirst k) = false) (hb : cnt c.regs (pairSecond k) = false) :
    let v1 := opOut c (firstOp (pairFirst k)) (fbMod c (pairFirst k))
    let v2 := opOut c (secondOp (pairFirst k)) v1
    let v3 := opOut c (firstOp (pairSecond k)) v2
    let v4 := opOut c (secondOp (pairSecond k)) v3
    fourOpOut c k = ⟨v1, v2, v3, v4, v4⟩ := by
  simp only [fourOpOut, ha, hb]

theorem fourOpOut_single_serial (ha : cnt c.regs (pairFirst k) = true) (hb : cnt c.regs (pairSecond k) = false) :
    let v1 := opOut c (firstOp (pairFirst k)) (fbMod c (pairFirst k))
    let v2 := opOut c (secondOp (pairFirst k)) 0
    let v3 := opOut c (firstOp (pairSecond k)) v2
    let v4 := opOut c (secondOp (pairSecond k)) v3
    fourOpOut c k = ⟨v1, v2, v3, v4, v1 + v4⟩ := by
  simp only [fourOpOut, ha, hb]

theorem fourOpOut_two_pairs (ha : cnt c.regs (pairFirst k) = false) (hb : cnt c.regs (pairSecond k) = true) :
    let v1 := opOut c (firstOp (pairFirst k)) (fbMod c (pairFirst k))
    let v2 := opOut c (secondOp (pairFirst k)) v1
    let v3 := opOut c (firstOp (pairSecond k)) 0
    let v4 := opOut c (secondOp (pairSecond k)) v3
    fourOpOut c k = ⟨v1, v2, v3, v4, v2 + v4⟩ := by
  simp only [fourOpOut, ha, hb]

theorem fourOpOut_single_pair_single (ha : cnt c.regs (pairFirst k) = true) (hb : cnt c.regs (pairSecond k) = true) :
    let v1 := opOut c (firstOp (pairFirst k)) (fbMod c (pairFirst k))
    let v2 := opOut c (secondOp (pairFirst k)) 0
    let v3 := opOut c (firstOp (pairSecond k)) v2
    let v4 := opOut c (secondOp (pairSecond k)) 0
    fourOpOut c k = ⟨v1, v2, v3, v4, v1 + v3 + v4⟩ := by
  simp only [fourOpOut, ha, hb]

end connections

/-- The bass drum is its second operator, doubled, modulated by the first one unless the connection bit is set
(44_channel_synthesis R244). -/
theorem bassDrumOut_eq_two_mul (c : Chip) :
    bassDrumOut c = 2 * opOut c 13 (if cnt c.regs 6 then 0 else opOut c 12 (fbMod c 6)) := by
  rw [bassDrumOut, apply_ite (opOut c 13)]

/-- Settles O44: each unit's formula is its defining equation at the given connection bits, and both channels of an active
pair have one frequency channel. -/
theorem unitOutputs : Obligations.UnitOutputs := by
  refine ⟨cnt_eq_getLsbD, fun c => ⟨fun ch => ⟨rfl, ?_⟩, fun k => ⟨rfl, fun hactive => ?_, ?_, ?_, ?_, ?_⟩,
    rfl, bassDrumOut_eq_two_mul c⟩⟩
  · exact if_congr Iff.rfl rfl rfl
  · have hfreq := freqChan_pairSecond_of_active hactive
    exact ⟨by rw [fnum, fnum, hfreq], by rw [block, block, hfreq], by rw [kon, kon, hfreq]⟩
  · exact fun ha hb => congrArg PairOut.chOut (fourOpOut_serial ha hb)
  · exact fun ha hb => congrArg PairOut.chOut (fourOpOut_single_serial ha hb)
  · exact fun ha hb => congrArg PairOut.chOut (fourOpOut_two_pairs ha hb)
  · exact fun ha hb => congrArg PairOut.chOut (fourOpOut_single_pair_single ha hb)

/-- FB is bits 1 to 3 of the channel's 0xC0 (41_channel_regs R134). -/
theorem fbAmount_eq_div_mod (m : RegFile) (ch : Fin 18) :
    fbAmount m ch = (m.read (chAddr 0xC0 ch)).toNat / 2 % 8 := rfl

/-- The feedback modulation with FB written out as bits (44_channel_synthesis R241). -/
theorem fbMod_eq_ite (c : Chip) (ch : Fin 18) : fbMod c ch =
    if (c.regs.read (chAddr 0xC0 ch)).toNat / 2 % 8 = 0 then 0
    else (c.fb[ch].fb1 + c.fb[ch].fb2) / 2 ^ (9 - (c.regs.read (chAddr 0xC0 ch)).toNat / 2 % 8) := by
  rw [fbMod, fbAmount_eq_div_mod, asr]

/-- A shift to the right by two or more places takes 8168, twice the largest output, to 2042 at most. -/
theorem abs_asr_le {x : Int} (hx : |x| ≤ 8168) {n : Nat} (hn : 2 ≤ n) : |asr x n| ≤ 2042 := by
  obtain ⟨hlow, hhigh⟩ := abs_le.mp hx
  have hpow : (4 : Int) ≤ 2 ^ n := by exact_mod_cast Nat.pow_le_pow_right (n := 2) (by decide) hn
  have hquot : -2042 ≤ x / 2 ^ n := (Int.le_ediv_iff_mul_le (by omega)).mpr (by omega)
  have hquot' : x / 2 ^ n < 2043 := (Int.ediv_lt_iff_lt_mul (by omega)).mpr (by omega)
  exact abs_le.mpr ⟨hquot, Int.le_of_lt_add_one hquot'⟩

/-- The feedback modulation of outputs in range is at most 2042 in magnitude: with FB at most 7 the shift is by two or
more (44_channel_synthesis R241). -/
theorem abs_fbMod_le {c : Chip} {ch : Fin 18} (h1 : |c.fb[ch].fb1| ≤ 4084) (h2 : |c.fb[ch].fb2| ≤ 4084) :
    |fbMod c ch| ≤ 2042 := by
  have hsum : |c.fb[ch].fb1 + c.fb[ch].fb2| ≤ 8168 := (abs_add_le _ _).trans (add_le_add h1 h2)
  have hshift : 2 ≤ 9 - fbAmount c.regs ch := by rw [fbAmount_eq_div_mod]; omega
  rw [fbMod]
  split
  · simp
  · exact abs_asr_le hsum hshift

/-- What enters the feedback history of an active pair's second channel: the pair's third output, by the connection bits
(44_channel_synthesis R242, R243). -/
theorem firstOut_pairSecond {c : Chip} {k : Fin 6} (hactive : pairActive c.regs k = true) :
    firstOut c (pairSecond k) = opOut c (firstOp (pairSecond k))
      (if cnt c.regs (pairSecond k) = true ∧ cnt c.regs (pairFirst k) = false then 0
      else opOut c (secondOp (pairFirst k))
        (if cnt c.regs (pairFirst k) then 0 else opOut c (firstOp (pairFirst k)) (fbMod c (pairFirst k)))) := by
  simp only [firstOut, activeSecond_of_active hactive]
  cases ha : cnt c.regs (pairFirst k) <;> cases hb : cnt c.regs (pairSecond k)
  · exact congrArg PairOut.v3 (fourOpOut_serial ha hb)
  · exact congrArg PairOut.v3 (fourOpOut_two_pairs ha hb)
  · exact congrArg PairOut.v3 (fourOpOut_single_serial ha hb)
  · exact congrArg PairOut.v3 (fourOpOut_single_pair_single ha hb)

/-- The search for an active pair with this second channel fails where no active pair has it. -/
theorem activeSecond_none_iff {m : RegFile} {ch : Fin 18} :
    activeSecond m ch = none ↔ ∀ k, pairActive m k = true → ch ≠ pairSecond k := by
  rw [activeSecond_none]
  refine forall_congr' fun k => ?_
  rw [← Bool.not_eq_true, eq_comm]
  exact imp_not_comm

/-- The channel is in no active pair. -/
def Unpaired (m : RegFile) (ch : Fin 18) : Prop :=
  ∀ k, pairActive m k = true → ch ≠ pairFirst k ∧ ch ≠ pairSecond k

/-- No pair contains a rhythm channel (44_channel_synthesis R231). -/
theorem unpaired_rhythm (m : RegFile) {ch : Fin 18} (h : 6 ≤ ch.val ∧ ch.val ≤ 8) : Unpaired m ch := by
  intro k _
  obtain ⟨hfirst, hsecond⟩ := pair_not_rhythm k
  exact ⟨fun heq => hfirst (heq ▸ h), fun heq => hsecond (heq ▸ h)⟩

theorem Unpaired.activeSecond_eq_none {m : RegFile} {ch : Fin 18} (h : Unpaired m ch) : activeSecond m ch = none :=
  activeSecond_none_iff.mpr fun k hactive => (h k hactive).2

/-- In rhythm mode the first operators of channels 7 and 8 enter the history unmodulated (44_channel_synthesis R242,
R245). -/
theorem firstOut_rhythm {c : Chip} (hrhy : rhy c.regs = true) {ch : Fin 18} (hch : ch = 7 ∨ ch = 8) :
    firstOut c ch = opOut c (firstOp ch) 0 := by
  have hsecond : activeSecond c.regs ch = none :=
    (unpaired_rhythm _ (by rcases hch with rfl | rfl <;> decide)).activeSecond_eq_none
  simp only [firstOut, hsecond, hrhy]
  exact if_pos (by simpa using hch)

/-- Every other channel's first operator enters the history under the channel's feedback modulation
(44_channel_synthesis R241, R242). -/
theorem firstOut_feedback {c : Chip} {ch : Fin 18} (hsecond : activeSecond c.regs ch = none)
    (hrhythm : ¬ (rhy c.regs = true ∧ (ch = 7 ∨ ch = 8))) : firstOut c ch = opOut c (firstOp ch) (fbMod c ch) := by
  simp only [firstOut, hsecond]
  exact if_neg (by simpa using hrhythm)

/-- The history of a synthesised channel after a sample (44_channel_synthesis R242). -/
theorem Chip.nextSample_fb_synthesised {c : Chip} {ch : Fin 18} (h : newMode c.regs = true ∨ ch.val < 9) :
    c.nextSample.fb[ch].fb1 = firstOut c ch ∧ c.nextSample.fb[ch].fb2 = c.fb[ch].fb1 := by
  have hsynth : synthesised c.regs ch = true := by simpa [synthesised] using h
  have hfb : nextFeedback c ch = ⟨firstOut c ch, c.fb[ch].fb1⟩ := if_pos hsynth
  rw [Fin.getElem_fin, Chip.nextSample_fb, hfb]
  exact ⟨rfl, rfl⟩

/-- Settles O46: the sample step puts `firstOut` before the last output, and `firstOut` has a case for second channels of
pairs, one for the rhythm channels and one for the rest. -/
theorem feedbackHistory : Obligations.FeedbackHistory := by
  refine ⟨cnt_eq_getLsbD, fbMod_eq_ite, fun c ch => abs_fbMod_le, fun s => ?_⟩
  obtain ⟨t, ht, hchip⟩ := exec_gen_one s
  refine ⟨t, ht, ?_⟩
  intro c rhythm
  have hrhy : rhy c.regs = true ↔ rhythm := by rw [rhy_eq_getLsbD]
  have hfb1 {ch : Fin 18} (h : newMode c.regs = true ∨ ch.val < 9) : t.chip.fb[ch].fb1 = firstOut c ch :=
    hchip ▸ (Chip.nextSample_fb_synthesised h).1
  refine ⟨fun ch hch => hchip ▸ (Chip.nextSample_fb_synthesised hch).2, fun k hactive => ?_, fun hon => ⟨?_, ?_⟩,
    fun ch hch hsecond hrhythm => ?_⟩
  · have hnew : newMode c.regs = true := (Bool.and_eq_true_iff.mp hactive).1
    exact (hfb1 (.inl hnew)).trans (firstOut_pairSecond hactive)
  · exact (hfb1 (.inr (by decide))).trans (firstOut_rhythm (hrhy.mpr hon) (.inl rfl))
  · exact (hfb1 (.inr (by decide))).trans (firstOut_rhythm (hrhy.mpr hon) (.inr rfl))
  · exact (hfb1 hch).trans
      (firstOut_feedback (activeSecond_none_iff.mpr hsecond) fun h => hrhythm (h.imp_left hrhy.mp))

end Sys2Proof.Machine
end

section
/-! PROOFS. The units of a sample and the channels they compute (44_channel_synthesis R230 to R232). -/

namespace Sys2Proof.Machine

/-- No channel is the first one of two pairs (44_channel_synthesis R232). -/
theorem pairFirst_inj : ∀ k k' : Fin 6, pairFirst k = pairFirst k' → k = k' := by decide

/-- The first channel of an active pair finds its pair. -/
theorem activeFirst_of_active {m : RegFile} {k : Fin 6} (h : pairActive m k = true) :
    activeFirst m (pairFirst k) = some k := by
  cases hx : activeFirst m (pairFirst k) with
  | none => simp [activeFirst_none.mp hx k rfl] at h
  | some k' => rw [pairFirst_inj _ _ (activeFirst_some hx).1]

/-- The unit of a channel outside the active pairs: a rhythm unit for channels 6 to 8 in rhythm mode, else its own
2-operator unit (44_channel_synthesis R230, R231). -/
def soloUnit (rhythm : Bool) (ch : Fin 18) : SynthUnit :=
  if rhythm = true ∧ ch = 6 then .bassDrum
  else if rhythm = true ∧ ch = 7 then .hatSnare
  else if rhythm = true ∧ ch = 8 then .tomCymbal
  else .twoOp ch

theorem panChan_soloUnit : ∀ r ch, panChan (soloUnit r ch) = ch := by decide

theorem soloUnit_ne_fourOp : ∀ r ch k, soloUnit r ch ≠ .fourOp k := by decide

theorem soloUnit_eq_twoOp_iff : ∀ r ch, soloUnit r ch = .twoOp ch ↔ ¬ (r = true ∧ 6 ≤ ch.val ∧ ch.val ≤ 8) := by decide

theorem soloUnit_eq_rhythm_iff : ∀ r, ∀ u ∈ [SynthUnit.bassDrum, .hatSnare, .tomCymbal],
    soloUnit r (panChan u) = u ↔ r = true := by decide

/-- The first channel of an active pair leads the pair's unit. -/
theorem unitOf_pairFirst {m : RegFile} {k : Fin 6} (h : pairActive m k = true) :
    unitOf m (pairFirst k) = some (.fourOp k) := by
  simp only [unitOf, activeFirst_of_active h]

/-- The second channel of an active pair leads no unit. -/
theorem unitOf_pairSecond {m : RegFile} {k : Fin 6} (h : pairActive m k = true) : unitOf m (pairSecond k) = none := by
  have hfirst : activeFirst m (pairSecond k) = none :=
    activeFirst_none.mpr fun k' heq => absurd heq (pairFirst_ne_pairSecond k' k)
  simp only [unitOf, hfirst, activeSecond_of_active h]

/-- A channel in no active pair leads its own unit. -/
theorem unitOf_unpaired {m : RegFile} {ch : Fin 18} (h : Unpaired m ch) :
    unitOf m ch = some (soloUnit (rhy m) ch) := by
  have hfirst : activeFirst m ch = none :=
    activeFirst_none.mpr fun k heq => Bool.eq_false_iff.mpr fun hactive => (h k hactive).1 heq.symm
  simp only [unitOf, hfirst, h.activeSecond_eq_none]
  generalize rhy m = r
  clear h hfirst
  revert r ch
  decide

/-- A channel is the first or the second one of an active pair, or in no active pair (44_channel_synthesis R230). -/
theorem channel_cases (m : RegFile) (ch : Fin 18) :
    (∃ k, pairActive m k = true ∧ ch = pairFirst k) ∨ (∃ k, pairActive m k = true ∧ ch = pairSecond k) ∨
      Unpaired m ch := by
  by_cases hfirst : ∃ k, pairActive m k = true ∧ ch = pairFirst k
  · exact .inl hfirst
  by_cases hsecond : ∃ k, pairActive m k = true ∧ ch = pairSecond k
  · exact .inr (.inl hsecond)
  · exact .inr (.inr fun k hactive => ⟨fun heq => hfirst ⟨k, hactive, heq⟩, fun heq => hsecond ⟨k, hactive, heq⟩⟩)

/-- A unit that a channel leads is an active pair's with that pair's first channel, or the channel's own. -/
theorem unitOf_eq_some {m : RegFile} {ch : Fin 18} {u : SynthUnit} (h : unitOf m ch = some u) :
    (∃ k, pairActive m k = true ∧ ch = pairFirst k ∧ u = .fourOp k) ∨ (Unpaired m ch ∧ u = soloUnit (rhy m) ch) := by
  rcases channel_cases m ch with ⟨k, hactive, rfl⟩ | ⟨k, hactive, rfl⟩ | hfree
  · rw [unitOf_pairFirst hactive] at h
    exact .inl ⟨k, hactive, rfl, (Option.some.inj h).symm⟩
  · rw [unitOf_pairSecond hactive] at h
    cases h
  · rw [unitOf_unpaired hfree] at h
    exact .inr ⟨hfree, (Option.some.inj h).symm⟩

/-- The channel that leads a unit is its pan channel (44_channel_synthesis R240, R243 to R245). -/
theorem panChan_of_unitOf {m : RegFile} {ch : Fin 18} {u : SynthUnit} (h : unitOf m ch = some u) : panChan u = ch := by
  rcases unitOf_eq_some h with ⟨k, -, rfl, rfl⟩ | ⟨-, rfl⟩
  · rfl
  · exact panChan_soloUnit _ _

/-- A unit is one of the sample's where its pan channel is synthesised and leads it. -/
theorem mem_unitsOf {m : RegFile} {u : SynthUnit} :
    u ∈ unitsOf m ↔ synthesised m (panChan u) = true ∧ unitOf m (panChan u) = some u := by
  simp only [unitsOf, List.mem_filterMap, List.mem_filter, List.mem_finRange, true_and]
  constructor
  · rintro ⟨ch, hsynth, hunit⟩
    rw [panChan_of_unitOf hunit]
    exact ⟨hsynth, hunit⟩
  · exact fun h => ⟨panChan u, h⟩

/-- Every channel is synthesised where a pair is active, since NEW is 1 then (42_global_regs R163). -/
theorem synthesised_of_pairActive {m : RegFile} {k : Fin 6} (h : pairActive m k = true) (ch : Fin 18) :
    synthesised m ch = true :=
  (synthesised_iff m ch).mpr (.inl ((pairActive_iff m k).mp h).1)

/-- The 4-operator units are the active pairs. -/
theorem fourOp_mem_unitsOf {m : RegFile} {k : Fin 6} : .fourOp k ∈ unitsOf m ↔ pairActive m k = true := by
  refine ⟨fun h => ?_, fun h => mem_unitsOf.mpr ⟨synthesised_of_pairActive h _, unitOf_pairFirst h⟩⟩
  rcases unitOf_eq_some (mem_unitsOf.mp h).2 with ⟨k', hactive, -, heq⟩ | ⟨-, heq⟩
  · cases heq
    exact hactive
  · exact absurd heq.symm (soloUnit_ne_fourOp _ _ _)

/-- The rhythm units are there in rhythm mode. -/
theorem rhythm_mem_unitsOf {m : RegFile} {u : SynthUnit} (hu : u ∈ [SynthUnit.bassDrum, .hatSnare, .tomCymbal]) :
    u ∈ unitsOf m ↔ rhy m = true := by
  have hchan : ∀ u ∈ [SynthUnit.bassDrum, .hatSnare, .tomCymbal], 6 ≤ (panChan u).val ∧ (panChan u).val ≤ 8 := by decide
  have hlow : (panChan u).val < 9 := Nat.lt_succ_of_le (hchan u hu).2
  rw [mem_unitsOf, unitOf_unpaired (unpaired_rhythm m (hchan u hu)), synthesised_iff, Option.some_inj,
    soloUnit_eq_rhythm_iff _ u hu]
  exact and_iff_right (.inr hlow)

/-- The 2-operator units are the synthesised channels in no active pair, without the rhythm channels in rhythm mode. -/
theorem twoOp_mem_unitsOf {m : RegFile} {ch : Fin 18} : .twoOp ch ∈ unitsOf m ↔
    synthesised m ch = true ∧ Unpaired m ch ∧ ¬ (rhy m = true ∧ 6 ≤ ch.val ∧ ch.val ≤ 8) := by
  rw [mem_unitsOf, ← soloUnit_eq_twoOp_iff]
  refine and_congr_right fun _ => ⟨fun h => ?_, fun ⟨hfree, hsolo⟩ => ?_⟩
  · rcases unitOf_eq_some h with ⟨k, -, -, heq⟩ | ⟨hfree, heq⟩
    · cases heq
    · exact ⟨hfree, heq.symm⟩
  · exact (unitOf_unpaired hfree).trans (congrArg some hsolo)

/-- Each unit stands once: only its pan channel leads it. -/
theorem unitsOf_nodup (m : RegFile) : (unitsOf m).Nodup := by
  refine ((List.nodup_finRange 18).filter _).filterMap fun ch ch' u h h' => ?_
  exact (panChan_of_unitOf h).symm.trans (panChan_of_unitOf h')

/-- A unit computes its pan channel and, of a pair, the second channel (44_channel_synthesis R230). -/
theorem mem_unitChannels {u : SynthUnit} {ch : Fin 18} :
    ch ∈ unitChannels u ↔ ch = panChan u ∨ ∃ k, u = .fourOp k ∧ ch = pairSecond k := by
  cases u <;> simp [unitChannels, panChan]

theorem unitChannels_nodup (u : SynthUnit) : (unitChannels u).Nodup := by
  cases u with
  | fourOp k => simpa [unitChannels] using pairFirst_ne_pairSecond k k
  | _ => exact List.nodup_singleton _

/-- The channels that a unit of a sample computes are those whose frequency channel is its pan channel, so no two units
compute the same one. -/
theorem panChan_eq_freqChan {m : RegFile} {u : SynthUnit} (hu : u ∈ unitsOf m) {ch : Fin 18} (hch : ch ∈ unitChannels u) :
    panChan u = freqChan m ch := by
  rcases mem_unitChannels.mp hch with rfl | ⟨k, rfl, rfl⟩
  · rcases unitOf_eq_some (mem_unitsOf.mp hu).2 with ⟨k, -, hfirst, -⟩ | ⟨hfree, -⟩
    · rw [hfirst, freqChan_pairFirst]
    · exact (freqChan_of_no_activeSecond hfree.activeSecond_eq_none).symm
  · rw [freqChan_pairSecond_of_active (fourOp_mem_unitsOf.mp hu), freqChan_pairFirst]
    rfl

/-- No two units of a sample compute the same channel. -/
theorem eq_of_mem_unitChannels {m : RegFile} {u u' : SynthUnit} (hu : u ∈ unitsOf m) (hu' : u' ∈ unitsOf m)
    {ch : Fin 18} (hch : ch ∈ unitChannels u) (hch' : ch ∈ unitChannels u') : u = u' := by
  have hpan : panChan u = panChan u' := (panChan_eq_freqChan hu hch).trans (panChan_eq_freqChan hu' hch').symm
  have hunit := (mem_unitsOf.mp hu).2
  rw [hpan, (mem_unitsOf.mp hu').2] at hunit
  exact (Option.some.inj hunit).symm

/-- The channels that the units of a sample compute are the synthesised ones. -/
theorem mem_flatMap_unitChannels {m : RegFile} {ch : Fin 18} :
    ch ∈ (unitsOf m).flatMap unitChannels ↔ synthesised m ch = true := by
  rw [List.mem_flatMap]
  constructor
  · rintro ⟨u, hu, hch⟩
    rcases mem_unitChannels.mp hch with rfl | ⟨k, rfl, -⟩
    · exact (mem_unitsOf.mp hu).1
    · exact synthesised_of_pairActive (fourOp_mem_unitsOf.mp hu) ch
  · intro hsynth
    rcases channel_cases m ch with ⟨k, hactive, rfl⟩ | ⟨k, hactive, rfl⟩ | hfree
    · exact ⟨_, fourOp_mem_unitsOf.mpr hactive, mem_unitChannels.mpr (.inl rfl)⟩
    · exact ⟨_, fourOp_mem_unitsOf.mpr hactive, mem_unitChannels.mpr (.inr ⟨k, rfl, rfl⟩)⟩
    · have hpan : panChan (soloUnit (rhy m) ch) = ch := panChan_soloUnit _ _
      refine ⟨soloUnit (rhy m) ch, mem_unitsOf.mpr ?_, mem_unitChannels.mpr (.inl hpan.symm)⟩
      rw [hpan]
      exact ⟨hsynth, unitOf_unpaired hfree⟩

/-- The units of a sample compute every synthesised channel once and no other (44_channel_synthesis R230). -/
theorem flatMap_unitChannels_perm (m : RegFile) :
    ((unitsOf m).flatMap unitChannels).Perm ((List.finRange 18).filter (fun ch => synthesised m ch)) := by
  have hdisjoint : (unitsOf m).Pairwise (Function.onFun List.Disjoint unitChannels) :=
    (unitsOf_nodup m).pairwise_of_forall_ne fun u hu u' hu' hne ch hch hch' =>
      hne (eq_of_mem_unitChannels hu hu' hch hch')
  refine (List.perm_ext_iff_of_nodup (List.nodup_flatMap.mpr ⟨fun u _ => unitChannels_nodup u, hdisjoint⟩)
    ((List.nodup_finRange 18).filter _)).mpr fun ch => ?_
  rw [mem_flatMap_unitChannels, List.mem_filter]
  exact (and_iff_right (List.mem_finRange ch)).symm

/-- Settles O45: which units there are follows from what each channel leads, and the pan channel of a unit is the
frequency channel of all its channels. -/
theorem unitsPartitionChannels : Obligations.UnitsPartitionChannels := by
  refine ⟨fun ch => ⟨rfl, rfl⟩, by decide, by decide, fun m => ?_⟩
  intro active rhythm
  have hrhy : rhy m = true ↔ rhythm := by rw [rhy_eq_getLsbD]
  have hactive (k : Fin 6) : pairActive m k = true ↔ active k := pairActive_iff m k
  refine ⟨newMode_eq_getLsbD m, rhy_eq_getLsbD m, hactive, synthesised_iff m, fun _ => rfl,
    fun k => fourOp_mem_unitsOf.trans (hactive k), (rhythm_mem_unitsOf (by decide)).trans hrhy,
    (rhythm_mem_unitsOf (by decide)).trans hrhy, (rhythm_mem_unitsOf (by decide)).trans hrhy, fun ch => ?_,
    unitsOf_nodup m, flatMap_unitChannels_perm m⟩
  simp only [twoOp_mem_unitsOf, synthesised_iff, Unpaired, hactive, hrhy]

end Sys2Proof.Machine
end

section
/-! PROOFS. The sums of a sample: how the units are routed (44_channel_synthesis R246), how large the sums can be (R248),
and that they are equal with NEW = 0. -/

namespace Sys2Proof.Machine

/-- A channel goes to the left with NEW = 0, or by its CHA (44_channel_synthesis R246). -/
theorem routesLeft_iff (m : RegFile) (ch : Fin 18) :
    routesLeft m ch = true ↔ newMode m = false ∨ (m.read (chAddr 0xC0 ch)).getLsbD 4 = true := by
  simp [routesLeft, chreg, bitOf_eq_getLsbD]

/-- A channel goes to the right with NEW = 0, or by its CHB (44_channel_synthesis R246). -/
theorem routesRight_iff (m : RegFile) (ch : Fin 18) :
    routesRight m ch = true ↔ newMode m = false ∨ (m.read (chAddr 0xC0 ch)).getLsbD 5 = true := by
  simp [routesRight, chreg, bitOf_eq_getLsbD]

/-- Settles O47: the two sums route each unit by the two views `routesLeft` and `routesRight` of its pan channel. -/
theorem sampleSumsRouteUnits : Obligations.SampleSumsRouteUnits := by
  intro c
  simp only [leftSum, rightSum, routesLeft_iff, routesRight_iff, and_self]

/-- With NEW = 0 both sums of a sample are the sum of all its units (44_channel_synthesis R246). -/
theorem rightSum_eq_leftSum_opl2 {c : Chip} (hnew : newMode c.regs = false) : rightSum c = leftSum c := by
  simp only [leftSum, rightSum, routesLeft_iff, routesRight_iff, hnew, true_or]

/-- With NEW = 0 a run of samples keeps the left and right words of a buffer equal; a frame not supplied starts with equal
words, being a frame of zeros (log entry 6). -/
theorem generate_agree_opl2 (n : Nat) {c : Chip} (hnew : newMode c.regs = false) {buf : List AccFrame}
    (hbuf : ∀ f ∈ buf, f.l = f.r) : ∀ f ∈ (generate n c buf).2, f.l = f.r := by
  induction n generalizing c buf with
  | zero => exact hbuf
  | succ n ih =>
    have hhead : (buf.headD AccFrame.zero).l = (buf.headD AccFrame.zero).r := by
      cases buf with
      | nil => rfl
      | cons f buf => exact hbuf f (List.mem_cons_self ..)
    intro f hf
    rcases List.mem_cons.mp hf with rfl | hf
    · simp only [addSample, hhead, rightSum_eq_leftSum_opl2 hnew]
    · exact ih (c := c.nextSample) hnew (fun f hf => hbuf f (List.mem_of_mem_tail hf)) f hf

/-- Settles O26: the buffer after `gen` is that of `generate`. -/
theorem opl2ModeOutputsAgree : Obligations.Opl2ModeOutputsAgree := by
  intro n s hnew hbuf
  obtain ⟨t, ht, -, htbuf, -⟩ := exec_gen n s
  exact ⟨t, ht, htbuf ▸ generate_agree_opl2 n hnew hbuf⟩

/-- A sum of integers is at most as large as its number of terms times a bound of each. -/
theorem abs_sum_map_le {α : Type} {l : List α} {f : α → Int} {b : Int} (h : ∀ x ∈ l, |f x| ≤ b) :
    |(l.map f).sum| ≤ l.length * b := by
  have hlow := List.card_nsmul_le_sum (l.map f) (-b) (List.forall_mem_map.mpr fun x hx => (abs_le.mp (h x hx)).1)
  have hhigh := List.sum_le_card_nsmul (l.map f) b (List.forall_mem_map.mpr fun x hx => (abs_le.mp (h x hx)).2)
  rw [List.length_map, nsmul_eq_mul] at hlow hhigh
  exact abs_le.mpr ⟨by rwa [← mul_neg], hhigh⟩

section bounds

variable (c : Chip)

/-! The size of a unit's output: 4084 for each operator that is added, and twice that where the unit is doubled
(44_channel_synthesis R248). -/

theorem abs_opOut_le (o : Fin 36) (mod : Int) : |opOut c o mod| ≤ 4084 := abs_le.mpr (opOut_inRange c o mod)

theorem abs_opOut_add_le (o o' : Fin 36) (mod mod' : Int) : |opOut c o mod + opOut c o' mod'| ≤ 8168 :=
  (abs_add_le _ _).trans (add_le_add (abs_opOut_le c o mod) (abs_opOut_le c o' mod'))

theorem abs_twoOpOut_le (ch : Fin 18) : |twoOpOut c ch| ≤ 8168 := by
  simp only [twoOpOut]
  split
  · exact abs_opOut_add_le c _ _ _ _
  · exact (abs_opOut_le c _ _).trans (by decide)

theorem abs_fourOpOut_le (k : Fin 6) : |(fourOpOut c k).chOut| ≤ 12252 := by
  simp only [fourOpOut]
  split
  · exact (abs_opOut_le c _ _).trans (by decide)
  · exact (abs_opOut_add_le c _ _ _ _).trans (by decide)
  · exact (abs_opOut_add_le c _ _ _ _).trans (by decide)
  · exact (abs_add_le _ _).trans (add_le_add (abs_opOut_add_le c _ _ _ _) (abs_opOut_le c _ _))

theorem abs_two_mul_le {x b : Int} (h : |x| ≤ b) : |2 * x| ≤ 2 * b := by
  rw [abs_mul]
  exact mul_le_mul_of_nonneg_left h (by decide)

theorem abs_bassDrumOut_le : |bassDrumOut c| ≤ 8168 := by
  simp only [bassDrumOut]
  split <;> exact abs_two_mul_le (abs_opOut_le c _ _)

/-- Only a doubled rhythm pair can reach 16336. -/
theorem abs_unitOut_lt {u : SynthUnit} (hhat : u ≠ .hatSnare) (htom : u ≠ .tomCymbal) : |unitOut c u| < 16336 := by
  cases u with
  | twoOp ch => exact (abs_twoOpOut_le c ch).trans_lt (by decide)
  | fourOp k => exact (abs_fourOpOut_le c k).trans_lt (by decide)
  | bassDrum => exact (abs_bassDrumOut_le c).trans_lt (by decide)
  | hatSnare => exact absurd rfl hhat
  | tomCymbal => exact absurd rfl htom

theorem abs_unitOut_le (u : SynthUnit) : |unitOut c u| ≤ 16336 := by
  by_cases hhat : u = .hatSnare
  · exact hhat ▸ abs_two_mul_le (abs_opOut_add_le c 14 15 0 0)
  by_cases htom : u = .tomCymbal
  · exact htom ▸ abs_two_mul_le (abs_opOut_add_le c 16 17 0 0)
  · exact (abs_unitOut_lt c hhat htom).le

/-- The sum of the units that a choice lets through is at most 18 times the largest unit (44_channel_synthesis R248). -/
theorem abs_routedSum_le (route : SynthUnit → Bool) :
    |((unitsOf c.regs).map (fun u => if route u then unitOut c u else 0)).sum| ≤ 294048 := by
  have hterm (u : SynthUnit) : |if route u then unitOut c u else 0| ≤ 16336 := by
    split
    · exact abs_unitOut_le c u
    · decide
  have hlen := unitsOf_length c.regs
  have hsum := abs_sum_map_le (l := unitsOf c.regs) fun u _ => hterm u
  omega

end bounds

/-- Settles O48: every unit is bounded by its operators, and a sample has at most eighteen units. -/
theorem sampleSumsAreBounded : Obligations.SampleSumsAreBounded := fun c =>
  ⟨fun u => ⟨abs_unitOut_le c u, abs_unitOut_lt c⟩, abs_routedSum_le c _, abs_routedSum_le c _⟩

end Sys2Proof.Machine
end

section
/-! PROOFS. The steps of the machine between transactions (60_exceptions R351, 30_encoding R81). -/

namespace Sys2Proof.Machine

/-- The empty stream's case of `step` (log entry 3). -/
theorem step_of_pending_nil {s : State} (h : s.host.pending = []) : step s = .next s := by
  simp only [step, h]

/-- The buffer's case of `step` (log entry 1). -/
theorem step_of_pending_buffer {s : State} {frames : List AccFrame} {rest : List HostItem}
    (h : s.host.pending = .buffer frames :: rest) : step s = .next ((s.consume 1).handOver frames) := by
  simp only [step, h]

/-- Settles O11: the two cases of `step` that run no transaction; taking one item off the stream leaves its rest. -/
theorem stepBetweenTransactions : Obligations.StepBetweenTransactions := by
  refine fun s => ⟨step_of_pending_nil, fun frames rest hpending => ?_⟩
  rw [step_of_pending_buffer hpending]
  simp only [State.consume, State.handOver, hpending, List.drop_succ_cons, List.drop_zero]

end Sys2Proof.Machine
end

section
/-! PROOFS. The sample counter and the positions of the tremolo and the vibrato (45_lfo_noise R260, R261, R263). -/

namespace Sys2Proof.Machine

/-- The counter after a run of samples: it wraps at 2^32 (45_lfo_noise R260). -/
theorem iterate_nextSample_sampleCounter (n : Nat) (c : Chip) :
    (Chip.nextSample^[n] c).sampleCounter.toNat = (c.sampleCounter.toNat + n) % 2 ^ 32 := by
  induction n with
  | zero => exact (Nat.mod_eq_of_lt c.sampleCounter.isLt).symm
  | succ n ih =>
    rw [Function.iterate_succ_apply', Chip.nextSample_sampleCounter, BitVec.toNat_add, ih]
    simp [Nat.add_assoc]

/-- Settles O35: `gen n` counts its `n` samples; every other transaction but `reset` is a register write, which keeps the
counter, or leaves the chip alone. -/
theorem onlyGenerateCountsSamples : Obligations.OnlyGenerateCountsSamples := by
  refine ⟨fun n s => ?_, fun i s t hgen hreset h => ?_⟩
  · obtain ⟨t, ht, hchip, -⟩ := exec_gen n s
    exact ⟨t, ht, hchip ▸ iterate_nextSample_sampleCounter n s.chip⟩
  · rcases exec_chip_cases hgen hreset h with ⟨a, v, -, rfl⟩ | ⟨hchip, -⟩
    · rw [State.withChip_chip, Chip.writeReg_sampleCounter]
    · rw [hchip]

section lfoPosition

/-! A position in `0..p-1` that moves on, mod `p`, at every sample whose counter is 0 mod `d`. The counter's wrap at 2^32
is not seen, since `d` divides 2^32. -/

variable {pos : Chip → Nat} {d p : Nat} (hd : d ∣ 2 ^ 32)
  (hstep : ∀ c, pos c.nextSample =
    if (c.sampleCounter.toNat + 1) % 2 ^ 32 % d = 0 then (pos c + 1) % p else pos c)

include hd hstep

/-- After `n` samples the position has moved on once for each multiple of `d` that the counter has passed. -/
theorem iterate_nextSample_position (n : Nat) {c : Chip} (hpos : pos c < p) :
    pos (Chip.nextSample^[n] c) = (pos c + (c.sampleCounter.toNat % d + n) / d) % p := by
  induction n with
  | zero =>
    have hrest := Nat.mod_lt c.sampleCounter.toNat (Nat.pos_of_dvd_of_pos hd (by decide))
    rw [Function.iterate_zero_apply, Nat.add_zero, Nat.div_eq_of_lt hrest, Nat.add_zero, Nat.mod_eq_of_lt hpos]
  | succ n ih =>
    have hcarry : ((c.sampleCounter.toNat + n) % 2 ^ 32 + 1) % 2 ^ 32 % d = 0 ↔
        d ∣ c.sampleCounter.toNat % d + n + 1 := by
      rw [Nat.dvd_iff_mod_eq_zero, Nat.mod_add_mod, Nat.mod_mod_of_dvd _ hd, Nat.add_assoc, Nat.add_assoc,
        Nat.mod_add_mod]
    rw [Function.iterate_succ_apply', hstep, iterate_nextSample_sampleCounter, ih, ← Nat.add_assoc, Nat.succ_div]
    simp only [hcarry]
    split
    · rw [Nat.mod_add_mod, Nat.add_assoc]
    · rfl

/-- The position has the period `d * p` (45_lfo_noise R261, R263). -/
theorem iterate_nextSample_position_period {c : Chip} (hpos : pos c < p) :
    pos (Chip.nextSample^[d * p] c) = pos c := by
  have hd0 : 0 < d := Nat.pos_of_dvd_of_pos hd (by decide)
  rw [iterate_nextSample_position hd hstep _ hpos, Nat.add_mul_div_left _ _ hd0,
    Nat.div_eq_of_lt (Nat.mod_lt _ hd0), Nat.zero_add, Nat.add_mod_right, Nat.mod_eq_of_lt hpos]

end lfoPosition

/-- Settles O36: the two positions follow one rule, with 64 samples and 210 values and with 1024 samples and 8 values. -/
theorem lfoPositionsAdvance : Obligations.LfoPositionsAdvance := by
  refine ⟨fun s => ?_, fun s hpos => ?_, fun s hpos => ?_⟩
  · obtain ⟨t, ht, hchip⟩ := exec_gen_one s
    exact ⟨t, ht, hchip ▸ Chip.advance_tremPos s.chip, hchip ▸ Chip.advance_vibPos s.chip⟩
  · obtain ⟨t, ht, hchip, -⟩ := exec_gen 13440 s
    exact ⟨t, ht, hchip ▸ iterate_nextSample_position_period (pos := Chip.tremPos) (d := 64) (p := 210)
      (by decide) Chip.advance_tremPos hpos⟩
  · obtain ⟨t, ht, hchip, -⟩ := exec_gen 8192 s
    exact ⟨t, ht, hchip ▸ iterate_nextSample_position_period (pos := Chip.vibPos) (d := 1024) (p := 8)
      (by decide) Chip.advance_vibPos hpos⟩

end Sys2Proof.Machine
end

section
/-! PROOFS. The tremolo value and the vibrato offset at a position (45_lfo_noise R262, R264). -/

namespace Sys2Proof.Machine

theorem dam_eq_getLsbD (m : RegFile) : dam m = (m.read 0x0BD).getLsbD 7 := bitOf_eq_getLsbD _ _

/-- The tremolo is the triangle of its position divided by the depth's divisor (45_lfo_noise R262). -/
theorem tremolo_eq_div (m : RegFile) (pos : Nat) : tremolo m pos =
    (if pos < 105 then pos else 210 - pos) / (if (m.read 0x0BD).getLsbD 7 then 4 else 16) := by
  rw [tremolo, dam_eq_getLsbD, apply_ite (HDiv.hDiv _)]

/-- Settles O37: the triangle's peak is 105, which the depths cut to 26 and 6. -/
theorem tremoloIsTriangle : Obligations.TremoloIsTriangle := by
  refine fun m pos hpos => ⟨tremolo_eq_div m pos, ?_⟩
  have hpeak : (if pos < 105 then pos else 210 - pos) ≤ 105 := by split <;> omega
  rw [tremolo_eq_div]
  cases (m.read 0x0BD).getLsbD 7 with
  | false => exact Nat.div_le_div_right (c := 16) hpeak
  | true => exact Nat.div_le_div_right (c := 4) hpeak

/-- The size of the vibrato offset: nothing, half or all of the F-number's top three bits, by the position's place in its
half of the period, and half of that without DVB (45_lfo_noise R264). -/
def vibSize (f pos : Nat) (deep : Bool) : Nat :=
  (if pos % 4 = 0 then 0 else if pos % 2 = 1 then f / 128 / 2 else f / 128) / (if deep then 1 else 2)

/-- The vibrato offset is its size with the sign of the position's half of the period (45_lfo_noise R264). -/
theorem vibOffset_eq_vibSize {f : Nat} (hf : f < 1024) (pos : Nat) (deep : Bool) :
    vibOffset f pos deep = if pos / 4 % 2 = 1 then -(vibSize f pos deep : Int) else vibSize f pos deep := by
  have hfield : bitsOf f 9 7 = f / 128 := Nat.mod_eq_of_lt (by omega)
  cases deep <;> simp [vibOffset, vibSize, hfield]

theorem vibSize_le (f pos : Nat) (deep : Bool) : vibSize f pos deep ≤ f / 128 := by
  refine (Nat.div_le_self _ _).trans ?_
  split
  · exact Nat.zero_le _
  · split
    · exact Nat.div_le_self _ _
    · exact le_rfl

/-- Settles O38: the sizes over the eight positions are read off, and a size is at most `f / 128`, so at most 7. -/
theorem vibratoSequence : Obligations.VibratoSequence := by
  intro f deep hf
  refine ⟨?_, fun pos => ?_⟩
  · simp [List.range_succ, vibOffset_eq_vibSize hf, vibSize]
  · have hsize := vibSize_le f pos deep
    rw [vibOffset_eq_vibSize hf]
    split <;> omega

end Sys2Proof.Machine
end

section
/-! PROOFS. The noise register (45_lfo_noise R266): what a sample shifts in, and that no transaction empties it. -/

namespace Sys2Proof.Machine

/-- The bit that enters the noise register enters at bit 22 (45_lfo_noise R266). -/
theorem getLsbD_noiseFeedback (b : Bool) {j : Nat} (hj : j < 23) :
    (if b then 0x400000 else 0 : BitVec 23).getLsbD j = (b && decide (j = 22)) := by
  have hfeed : (0x400000 : BitVec 23) = BitVec.twoPow 23 22 := by decide
  cases b <;> simp [hfeed, hj]

/-- The noise register's bits after a sample (45_lfo_noise R266). -/
theorem getLsbD_nextNoise (n : BitVec 23) {j : Nat} (hj : j < 23) : (nextNoise n).getLsbD j =
    if j = 22 then n.getLsbD 14 ^^ n.getLsbD 0 else n.getLsbD (j + 1) := by
  rw [nextNoise, BitVec.getLsbD_or, BitVec.getLsbD_ushiftRight, getLsbD_noiseFeedback _ hj, Nat.add_comm 1 j]
  split
  · next htop => simp [htop]
  · next hlow => simp [hlow]

/-- A property of the chip that a register write, a sample step and the reset values keep holds after every
transaction. -/
theorem exec_chip_inv {P : Chip → Prop} (hwrite : ∀ p c a v, P c → P (c.writeReg p a v))
    (hstep : ∀ c, P c → P c.nextSample) (hreset : P Chip.reset) {i : Instr} {s t : State} (hs : P s.chip)
    (h : exec i s = .next t) : P t.chip := by
  rcases instr_kinds i with ⟨a, v, hw⟩ | hmixer | ⟨n, rfl⟩ | rfl | rfl
  · cases h.symm.trans (exec_regWrite hw s)
    exact hwrite _ _ _ _ hs
  · exact exec_mixer_chip hmixer h ▸ hs
  · obtain ⟨t', ht, hchip, -⟩ := exec_gen n s
    cases h.symm.trans ht
    exact hchip ▸ iterate_nextSample_inv hstep n hs
  · cases h
    exact hreset
  · cases h
    exact hs

/-- Settles O39: a sample shifts by `nextNoise`; a register write keeps the register, a sample keeps it from 0
(`nextNoise_ne_zero`) and `reset` sets it to 1. -/
theorem noiseShiftsAndNeverDies : Obligations.NoiseShiftsAndNeverDies := by
  refine ⟨fun s => ?_, rfl, fun i s t hnoise h => ?_⟩
  · obtain ⟨t, ht, hchip⟩ := exec_gen_one s
    refine ⟨t, ht, fun j hj => ?_⟩
    rw [hchip, Chip.nextSample_noise, getLsbD_nextNoise _ hj]
  · exact exec_chip_inv (P := fun c => c.noise ≠ 0) (fun _ _ _ _ => id) (fun _ => nextNoise_ne_zero) (by decide)
      hnoise h

end Sys2Proof.Machine
end

section
/-! PROOFS. The `gen` transaction: its frame, what it adds to the host's buffer, and how a request splits
(46_generate_and_mixer R280 to R282, 70_reset R381). -/

namespace Sys2Proof.Machine

/-- Settles O22: `generate` gives the buffer's length and its frames one by one, and a frame beyond the buffer is one of
zeros with its sample added. -/
theorem generateFrame : Obligations.GenerateFrame := by
  intro n s
  obtain ⟨t, ht, hchip, hbuf, hout, hmixer, hparams, hpending⟩ := exec_gen n s
  refine ⟨t, ht, hchip ▸ iterate_nextSample_regs n s.chip, hmixer, hparams, hpending, hbuf ▸ generate_length .., ?_, ?_,
    hbuf ▸ hout⟩
  · intro i hi
    rw [hbuf, generate_getElem?, if_neg (not_lt.mpr hi)]
  · intro i hi hbeyond
    rw [hbuf, generate_getElem?, if_pos hi, List.getD_eq_default _ _ hbeyond]
    simp [addSample, AccFrame.zero]

/-- A word holds a value reduced to the int32 range (00_scope R10). -/
theorem toInt_wrap32s (x : Int) : (wrap32s x).toInt = x.bmod (2 ^ 32) := BitVec.toInt_ofInt x

/-- Settles O23: frame `i` of `generate`'s buffer is the frame supplied with sample `i` added, as long as there is a
sample `i`. -/
theorem generateAddsEverySample : Obligations.GenerateAddsEverySample := by
  intro n s hn
  obtain ⟨t, ht, hchip, hbuf, -, hmixer, -⟩ := exec_gen n s
  refine ⟨t, ht, hchip, hmixer, ?_, fun i x hx => ?_, ?_⟩
  · rw [hbuf, generate_length, max_eq_right hn]
  · by_cases hi : i < n
    · refine ⟨addSample (Chip.nextSample^[i] s.chip) x, ?_, fun _ => ⟨toInt_wrap32s _, toInt_wrap32s _⟩,
        fun hni => absurd hi (not_lt.mpr hni)⟩
      rw [hbuf, generate_getElem?, if_pos hi, List.getD_eq_getElem?_getD, hx, Option.getD_some]
    · exact ⟨x, by rw [hbuf, generate_getElem?, if_neg hi, hx], fun h => absurd h hi, fun _ => rfl⟩
  · rintro rfl
    exact ⟨hchip, hbuf⟩

/-- A run of `a + b` samples fills the first `a` frames and then, from the chip it has reached, the rest of the buffer
(70_reset R381). -/
theorem generate_add_buf (a b : Nat) (c : Chip) (buf : List AccFrame) : (generate (a + b) c buf).2 =
    (generate a c buf).2.take a ++ (generate b (Chip.nextSample^[a] c) ((generate a c buf).2.drop a)).2 := by
  induction a generalizing c buf with
  | zero => simp [generate]
  | succ a ih =>
    rw [Nat.succ_add_eq_add_succ, Nat.add_succ, Function.iterate_succ_apply]
    simp only [generate, ih, List.take_succ_cons, List.drop_succ_cons, List.cons_append]

/-- Settles O24: samples compose as iterates of the sample step do, and the buffer splits by `generate_add_buf`. -/
theorem generateSplits : Obligations.GenerateSplits := by
  intro a b s
  obtain ⟨t, ht, htchip, htbuf, -, htmixer, -⟩ := exec_gen a s
  obtain ⟨u, hu, huchip, hubuf, -, humixer, -⟩ :=
    exec_gen b { t with host := { t.host with buf := t.host.buf.drop a } }
  obtain ⟨w, hw, hwchip, hwbuf, -, hwmixer, -⟩ := exec_gen (a + b) s
  refine ⟨t, u, w, ht, hu, hw, ?_, ?_, ?_⟩
  · rw [hwchip, huchip, htchip, Nat.add_comm, Function.iterate_add_apply]
  · rw [hwbuf, hubuf, htchip, htbuf, generate_add_buf]
  · rw [hwmixer, humixer, htmixer]

end Sys2Proof.Machine
end

section
/-! PROOFS. The output stage's conversion, `cvt` (46_generate_and_mixer R284). -/

namespace Sys2Proof.Machine

/-- The conversion of one word scales, rounds down and saturates (46_generate_and_mixer R284). -/
theorem toInt_convert (gain : Nat) (x : Word) : (convert gain x).toInt = clamp16 (x.toInt * gain / 100) :=
  toPcm_clamp16 _

/-- At gain 100 the conversion keeps a word in the 16-bit range (46_generate_and_mixer R284). -/
theorem toInt_convert_unity {x : Word} (hx : |x.toInt| ≤ 32767) : (convert 100 x).toInt = x.toInt := by
  have hbounds := abs_le.mp hx
  rw [toInt_convert, clamp16]
  omega

/-- Settles O49: each word of each frame is converted by itself. -/
theorem convertScalesAndSaturates : Obligations.ConvertScalesAndSaturates := by
  refine fun s => ⟨_, rfl, List.length_map .., fun k x hx => ?_⟩
  refine ⟨_, by rw [List.getElem?_map, hx, Option.map_some], toInt_convert _ _, toInt_convert _ _,
    fun hgain hl hr => ?_⟩
  rw [hgain]
  exact ⟨toInt_convert_unity hl, toInt_convert_unity hr⟩

end Sys2Proof.Machine
end

section
/-! PROOFS. The mixer transactions that replace one channel or the normalisation flag (46_generate_and_mixer R288 to
R294). -/

namespace Sys2Proof.Machine

theorem State.withMixChan_same (s : State) (i : Fin 64) (ch : MixChan) :
    (s.withMixChan i ch).mixer.chans[i] = ch := by
  rw [Fin.getElem_fin, State.withMixChan_getElem, if_pos rfl]

theorem State.withMixChan_other (s : State) {i j : Fin 64} (h : j ≠ i) (ch : MixChan) :
    (s.withMixChan i ch).mixer.chans[j] = s.mixer.chans[j] := by
  rw [Fin.getElem_fin, State.withMixChan_getElem, if_neg (fun hij => h (Fin.ext hij.symm)), Fin.getElem_fin]

/-- The lowest free index is the one `malloc` finds (46_generate_and_mixer R288). -/
theorem Mixer.firstFree_of_lowest {m : Mixer} {i : Fin 64} (hfree : m.chans[i].allocated = false)
    (hlower : ∀ j : Fin 64, j < i → m.chans[j].allocated = true) : m.firstFree = some i := by
  cases hfound : m.firstFree with
  | none => exact absurd (Mixer.firstFree_none.mp hfound i) (Bool.eq_false_iff.mp hfree)
  | some k =>
    obtain ⟨hkfree, hklower⟩ := Mixer.firstFree_some hfound
    rcases lt_trichotomy k i with hlt | rfl | hgt
    · exact absurd (hlower k hlt) (Bool.eq_false_iff.mp hkfree)
    · rfl
    · exact absurd (hklower i hgt) (Bool.eq_false_iff.mp hfree)

/-- `malloc` by what its search of the pool finds (46_generate_and_mixer R288). -/
theorem exec_mixAlloc_some {s : State} {i : Fin 64} (h : s.mixer.firstFree = some i) : exec .mixAlloc s =
    .next ((s.withMixChan i { s.mixer.chans[i].emptied with allocated := true, vol := 32768, pan := 0 }).answer
      (.index (some i))) := by
  simp only [exec, execMixAlloc, h, Config.q15One]

theorem exec_mixAlloc_none {s : State} (h : s.mixer.firstFree = none) :
    exec .mixAlloc s = .next (s.answer (.index none)) := by
  simp only [exec, execMixAlloc, h]

/-- Settles O50: the search finds the lowest free index, or none in a full pool; `mrel` replaces its channel alone. -/
theorem allocateTakesLowestFree : Obligations.AllocateTakesLowestFree := by
  refine ⟨fun s i hfree hlower => ?_, fun s hfull => exec_mixAlloc_none (Mixer.firstFree_none.mpr hfull), fun s i => ?_⟩
  · exact ⟨_, exec_mixAlloc_some (Mixer.firstFree_of_lowest hfree hlower), rfl, State.withMixChan_same ..,
      fun _ hj => State.withMixChan_other s hj _, rfl, rfl, rfl, rfl, rfl⟩
  · exact ⟨_, rfl, State.withMixChan_same .., fun _ hj => State.withMixChan_other s hj _, rfl, rfl, rfl, rfl⟩

/-- A FIFO slot that was written holds the frame stored there. -/
theorem fifoAt_of_getElem? {buf : List Frame} {j : Nat} {f : Frame} (h : buf[j]? = some f) : fifoAt buf j = f := by
  rw [fifoAt, List.getD_eq_getElem?_getD, h, Option.getD_some]

/-- Frames for an allocated channel that has room are stored at its write cursor (46_generate_and_mixer R290). -/
theorem exec_mixWrite_stored {s : State} {i : Fin 64} {frames : List Frame} (halloc : s.mixer.chans[i].allocated = true)
    (hfits : s.mixer.chans[i].wr + frames.length ≤ s.params.mixCap) : exec (.mixWrite i frames) s =
    .next (s.withMixChan i { s.mixer.chans[i] with
      buf := fifoStore s.mixer.chans[i].buf s.mixer.chans[i].wr frames
      wr := s.mixer.chans[i].wr + frames.length }) :=
  if_pos (by rw [halloc, decide_eq_true hfits, Bool.and_self])

/-- Other frames are dropped whole (46_generate_and_mixer R291). -/
theorem exec_mixWrite_dropped {s : State} {i : Fin 64} {frames : List Frame}
    (h : s.mixer.chans[i].allocated = false ∨ s.params.mixCap < s.mixer.chans[i].wr + frames.length) :
    exec (.mixWrite i frames) s = .next s := by
  refine if_neg fun hstored => ?_
  rw [Bool.and_eq_true, decide_eq_true_eq] at hstored
  rcases h with hfree | hfull
  · exact absurd (hstored.1.symm.trans hfree) (by decide)
  · exact absurd hstored.2 (not_le.mpr hfull)

/-- Settles O51: the stored frames are those `fifoAt_store` finds from the write cursor on. -/
theorem mixWriteAppendsOrDrops : Obligations.MixWriteAppendsOrDrops := by
  refine ⟨fun s i frames halloc hfits => ⟨_, exec_mixWrite_stored halloc hfits, ?_⟩, fun _ _ _ => exec_mixWrite_dropped⟩
  rw [State.withMixChan_same]
  refine ⟨rfl, fun j f hf => ?_, fun j hj => ?_, halloc, rfl, rfl, rfl, fun _ hj => State.withMixChan_other s hj _,
    rfl, rfl, rfl, rfl⟩
  · have hlt : j < frames.length := (List.getElem?_eq_some_iff.mp hf).1
    refine (fifoAt_store ..).trans ?_
    rw [if_pos ⟨Nat.le_add_right _ _, Nat.add_lt_add_left hlt _⟩, Nat.add_sub_cancel_left, fifoAt_of_getElem? hf]
  · exact (fifoAt_store ..).trans (if_neg (by omega))

/-- Settles O52: `mvol` and `mpan` replace one field of their channel, `mnorm` the flag. -/
theorem mixerSettingsAreClamped : Obligations.MixerSettingsAreClamped := by
  refine fun s i x b => ⟨⟨_, rfl, ?_⟩, ⟨_, rfl, ?_⟩, rfl⟩ <;> rw [State.withMixChan_same]
  · exact ⟨Int.toNat_of_nonneg (le_min (by decide) (le_max_left 0 x)), rfl,
      fun _ hj => State.withMixChan_other s hj _, rfl, rfl, rfl, rfl⟩
  · exact ⟨rfl, rfl, fun _ hj => State.withMixChan_other s hj _, rfl, rfl, rfl, rfl⟩

end Sys2Proof.Machine
end

section
/-! PROOFS. A pass of the Virtual Mixer (46_generate_and_mixer R295, R296, R298). -/

namespace Sys2Proof.Machine

variable (m : Mixer) (k : Nat)

theorem Mixer.mixed_length : m.mixed.length = m.passLength := by rw [Mixer.mixed, List.length_map, List.length_range]

/-- Frame `k` of a pass is the mix of the channels' frames `k` (46_generate_and_mixer R295). -/
theorem Mixer.eq_mixedFrame_of_mixed_getElem? {f : Frame} (h : m.mixed[k]? = some f) : f = m.mixedFrame k := by
  obtain ⟨hk, hf⟩ := List.getElem?_eq_some_iff.mp h
  rw [← hf]
  simp only [Mixer.mixed, List.getElem_map, List.getElem_range]

/-- The sides of a frame of a pass, summed over all channels (46_generate_and_mixer R295). -/
theorem Mixer.toInt_mixedFrame :
    (m.mixedFrame k).l.toInt = clamp16 ((∑ i : Fin 64, if m.chans[i].allocated then mixLeft k m.chans[i] else 0) /
      ((m.divisor : Int) * 2 ^ 30)) ∧
    (m.mixedFrame k).r.toInt = clamp16 ((∑ i : Fin 64, if m.chans[i].allocated then mixRight k m.chans[i] else 0) /
      ((m.divisor : Int) * 2 ^ 30)) := by
  rw [← m.active_sum (mixLeft k), ← m.active_sum (mixRight k)]
  exact ⟨toPcm_clamp16 _, toPcm_clamp16 _⟩

/-- Settles O53: the pass's length, divisor and sums over the allocated channels, restated over all 64. -/
theorem mixPassSumsAndDrains : Obligations.MixPassSumsAndDrains := by
  refine fun s => ⟨_, s.mixer.mixed, rfl, rfl, s.mixer.mixed_length.trans s.mixer.passLength_eq, fun k f hf => ?_,
    fun i => s.mixer.drained_getElem i i.isLt, rfl, rfl, rfl, rfl, rfl⟩
  obtain rfl := s.mixer.eq_mixedFrame_of_mixed_getElem? k hf
  simp only [← Mixer.divisor_eq, ite_and]
  exact s.mixer.toInt_mixedFrame k

end Sys2Proof.Machine
end

section
/-! PROOFS. A pass over exactly two allocated channels with one unread frame each (46_generate_and_mixer R299). -/

namespace Sys2Proof.Machine

/-- Where every allocated channel has `n` unread frames, and there is one, a pass has `n` frames (R295). -/
theorem Mixer.passLength_of_unread_eq {m : Mixer} {n : Nat} {i : Fin 64} (hi : m.chans[i].allocated = true)
    (hunread : ∀ k : Fin 64, m.chans[k].allocated = true → m.chans[k].wr - m.chans[k].rd = n) : m.passLength = n := by
  rw [Mixer.passLength_eq]
  refine le_antisymm (Finset.sup_le fun k _ => ?_) ?_
  · split
    · next hk => exact (hunread k hk).le
    · exact Nat.zero_le n
  · refine le_of_eq_of_le ?_ (Finset.le_sup (Finset.mem_univ i))
    rw [if_pos hi, hunread i hi]

/-- The contributions of a channel at pan 0 whose one unread frame is `f` (46_generate_and_mixer R295, R296). -/
theorem mixSides_of_centre {ch : MixChan} {f : Frame} (hwr : ch.wr = ch.rd + 1) (hf : ch.buf[ch.rd]? = some f)
    (hpan : ch.pan = 0) :
    mixLeft 0 ch = f.l.toInt * ch.vol * 32768 ∧ mixRight 0 ch = f.r.toInt * ch.vol * 32768 := by
  have hunread : ch.rd + 0 < ch.wr := by omega
  rw [mixLeft, mixRight, if_pos hunread, if_pos hunread, Nat.add_zero, fifoAt_of_getElem? hf, hpan]
  exact ⟨rfl, rfl⟩

section twoAllocated

variable {m : Mixer} {i j : Fin 64} (hij : i ≠ j) (halloc : ∀ k : Fin 64, m.chans[k].allocated = true ↔ k = i ∨ k = j)

include hij halloc

theorem Mixer.active_sum_of_two (part : MixChan → Int) :
    (m.active.map part).sum = part m.chans[i] + part m.chans[j] := by
  have hother (k : Fin 64) (hk : k ≠ i ∧ k ≠ j) : ¬ m.chans[k].allocated = true := by
    rw [halloc]
    exact not_or.mpr hk
  rw [Mixer.active_sum, Fintype.sum_eq_add i j hij fun k hk => if_neg (hother k hk),
    if_pos ((halloc i).mpr (.inl rfl)), if_pos ((halloc j).mpr (.inr rfl))]

theorem Mixer.divisor_of_two : (m.divisor : Int) = if m.normalize then 2 else 1 := by
  have hlength : (m.active.length : Int) = 2 := by simpa using Mixer.active_sum_of_two hij halloc fun _ => 1
  rw [Mixer.divisor, Nat.cast_ite, hlength, Nat.cast_one]

/-- One side of a frame before it saturates: the pan factor 32768 of both channels cancels (R295). -/
theorem Mixer.scaledSum_of_two {part : MixChan → Int} {x y : Int} (hx : part m.chans[i] = x * 32768)
    (hy : part m.chans[j] = y * 32768) :
    (m.active.map part).sum / ((m.divisor : Int) * 2 ^ 30) = (x + y) / ((if m.normalize then 2 else 1) * 32768) := by
  rw [Mixer.active_sum_of_two hij halloc, Mixer.divisor_of_two hij halloc, hx, hy, ← Int.add_mul,
    show (2 : Int) ^ 30 = 32768 * 32768 from rfl, ← Int.mul_assoc, Int.mul_ediv_mul_of_pos_left _ _ (by decide)]

end twoAllocated

/-- Settles O54: the pass has one frame, and each of its sides is the sum of the two channels' parts. -/
theorem mixerSummationLaw : Obligations.MixerSummationLaw := by
  intro s i j f g hij halloc hwri hwrj hf hg hpani hpanj
  have hlength : s.mixer.passLength = 1 := by
    refine Mixer.passLength_of_unread_eq ((halloc i).mpr (.inl rfl)) fun k hk => ?_
    rcases (halloc k).mp hk with rfl | rfl <;> omega
  have hmixed : s.mixer.mixed = [s.mixer.mixedFrame 0] := by
    rw [Mixer.mixed, hlength]
    rfl
  obtain ⟨hli, hri⟩ := mixSides_of_centre hwri hf hpani
  obtain ⟨hlj, hrj⟩ := mixSides_of_centre hwrj hg hpanj
  refine ⟨_, s.mixer.mixedFrame 0, rfl, congrArg (fun frames => s.host.out ++ [.pcm frames]) hmixed, ?_, ?_⟩
  · rw [← Mixer.scaledSum_of_two hij halloc hli hlj]
    exact toPcm_clamp16 _
  · rw [← Mixer.scaledSum_of_two hij halloc hri hrj]
    exact toPcm_clamp16 _

end Sys2Proof.Machine
end

section
/-! PROOFS. Where a run can stop: every transaction completes, and the decoder rejects only the streams that spell none
(60_exceptions R340, 30_encoding R82; log entry 4). -/

namespace Sys2Proof

/-- Operand words the decoder rejects are too few for a count word and the frames it counts (log entry 4). -/
theorem decodeFrames_eq_error {ws : List Word} {e : DecodeError} (h : decodeFrames ws = .error e) :
    e = .truncated ∧ ∀ k frameWords, ws = k :: frameWords → frameWords.length < k.toNat := by
  cases ws with
  | nil =>
    cases h
    exact ⟨rfl, fun _ _ hws => nomatch hws⟩
  | cons k frameWords =>
    simp only [decodeFrames] at h
    split at h
    case isTrue => cases h
    case isFalse hshort =>
      cases h
      refine ⟨rfl, fun k' frameWords' hws => ?_⟩
      cases hws
      exact Nat.lt_of_not_le hshort

/-- A nonempty stream of words the decoder rejects has an unassigned code (30_encoding R82) or is a `MIX_WRITE` whose
operand words are rejected (log entry 4). -/
theorem decode_eq_error {w : Word} {ws : List Word} {e : DecodeError} (h : decode (w :: ws) = .error e) :
    (11 ≤ bitsOf w.toNat 31 28 ∧ e = .unassignedCommand (bitsOf w.toNat 31 28)) ∨
      (bitsOf w.toNat 31 28 = 6 ∧ decodeFrames ws = .error e) := by
  simp only [decode] at h
  split at h
  case h_7 hcode =>
    split at h
    case h_1 => cases h
    case h_2 hframes =>
      cases h
      exact .inr ⟨hcode, hframes⟩
  case h_12 =>
    have hunassigned : 11 ≤ bitsOf w.toNat 31 28 := by
      simp only [imp_false] at *
      omega
    cases h
    exact .inl ⟨hunassigned, rfl⟩
  all_goals cases h

end Sys2Proof

namespace Sys2Proof.Machine

/-- No transaction faults or is refused (60_exceptions R340). -/
theorem exec_completes (i : Instr) (s : State) : Completes i s := by
  rcases instr_kinds i with ⟨a, v, hwrite⟩ | hmixer | ⟨n, rfl⟩ | rfl | rfl
  · exact ⟨_, exec_regWrite hwrite s⟩
  · obtain ⟨t, ht, -⟩ := exec_mixer hmixer s
    exact ⟨t, ht⟩
  · obtain ⟨t, ht, -⟩ := exec_gen n s
    exact ⟨t, ht⟩
  all_goals exact ⟨_, rfl⟩

/-- Settles O12: a transaction completes once it is decoded, so only words the decoder rejects stop a step, by the
decoder's reason. -/
theorem stepStopsOnlyOnBadStreams : Obligations.StepStopsOnlyOnBadStreams := by
  refine ⟨exec_completes, fun s => ?_⟩
  match hpending : s.host.pending with
  | [] => exact .inl ⟨_, step_of_pending_nil hpending⟩
  | .buffer _ :: _ => exact .inl ⟨_, step_of_pending_buffer hpending⟩
  | .word w :: rest =>
    cases hdecode : decode (w :: leadingWords rest) with
    | ok found =>
      left
      rw [step_eq_exec_consume hpending hdecode]
      exact exec_completes _ _
    | error e =>
      refine .inr ⟨w, rest, rfl, ?_⟩
      rw [step_refused hpending hdecode, ← commandCode_eq_div]
      rcases decode_eq_error hdecode with ⟨hcode, rfl⟩ | ⟨hcode, hframes⟩
      · exact .inl ⟨hcode, rfl⟩
      · obtain ⟨rfl, hshort⟩ := decodeFrames_eq_error hframes
        exact .inr ⟨hcode, rfl, hshort⟩

end Sys2Proof.Machine
end

section
/-! PROOFS. The `reset` transaction (70_reset R370). -/

namespace Sys2Proof.Machine

/-- `reset` puts the chip and the mixer of the state right after reset in place of the block's, with the state's own
NORMALIZE_RESET, and keeps the parameters and the host's side (70_reset R370). -/
theorem exec_reset (s : State) : exec .reset s =
    .next ((s.withChip State.reset.chip).withMixer { State.reset.mixer with normalize := s.params.normalizeReset }) :=
  rfl

/-- Settles O55: the chip and the mixer channels that `reset` puts in place are those of the state right after reset,
whose values O56 gives. -/
theorem resetTransaction : Obligations.ResetTransaction := by
  intro s
  obtain ⟨-, hregs, hops, hfb, hcounter, htrem, hvib, hnoise, hchans, -⟩ := resetState
  have hwf : State.reset.chip.regs.wf = true := rfl
  exact ⟨_, exec_reset s, hregs, hwf, hops, hfb, hcounter, htrem, hvib, hnoise, hchans, rfl, rfl, rfl⟩

end Sys2Proof.Machine
end
